-- ==== Sys2Proof/Word.lean ====
section
/-! DEFINITION. The word types of EPD-CORE (20_memory.md R41, 30_encoding.md R60, R74, R76, 10_state.md R31). -/

namespace Sys2Proof

/-- One byte of a buffer, one drive byte, one value of `CFG` (R17, R41, R140). -/
abbrev Byte := BitVec 8

/-- Four bits: an index of the encoder's tables, or a greyscale pixel as stored (R43, R142). -/
abbrev Nibble := BitVec 4

/-- A two-bit pixel drive code (R140). -/
abbrev DriveCode := BitVec 2

/-- The 32-bit word of the output port (R31). -/
abbrev PortWord := BitVec 32

/-- One command word as the host presents it (R60). -/
abbrev CommandWord := BitVec 64

end Sys2Proof
end

