-- ==== Sys2Proof/Syntax.lean ====
section
/-! DEFINITION. The instructions of EPD-CORE: every row of spec/opcode_table.json is a constructor of `Instr`. -/

namespace Sys2Proof

/-- The four kinds of constant pass (00_scope.md glossary, 43_waveform_encoder.md R144). -/
inductive PassKind
  | white
  | black
  | discharge
  | skip
  deriving DecidableEq, Repr

/-- A pass descriptor, which tells PASS where its bus words come from (30_encoding.md R74). -/
inductive PassDesc
  | const (kind : PassKind)
  | monoLutb
  | monoLut2
  | diff
  | grey (k : BitVec 3)
  deriving DecidableEq, Repr

/-- The states of `PHASE`, one per code of 30_encoding.md R76; the other codes are never held. -/
inductive Phase
  | idle
  | vscanStart
  | hscanStart
  | rowClock
  | vscanEnd
  | settle
  | cfgPush
  | powerOn
  | powerOff
  | diff
  | commit
  deriving DecidableEq, Repr

/-- The colour operand: an RGB triple and the on/off classification, on = black (R64, R216). -/
structure Colour where
  r : Byte
  gr : Byte
  b : Byte
  on : Bool
  deriving DecidableEq, Repr

/-- The instructions, in the table's order: five host commands, eight pass descriptors, eleven `PHASE` operations and
five composite operations.
`x` and `y` are signed 16-bit fields (R64). HSCAN_START and COL_WORD take their drive byte from `DRV`, and a pass
descriptor takes its word index from `KW` (R12). -/
inductive Instr
  -- host commands (R62)
  | init (w h : BitVec 16) (g p : Bool) (fue : BitVec 16)
  | setPixel (x y : BitVec 16) (c : Colour)
  | fill (c : Colour)
  | clean
  | refresh
  -- pass descriptors (R74)
  | passConstWhite
  | passConstBlack
  | passConstDischarge
  | passConstSkip
  | passMonoLutb
  | passMonoLut2
  | passDiff
  | passGrey (k : BitVec 3)
  -- PHASE codes (R76)
  | idle
  | vscanStart
  | hscanStart
  | colWord
  | vscanEnd
  | settle
  | cfgPush
  | powerOn
  | powerOff
  | diff
  | commit
  -- composite operations, with no code of their own
  | pass (d : PassDesc)
  | runPass (d : PassDesc)
  | refreshFullMono
  | refreshPartial
  | refreshGrey
  deriving DecidableEq, Repr

/-- A code in one of the three encoding spaces of 30_encoding.md: a host command word (R61), a pass descriptor (R74), a
`PHASE` code (R76). -/
inductive Code
  | command (w : CommandWord)
  | descriptor (d : Byte)
  | phase (c : BitVec 5)
  deriving DecidableEq, Repr

/-- Why a code spells no instruction. -/
inductive DecodeError
  /-- The `op` field of a command word is 0x0 or 0x6 to 0xF (R62, R68). -/
  | reservedOp
  /-- The `op` field names a command and a reserved bit is 1 (R61, R68). -/
  | reservedBits
  /-- The byte is no pass descriptor (R75). -/
  | notADescriptor
  /-- The `PHASE` code is unused (R76). -/
  | unusedPhase
  deriving DecidableEq, Repr

end Sys2Proof
end

