-- ==== Sys2Proof/Config.lean ====
section
/-! DEFINITION. The parameters of EPD-CORE (00_scope.md R6), their constraints, the reference set REF, and the free
values of the behaviours the spec leaves as "any value" (93_implementation_defined.md U5, U6). -/

namespace Sys2Proof

/-- One micro-step of `VSCAN_START_SEQ` (42_scan_engine.md R122). -/
inductive VStep
  /-- `PinWrite(SOF_LINE, v)`. -/
  | line (v : Bool)
  /-- `CFG.SOF <- v ; CFG_PUSH()`. -/
  | bit (v : Bool)
  /-- `DelayUs(T_VS_US)`. -/
  | wait
  deriving DecidableEq, Repr

/-- The map from the data lines and the clock line to bit positions of the port word (R31, R77). -/
structure PinMap where
  d0 : Fin 32
  d1 : Fin 32
  d2 : Fin 32
  d3 : Fin 32
  d4 : Fin 32
  d5 : Fin 32
  d6 : Fin 32
  d7 : Fin 32
  clk : Fin 32
  deriving DecidableEq, Repr

/-- The nine positions, data lines first. -/
def PinMap.positions (m : PinMap) : List (Fin 32) :=
  [m.d0, m.d1, m.d2, m.d3, m.d4, m.d5, m.d6, m.d7, m.clk]

/-- The named parameters of R6. `T_SETTLE_US` is not among them: D9 fixes it (`Config.tSettleUs`). -/
structure Config where
  /-- `LUTB`, indexed by four pixel bits (R142). -/
  lutb : Vector Byte 16
  /-- `LUT2` (R142). -/
  lut2 : Vector Byte 16
  /-- `LUTW` (R142). -/
  lutw : Vector Byte 16
  /-- `WAVEFORM3[g][k]` (R143). -/
  waveform3 : Vector (Vector DriveCode 8) 8
  /-- `DATA_WHITE` (R144). -/
  dataWhite : Byte
  /-- `DATA_BLACK` (R144). -/
  dataBlack : Byte
  /-- `DATA_DISCHARGE` (R144). -/
  dataDischarge : Byte
  /-- `DATA_SKIP` (R144). -/
  dataSkip : Byte
  /-- `PRELUDE_MONO` (R183). -/
  preludeMono : List PassKind
  /-- `PRELUDE_GREY` (R185). -/
  preludeGrey : List PassKind
  /-- `CLEAN_SEQ` (R188). -/
  cleanSeq : List PassKind
  /-- `PINMAP` (R77). -/
  pinmap : PinMap
  /-- `CYCLES_PER_UNIT` (R114). -/
  cyclesPerUnit : Nat
  /-- `T_VS_US` (R122). -/
  tVsUs : Nat
  /-- `VSCAN_START_SEQ` (R122). -/
  vscanStartSeq : List VStep
  /-- `FB_CAPACITY` (R161). -/
  fbCapacity : Nat
  /-- `CFG_RESET` (R231). -/
  cfgReset : Byte
  deriving DecidableEq, Repr

/-- `T_SETTLE_US = 230` (R181, D9). -/
def Config.tSettleUs : Nat := 230

/-- The value of the last `bit` step of a `VSCAN_START_SEQ`, if it has one. -/
def lastBit : List VStep → Option Bool
  | [] => none
  | .bit v :: rest => (lastBit rest).or (some v)
  | .line _ :: rest => lastBit rest
  | .wait :: rest => lastBit rest

/-- Constraints (b) and (c) of R122; (a) holds by the alphabet. DEDUCED (log entry 3): "changes each of the two at least
once" is read as: the line is written both ways, the bit is written 0, and the last write of the bit is 1. -/
def vscanSeqValid (q : List VStep) : Bool :=
  decide (VStep.line false ∈ q) && decide (VStep.line true ∈ q) && decide (VStep.bit false ∈ q) &&
    decide (lastBit q = some true)

/-- The constraints of R6 (with R20's bound on the length of a sequence's list, log entry 4): a configuration that
violates one is refused (R75, R204). The hypothesis of R147 on the tables is not among them: R147 leaves it to the claims
that need it. -/
def Config.valid (p : Config) : Bool :=
  decide (p.preludeMono.length = 8) && decide (PassKind.skip ∉ p.preludeMono) &&
  decide (p.preludeGrey.length + 10 ≤ 255) && decide (PassKind.skip ∉ p.preludeGrey) &&
  decide (p.cleanSeq.length ≤ 255) &&
  decide p.pinmap.positions.Nodup &&
  decide (0 < p.cyclesPerUnit) && decide (0 < p.tVsUs) &&
  vscanSeqValid p.vscanStartSeq &&
  (p.cfgReset.getLsbD 1 && !p.cfgReset.getLsbD 2 && !p.cfgReset.getLsbD 3 && !p.cfgReset.getLsbD 4)

/-- The default of `VSCAN_START_SEQ` (R122). -/
def vscanDefault : List VStep :=
  [.bit false, .wait, .line false, .wait, .line true, .wait, .bit true, .wait]

/-- The reference parameter set REF (R6, R150): the spec's own choice, no claim about any panel. -/
def Config.ref : Config where
  lutb := #v[0x55, 0x56, 0x59, 0x5A, 0x65, 0x66, 0x69, 0x6A, 0x95, 0x96, 0x99, 0x9A, 0xA5, 0xA6, 0xA9, 0xAA]
  lutw := #v[0xAA, 0xA9, 0xA6, 0xA5, 0x9A, 0x99, 0x96, 0x95, 0x6A, 0x69, 0x66, 0x65, 0x5A, 0x59, 0x56, 0x55]
  lut2 := #v[0x55, 0x57, 0x5D, 0x5F, 0x75, 0x77, 0x7D, 0x7F, 0xD5, 0xD7, 0xDD, 0xDF, 0xF5, 0xF7, 0xFD, 0xFF]
  waveform3 := #v[
    #v[0, 0, 0, 0, 0, 0, 0, 0],
    #v[2, 0, 0, 0, 0, 0, 0, 0],
    #v[2, 2, 0, 0, 0, 0, 0, 0],
    #v[2, 2, 2, 0, 0, 0, 0, 0],
    #v[2, 2, 2, 2, 0, 0, 0, 0],
    #v[2, 2, 2, 2, 2, 0, 0, 0],
    #v[2, 2, 2, 2, 2, 2, 0, 0],
    #v[2, 2, 2, 2, 2, 2, 2, 0]]
  dataWhite := 0xAA
  dataBlack := 0x55
  dataDischarge := 0x00
  dataSkip := 0xFF
  preludeMono := [.white, .black, .discharge, .white, .black, .discharge, .white, .black]
  preludeGrey := [.white, .black, .discharge, .white, .black, .discharge, .white, .black]
  cleanSeq := [.black, .white, .black, .white, .discharge, .skip]
  pinmap := { d0 := 0, d1 := 1, d2 := 2, d3 := 3, d4 := 4, d5 := 5, d6 := 6, d7 := 7, clk := 8 }
  cyclesPerUnit := 1
  tVsUs := 5
  vscanStartSeq := vscanDefault
  fbCapacity := 262144
  cfgReset := 0x02

/-- Free bytes: the contents of a newly allocated buffer (R163, U5) and of the external shift register after a reset
event (R33, U6). DESIGN CHOICE (log entries 5 and 7): nothing constrains the value; the index is a counter in State. -/
opaque Config.freeByte : Nat → BitVec 8

/-- Free words: the working registers after a sequence (R12, U6). DESIGN CHOICE (log entry 17). -/
opaque Config.freeWord : Nat → BitVec 32

end Sys2Proof
end

