-- ==== Sys2Proof/WellFormed.lean ====
section
/-! DEFINITION. The one operand check of EPD-CORE's instructions: the geometry INIT admits (44_framebuffer.md R172). -/

namespace Sys2Proof

/-- `w mod 4 = 0`, `w >= 4`, `h >= 1` (R172). -/
def geometryAdmitted (w h : BitVec 16) : Bool :=
  decide (w.toNat % 4 = 0) && decide (4 ≤ w.toNat) && decide (1 ≤ h.toNat)

/-- An instruction is well formed when its geometry, if it has one, is admitted; every other field admits every value. -/
def Instr.wellFormed : Instr → Bool
  | .init w h _ _ _ => geometryAdmitted w h
  | .setPixel _ _ _ => true
  | .fill _ => true
  | .clean => true
  | .refresh => true
  | .passConstWhite => true
  | .passConstBlack => true
  | .passConstDischarge => true
  | .passConstSkip => true
  | .passMonoLutb => true
  | .passMonoLut2 => true
  | .passDiff => true
  | .passGrey _ => true
  | .idle => true
  | .vscanStart => true
  | .hscanStart => true
  | .colWord => true
  | .vscanEnd => true
  | .settle => true
  | .cfgPush => true
  | .powerOn => true
  | .powerOff => true
  | .diff => true
  | .commit => true
  | .pass _ => true
  | .runPass _ => true
  | .refreshFullMono => true
  | .refreshPartial => true
  | .refreshGrey => true

end Sys2Proof
end

