-- ==== Sys2Proof/Decode.lean ====
section
/-! DEFINITION. Decoder and encoder of the three encoding spaces of 30_encoding.md: command words by match and mask
(R61 to R65), pass descriptors by fields (R74), `PHASE` codes (R76); and the two views of the opcode table's numbering. -/

namespace Sys2Proof

/-- `v[hi:lo]` of a command word, by low bit and width (R9). -/
def field (cmd : CommandWord) (lo width : Nat) : BitVec width :=
  cmd.extractLsb' lo width

/-- "A word `cmd` spells the command of a row exactly when `cmd AND mask = match`" (R62). -/
def spells (cmd mask mtch : CommandWord) : Bool :=
  decide (cmd &&& mask = mtch)

/-- The colour fields, at the same place in formats P and C (R64, R65). -/
def colourOf (cmd : CommandWord) : Colour :=
  { r := field cmd 16 8, gr := field cmd 8 8, b := field cmd 0 8, on := cmd.getLsbD 56 }

/-- A word that matches no row: its `op` is reserved, or a reserved bit is 1 (R68). -/
def commandError (cmd : CommandWord) : DecodeError :=
  if 1 ≤ (field cmd 60 4).toNat ∧ (field cmd 60 4).toNat ≤ 5 then .reservedBits else .reservedOp

/-- The five rows of R62 with the operand fields of R63 to R65. -/
def decodeCommand (cmd : CommandWord) : Except DecodeError Instr :=
  if spells cmd 0xFC00000000FF0000 0x1000000000000000 then
    .ok (.init (field cmd 40 16) (field cmd 24 16) (cmd.getLsbD 57) (cmd.getLsbD 56) (field cmd 0 16))
  else if spells cmd 0xFE00000000000000 0x2000000000000000 then
    .ok (.setPixel (field cmd 40 16) (field cmd 24 16) (colourOf cmd))
  else if spells cmd 0xFEFFFFFFFF000000 0x3000000000000000 then
    .ok (.fill (colourOf cmd))
  else if spells cmd 0xFFFFFFFFFFFFFFFF 0x4000000000000000 then
    .ok .clean
  else if spells cmd 0xFFFFFFFFFFFFFFFF 0x5000000000000000 then
    .ok .refresh
  else
    .error (commandError cmd)

/-- A pass descriptor by its fields `src`, `k`, `sel` (R74); every other byte is none (R75). -/
def decodeDesc (d : Byte) : Option PassDesc :=
  let src := d.extractLsb' 6 2
  let k := d.extractLsb' 3 3
  let sel := d.extractLsb' 0 3
  if src = 0 then
    if k = 0 then
      if sel = 0 then some (.const .white)
      else if sel = 1 then some (.const .black)
      else if sel = 2 then some (.const .discharge)
      else if sel = 3 then some (.const .skip)
      else none
    else none
  else if src = 1 then
    if k = 0 then
      if sel = 0 then some .monoLutb
      else if sel = 1 then some .monoLut2
      else none
    else none
  else if src = 2 then
    if k = 0 ∧ sel = 0 then some .diff else none
  else
    if sel = 0 then some (.grey k) else none

/-- The instruction that a pass descriptor is, as a row of the opcode table. -/
def instrOfDesc : PassDesc → Instr
  | .const .white => .passConstWhite
  | .const .black => .passConstBlack
  | .const .discharge => .passConstDischarge
  | .const .skip => .passConstSkip
  | .monoLutb => .passMonoLutb
  | .monoLut2 => .passMonoLut2
  | .diff => .passDiff
  | .grey k => .passGrey k

/-- The codes of R76; 0x06, 0x07, 0x0B and 0x0E to 0x1F are unused. -/
def decodePhase (c : BitVec 5) : Option Phase :=
  match c.toNat with
  | 0x00 => some .idle
  | 0x01 => some .vscanStart
  | 0x02 => some .hscanStart
  | 0x03 => some .rowClock
  | 0x04 => some .vscanEnd
  | 0x05 => some .settle
  | 0x08 => some .cfgPush
  | 0x09 => some .powerOn
  | 0x0A => some .powerOff
  | 0x0C => some .diff
  | 0x0D => some .commit
  | _ => none

/-- The operation a phase names (R76); ROW_CLOCK's is COL_WORD, the body of its loop (R124). -/
def instrOfPhase : Phase → Instr
  | .idle => .idle
  | .vscanStart => .vscanStart
  | .hscanStart => .hscanStart
  | .rowClock => .colWord
  | .vscanEnd => .vscanEnd
  | .settle => .settle
  | .cfgPush => .cfgPush
  | .powerOn => .powerOn
  | .powerOff => .powerOff
  | .diff => .diff
  | .commit => .commit

/-- The decoder: total on the codes of the three spaces, rejecting by name. -/
def decode : Code → Except DecodeError Instr
  | .command w => decodeCommand w
  | .descriptor d =>
    match decodeDesc d with
    | some x => .ok (instrOfDesc x)
    | none => .error .notADescriptor
  | .phase c =>
    match decodePhase c with
    | some x => .ok (instrOfPhase x)
    | none => .error .unusedPhase

/-- Formats P and C end in the colour's three bytes (R61). -/
def colourBits (c : Colour) : BitVec 24 :=
  c.r ++ c.gr ++ c.b

/-- The code of an instruction, from the formats of R61 and the tables of R74 and R76; none for a composite operation,
which has no code of its own. -/
def encode : Instr → Option Code
  | .init w h g p fue =>
    some (.command (0x1#4 ++ 0#2 ++ BitVec.ofBool g ++ BitVec.ofBool p ++ w ++ h ++ 0#8 ++ fue))
  | .setPixel x y c =>
    some (.command (0x2#4 ++ 0#3 ++ BitVec.ofBool c.on ++ x ++ y ++ colourBits c))
  | .fill c =>
    some (.command (0x3#4 ++ 0#3 ++ BitVec.ofBool c.on ++ 0#32 ++ colourBits c))
  | .clean => some (.command (0x4#4 ++ 0#60))
  | .refresh => some (.command (0x5#4 ++ 0#60))
  | .passConstWhite => some (.descriptor 0x00)
  | .passConstBlack => some (.descriptor 0x01)
  | .passConstDischarge => some (.descriptor 0x02)
  | .passConstSkip => some (.descriptor 0x03)
  | .passMonoLutb => some (.descriptor 0x40)
  | .passMonoLut2 => some (.descriptor 0x41)
  | .passDiff => some (.descriptor 0x80)
  | .passGrey k => some (.descriptor (0x3#2 ++ k ++ 0#3))
  | .idle => some (.phase 0x00)
  | .vscanStart => some (.phase 0x01)
  | .hscanStart => some (.phase 0x02)
  | .colWord => some (.phase 0x03)
  | .vscanEnd => some (.phase 0x04)
  | .settle => some (.phase 0x05)
  | .cfgPush => some (.phase 0x08)
  | .powerOn => some (.phase 0x09)
  | .powerOff => some (.phase 0x0A)
  | .diff => some (.phase 0x0C)
  | .commit => some (.phase 0x0D)
  | .pass _ => none
  | .runPass _ => none
  | .refreshFullMono => none
  | .refreshPartial => none
  | .refreshGrey => none

/-- The code a row of the opcode table stands for, from its width in bits (64, 8, or 5 and in whole bytes 8) and its bits.
DESIGN CHOICE (log entry 10): at 8 bits a byte that is a pass descriptor is read as one, any other below 0x20 as a
`PHASE` code, since the table gives both spaces the same small numbers. -/
def tableCode (nbits w : Nat) : Option Code :=
  if nbits = 64 then some (.command (BitVec.ofNat 64 w))
  else if nbits = 5 then some (.phase (BitVec.ofNat 5 w))
  else if nbits = 8 then
    if (decodeDesc (BitVec.ofNat 8 w)).isSome then some (.descriptor (BitVec.ofNat 8 w))
    else if w < 32 then some (.phase (BitVec.ofNat 5 w))
    else some (.descriptor (BitVec.ofNat 8 w))
  else none

/-- The instruction the decoder reads from a row's bits. -/
def decodeTableWord (nbits w : Nat) : Option Instr :=
  match tableCode nbits w with
  | some c => (decode c).toOption
  | none => none

end Sys2Proof
end

