-- ==== Sys2Proof/Machine/State.lean ====
section
/-! DEFINITION. The state of EPD-CORE (10_state.md R10), its reset value (R34), and the reasons a step stops. -/

namespace Sys2Proof.Machine

/-- The 15 lines, in the order of 10_state.md R29. -/
inductive Line
  | sofLine
  | clk
  | srcEn
  | d0
  | d1
  | d2
  | d3
  | d4
  | d5
  | d6
  | d7
  | cfgClk
  | cfgData
  | cfgStr
  | panelEn
  deriving DecidableEq, Repr

/-- A direction of a line (R30): driven, or high-impedance. -/
inductive Dir
  | output
  | input
  deriving DecidableEq, Repr

/-- One value for each line (R30). -/
structure Lines (α : Type) where
  sofLine : α
  clk : α
  srcEn : α
  d0 : α
  d1 : α
  d2 : α
  d3 : α
  d4 : α
  d5 : α
  d6 : α
  d7 : α
  cfgClk : α
  cfgData : α
  cfgStr : α
  panelEn : α
  deriving DecidableEq, Repr

/-- The events of the external interface (00_scope.md R8). -/
inductive Event
  | pinConfigure (l : Line)
  | pinDir (l : Line) (d : Dir)
  | pinWrite (l : Line) (v : Bool)
  | portSet (m : PortWord)
  | portClear (m : PortWord)
  | delayUnits (n : Nat)
  | delayUs (n : Nat)
  deriving DecidableEq, Repr

/-- A byte array: (offset, byte) pairs. An offset that is not listed does not exist (log entry 13). The canonical form is
strictly rising offsets, `Memory.wf` in Machine/Ops.lean. -/
abbrev Memory := List Host.Cell

/-- The three pixel buffers (R23). -/
inductive BufId
  | buf0
  | buf1
  | buf2
  deriving DecidableEq, Repr

/-- What the decode helper of R44 says of a pixel: its classification in monochrome, its grey level in greyscale. -/
inductive Pixel
  | on
  | off
  | level (g : Nat)
  deriving DecidableEq, Repr

/-- Group (a) of R10: the configuration registers (R14). -/
structure Conf where
  w : BitVec 16
  h : BitVec 16
  grey : Bool
  partialEn : Bool
  fue : BitVec 16
  deriving DecidableEq, Repr

/-- Group (b) of R10: the flags (R15); `power` is true for ON. -/
structure Flags where
  initialised : Bool
  failed : Bool
  power : Bool
  blockPartial : Bool
  deriving DecidableEq, Repr

/-- Group (e) of R10: the buffers (R23); a buffer that does not exist lists nothing. -/
structure Buffers where
  buf0 : Memory
  buf1 : Memory
  buf2 : Memory
  deriving DecidableEq, Repr

/-- Groups (f) and (h) of R10: the output latches and directions of the lines (R30), the external shift register in the
two-stage form R33 offers (PRESUMED, log entry 6), and the trace (R32) with its newest event first (log entry 22; read it
through `Io.trace`). -/
structure Io where
  latch : Lines Bool
  dir : Lines Dir
  srShift : Byte
  srOut : Byte
  traceRev : List Event
  deriving DecidableEq, Repr

/-- The refresh sequences `SEQ` names (R20). -/
inductive Seq
  | none
  | fullMono
  | partialMono
  | fullGrey
  | clean
  deriving DecidableEq, Repr

/-- The sequencer position (R20). -/
structure Position where
  seq : Seq
  passIdx : BitVec 8
  phase : Phase
  row : BitVec 16
  col : BitVec 16
  deriving DecidableEq, Repr

/-- The working registers of the data path (R12); `ROW` and `COL` are part of the position. -/
structure Work where
  kw : BitVec 32
  k : BitVec 3
  pos : BitVec 32
  n : BitVec 32
  tw : Byte
  tb : Byte
  drv : Byte
  dly : BitVec 32
  deriving DecidableEq, Repr

/-- What the next step of the machine takes: a code to run, or the reset event (R60, R230). A host presents only command
words and resets; the other codes let an internal operation be stepped on its own (log entry 9). -/
inductive Input
  | code (c : Code)
  | reset
  deriving DecidableEq, Repr

/-- The state of the machine: the groups of R10, and three fields of the model's own (`params`, `port`, `draws`; log
entries 1, 8 and 5). -/
structure State where
  /-- The parameters of R6. They are configuration, held here so that statements over all states quantify over them. -/
  params : Config
  conf : Conf
  flags : Flags
  /-- `PUC` (R16). -/
  puc : BitVec 32
  /-- The config mirror `CFG` (R17). -/
  cfg : Byte
  bufs : Buffers
  io : Io
  pos : Position
  work : Work
  /-- The inputs the host will present, oldest first. -/
  port : List Input
  /-- How many free values have been drawn. -/
  draws : Nat
  deriving DecidableEq, Repr

/-- Why the machine stops with a fault. -/
inductive Fault
  /-- Raised by every buffer access (SET_PIXEL, FILL, DIFF, COMMIT, a scan) at an offset the buffer does not have: the
  buffer is not allocated or is shorter. Safe: the machine stops, and no state that INIT and the commands produce has it. -/
  | noSuchByte (b : BufId) (p : Nat)
  /-- Raised by Word when its backwards index runs past the start of the buffer, which happens only for `k` at or beyond
  `H * WPR`, outside R145's precondition. Not every such `k` raises it: the padding still lies in the buffer (log entry 14).
  Safe: as above. -/
  | scanPastEnd (b : BufId) (k : Nat)
  deriving DecidableEq, Repr

/-- Why the machine refuses. -/
inductive Refusal
  /-- Raised by exec for an instruction that has no meaning in the model; no arm uses it. Safe. -/
  | notModelled (mnemonic : String)
  /-- Raised by step for a code that spells no instruction (R68, R75; U1). Safe. -/
  | undecoded (e : DecodeError)
  /-- Raised by SET_PIXEL, FILL, CLEAN and REFRESH before a successful INIT (R160; U2). Safe. -/
  | notInitialised
  /-- Raised by INIT for a geometry outside R172 (U3). Safe. -/
  | geometryNotAdmitted
  /-- Raised by an internal operation stepped on its own in the pixel mode its rule excludes (preconditions of R145, R168,
  R169, R183, R185). Safe. -/
  | wrongPixelMode
  /-- Raised by REFRESH_PARTIAL stepped on its own while partial refresh is disabled or blocked (precondition of R184).
  Safe. -/
  | partialNotAllowed
  /-- Raised by step for a reset with `POWER` = ON, which only an operation stepped on its own leaves: rails up, a reset to
  which the spec gives no meaning (R232; U15). Safe. -/
  | resetWithPowerOn
  /-- Raised by step when the parameters violate a constraint (R75, R204; U11). Safe. -/
  | invalidConfiguration
  deriving DecidableEq, Repr

/-- The three conditions of 60_exceptions.md R200, with their codes 1, 2, 3. -/
inductive Exception
  | allocationFailure
  | outOfRangeWrite
  | powerSequenceReentry
  deriving DecidableEq, Repr

/-- What the step finds at the head of the port: nothing, a reset, an instruction, or a code that spells none. -/
inductive Fetch
  | idle
  | reset (s : State)
  | run (i : Instr) (s : State)
  | undecoded (e : DecodeError)
  deriving DecidableEq, Repr

/-- The eight one-bit fields of `CFG` (R17). -/
inductive CfgField
  | le
  | pd
  | pos
  | neg
  | sof
  | dir
  | mode
  | oe
  deriving DecidableEq, Repr

/-- The same value for every line. -/
def Lines.all {α : Type} (v : α) : Lines α :=
  ⟨v, v, v, v, v, v, v, v, v, v, v, v, v, v, v⟩

/-- The idle position (NONE, 0, IDLE, 0, 0) (R20). -/
def Position.idle : Position :=
  { seq := .none, passIdx := 0, phase := .idle, row := 0, col := 0 }

/-- The working registers at reset: unspecified (R34), named 0 (DESIGN CHOICE, log entry 17). -/
def Work.reset : Work :=
  { kw := 0, k := 0, pos := 0, n := 0, tw := 0, tb := 0, drv := 0, dly := 0 }

/-- The lines at reset (R34), and the external register, which R34 leaves unspecified, at 0 (DESIGN CHOICE, log entry 6). -/
def Io.reset : Io :=
  { latch := .all false, dir := .all .input, srShift := 0, srOut := 0, traceRev := [] }

/-- The machine right after reset with the parameters `p` (R34, R230). -/
def State.resetWith (p : Config) : State where
  params := p
  conf := { w := 0, h := 0, grey := false, partialEn := false, fue := 0 }
  flags := { initialised := false, failed := false, power := false, blockPartial := false }
  puc := 0
  cfg := p.cfgReset
  bufs := { buf0 := [], buf1 := [], buf2 := [] }
  io := .reset
  pos := .idle
  work := .reset
  port := []
  draws := 0

/-- The machine right after reset, with the spec's reference parameters (DESIGN CHOICE, log entry 1). -/
def State.reset : State :=
  .resetWith .ref

end Sys2Proof.Machine
end

