-- ==== Sys2Proof/Machine/Ops.lean ====
section
/-! DEFINITION. The shared operations: outcomes in sequence, counted loops, buffer bytes, lines and events, `CFG` and its
push, delays, exceptions, the position and the working registers, the input port and the reset event. -/

namespace Sys2Proof.Machine

/-! ### Outcomes and loops -/

/-- The outcome of a part of a step. -/
abbrev Result (α : Type) := Host.Outcome α Fault Refusal

/-- Run `f` on the state of a `next`; a fault or a refusal ends the step. -/
def andThen {α β : Type} (r : Result α) (f : α → Result β) : Result β :=
  match r with
  | .next a => f a
  | .fault e => .fault e
  | .refused e => .refused e

/-- `for i = first .. first + n - 1` in ascending order (R9, R190): the bound is fixed before the loop starts. -/
def forUp (body : Nat → State → Result State) : (n first : Nat) → State → Result State
  | 0, _, s => .next s
  | n + 1, first, s => andThen (body first s) (forUp body n (first + 1))

/-! ### Buffers (20_memory.md R40, R41) -/

/-- Byte `p` of a buffer; none when the buffer has no such byte. -/
def Memory.read : Memory → Nat → Option Byte
  | [], _ => none
  | (a, v) :: rest, p => if a = p then some v else Memory.read rest p

/-- Overwrite byte `p` of a buffer that has it; nothing is added to one that has not. -/
def Memory.write : Memory → Nat → Byte → Memory
  | [], _, _ => []
  | (a, u) :: rest, p, v => if a = p then (a, v) :: rest else (a, u) :: Memory.write rest p v

/-- `n` bytes at the offsets from `first` on, byte `p` holding `f p`. -/
def Memory.allocFrom (f : Nat → Byte) : (n first : Nat) → Memory
  | 0, _ => []
  | n + 1, first => (first, f first) :: Memory.allocFrom f n (first + 1)

/-- A new buffer of `n` bytes (R161). -/
def Memory.alloc (n : Nat) (f : Nat → Byte) : Memory :=
  Memory.allocFrom f n 0

/-- The canonical form: offsets strictly rising. An unlisted offset does not exist, so no entry can repeat what an
unlisted one reads as. -/
def Memory.wf : Memory → Bool
  | [] => true
  | (a, _) :: rest =>
    (match rest with
      | [] => true
      | (b, _) :: _ => decide (a < b)) && Memory.wf rest

def Buffers.get (b : Buffers) : BufId → Memory
  | .buf0 => b.buf0
  | .buf1 => b.buf1
  | .buf2 => b.buf2

def Buffers.set (b : Buffers) (i : BufId) (m : Memory) : Buffers :=
  match i with
  | .buf0 => { b with buf0 := m }
  | .buf1 => { b with buf1 := m }
  | .buf2 => { b with buf2 := m }

/-- The canonical form of all three buffers. -/
def Buffers.wf (b : Buffers) : Bool :=
  b.buf0.wf && b.buf1.wf && b.buf2.wf

/-- Byte `p` of buffer `b`, if it exists. -/
def State.byteAt (s : State) (b : BufId) (p : Nat) : Option Byte :=
  (s.bufs.get b).read p

/-- `BUFn[p]` (R9). -/
def readByte (b : BufId) (p : Nat) (s : State) : Result Byte :=
  match s.byteAt b p with
  | some v => .next v
  | none => .fault (.noSuchByte b p)

/-- `BUFn[p] <- v` (R9). -/
def writeByte (b : BufId) (p : Nat) (v : Byte) (s : State) : Result State :=
  match s.byteAt b p with
  | some _ => .next { s with bufs := s.bufs.set b ((s.bufs.get b).write p v) }
  | none => .fault (.noSuchByte b p)

/-- Read-modify-write of one byte (R46). -/
def modifyByte (b : BufId) (p : Nat) (f : Byte → Byte) (s : State) : Result State :=
  andThen (readByte b p s) fun v => writeByte b p (f v) s

/-! ### Lines and events (00_scope.md R8, R9; 10_state.md R29 to R33) -/

def Lines.get {α : Type} (x : Lines α) : Line → α
  | .sofLine => x.sofLine
  | .clk => x.clk
  | .srcEn => x.srcEn
  | .d0 => x.d0
  | .d1 => x.d1
  | .d2 => x.d2
  | .d3 => x.d3
  | .d4 => x.d4
  | .d5 => x.d5
  | .d6 => x.d6
  | .d7 => x.d7
  | .cfgClk => x.cfgClk
  | .cfgData => x.cfgData
  | .cfgStr => x.cfgStr
  | .panelEn => x.panelEn

def Lines.tabulate {α : Type} (f : Line → α) : Lines α :=
  ⟨f .sofLine, f .clk, f .srcEn, f .d0, f .d1, f .d2, f .d3, f .d4, f .d5, f .d6, f .d7, f .cfgClk, f .cfgData,
    f .cfgStr, f .panelEn⟩

def Lines.set {α : Type} (x : Lines α) (l : Line) (v : α) : Lines α :=
  Lines.tabulate fun l' => if l' = l then v else x.get l'

/-- The eleven panel-facing lines, in the order of R111. -/
def panelFacing : List Line :=
  [.sofLine, .clk, .srcEn, .d0, .d1, .d2, .d3, .d4, .d5, .d6, .d7]

/-- The four lines that are always outputs after INIT (R29, R102). -/
def alwaysOutputs : List Line :=
  [.cfgClk, .cfgData, .cfgStr, .panelEn]

/-- All fifteen lines, in the order of R29. -/
def allLines : List Line :=
  panelFacing ++ alwaysOutputs

/-- The line of data bit `i`. -/
def dataLine (i : Fin 8) : Line :=
  match i with
  | 0 => .d0
  | 1 => .d1
  | 2 => .d2
  | 3 => .d3
  | 4 => .d4
  | 5 => .d5
  | 6 => .d6
  | 7 => .d7

/-- The position of a line in the port word, for the nine mapped lines (R31). -/
def portBit (m : PinMap) : Line → Option (Fin 32)
  | .clk => some m.clk
  | .d0 => some m.d0
  | .d1 => some m.d1
  | .d2 => some m.d2
  | .d3 => some m.d3
  | .d4 => some m.d4
  | .d5 => some m.d5
  | .d6 => some m.d6
  | .d7 => some m.d7
  | .sofLine => none
  | .srcEn => none
  | .cfgClk => none
  | .cfgData => none
  | .cfgStr => none
  | .panelEn => none

/-- The ordered list of events performed (R32). -/
def Io.trace (io : Io) : List Event :=
  io.traceRev.reverse

/-- `Emit(e)` (R9). -/
def Io.emit (e : Event) (io : Io) : Io :=
  { io with traceRev := e :: io.traceRev }

/-- `PinConfigure(l)`: prepares the line and changes no level (R214). -/
def Io.pinConfigure (l : Line) (io : Io) : Io :=
  io.emit (.pinConfigure l)

/-- `PinDir(l, d)`: changes only `DIR[l]` (R30). -/
def Io.pinDir (d : Dir) (l : Line) (io : Io) : Io :=
  { io.emit (.pinDir l d) with dir := io.dir.set l d }

/-- The level a line presents to the outside: its latch while it is an output, and none, high-impedance, while it is an
input (R30). -/
def Io.level (io : Io) (l : Line) : Option Bool :=
  match io.dir.get l with
  | .output => some (io.latch.get l)
  | .input => none

/-- A write of 1 to a line whose latch is 0. -/
def rises (io : Io) (l : Line) (v : Bool) : Bool :=
  v && !io.latch.get l

/-- `PinWrite(l, v)`: the latch takes `v` whatever the direction (R30). The external register shifts on a rise of
`CFG_CLK` and shows its shift stage on a rise of `CFG_STR` (R33; PRESUMED, log entry 6). -/
def Io.pinWrite (l : Line) (v : Bool) (io : Io) : Io :=
  { io.emit (.pinWrite l v) with
    latch := io.latch.set l v
    srShift :=
      if l = .cfgClk ∧ rises io l v then io.srShift.extractLsb' 0 7 ++ BitVec.ofBool (io.latch.get .cfgData)
      else io.srShift
    srOut := if l = .cfgStr ∧ rises io l v then io.srShift else io.srOut }

/-- The latches after a port write: every mapped line whose bit is 1 in `mask` takes `v` (R31). -/
def portLatch (m : PinMap) (mask : PortWord) (v : Bool) (x : Lines Bool) : Lines Bool :=
  Lines.tabulate fun l =>
    match portBit m l with
    | some i => if mask.getLsbD i.val then v else x.get l
    | none => x.get l

/-- `PortSet(m)` (R31). -/
def Io.portSet (m : PinMap) (mask : PortWord) (io : Io) : Io :=
  { io.emit (.portSet mask) with latch := portLatch m mask true io.latch }

/-- `PortClear(m)` (R31). -/
def Io.portClear (m : PinMap) (mask : PortWord) (io : Io) : Io :=
  { io.emit (.portClear mask) with latch := portLatch m mask false io.latch }

/-- One pin event for each line of a list, in order. -/
def Io.forLines (f : Line → Io → Io) : List Line → Io → Io
  | [], io => io
  | l :: rest, io => Io.forLines f rest (f l io)

/-- One bit of a push: clock low, data set, clock high (R100). -/
def Io.pushBit (v : Bool) (io : Io) : Io :=
  ((io.pinWrite .cfgClk false).pinWrite .cfgData v).pinWrite .cfgClk true

/-- The bits `n - 1` down to 0 of `c`, one after another. -/
def Io.pushBits (c : Byte) : Nat → Io → Io
  | 0, io => io
  | n + 1, io => Io.pushBits c n (io.pushBit (c.getLsbD n))

/-- The 26 events of CFG_PUSH for the word `c`: strobe low, eight bits from bit 7 down, strobe high (R73, R100). -/
def Io.push (c : Byte) (io : Io) : Io :=
  (Io.pushBits c 8 (io.pinWrite .cfgStr false)).pinWrite .cfgStr true

/-! ### The config mirror (10_state.md R17, 40_config_shift_register.md R101) -/

/-- The bit of a field (R17). -/
def CfgField.bit : CfgField → Nat
  | .le => 0
  | .pd => 1
  | .pos => 2
  | .neg => 3
  | .sof => 4
  | .dir => 5
  | .mode => 6
  | .oe => 7

/-- `CFG.F`. -/
def cfgGet (f : CfgField) (c : Byte) : Bool :=
  c.getLsbD f.bit

/-- `CFG.F <- v`. -/
def cfgSet (f : CfgField) (v : Bool) (c : Byte) : Byte :=
  if v then c ||| (1#8 <<< f.bit) else c &&& ~~~(1#8 <<< f.bit)

/-- CFG_PUSH on the state: the external register takes `CFG` (R100). -/
def State.push (s : State) : State :=
  { s with io := s.io.push s.cfg }

/-- `CFG.F <- v ; CFG_PUSH()`, the mutate-then-push pair of R101. -/
def State.apply (f : CfgField) (v : Bool) (s : State) : State :=
  { s with cfg := cfgSet f v s.cfg }.push

/-! ### Other pin operations and delays on the state -/

/-- `PinWrite(l, v)`. -/
def State.pinWrite (l : Line) (v : Bool) (s : State) : State :=
  { s with io := s.io.pinWrite l v }

/-- `PinDir(l, d)` for each line of a list, in order. -/
def State.pinDirs (d : Dir) (ls : List Line) (s : State) : State :=
  { s with io := s.io.forLines (Io.pinDir d) ls }

/-- `PortSet(m)`. -/
def State.portSet (mask : PortWord) (s : State) : State :=
  { s with io := s.io.portSet s.params.pinmap mask }

/-- `PortClear(m)`. -/
def State.portClear (mask : PortWord) (s : State) : State :=
  { s with io := s.io.portClear s.params.pinmap mask }

/-- A delay: one event, and the down-counter `DLY` has run down to 0 (R12, R215; log entry 17). -/
def State.delay (e : Event) (s : State) : State :=
  { s with io := s.io.emit e, work := { s.work with dly := 0 } }

/-- `DelayUnits(n)` (R114). -/
def State.delayUnits (n : Nat) (s : State) : State :=
  s.delay (.delayUnits n)

/-- `DelayUs(n)` (R215). -/
def State.delayUs (n : Nat) (s : State) : State :=
  s.delay (.delayUs n)

/-- The counter cycles of a wait of `n` cycle-units (R215); no rule depends on it (R256). -/
def unitCycles (p : Config) (n : Nat) : Nat :=
  n * p.cyclesPerUnit

/-! ### Taking an exception (60_exceptions.md R200 to R203, R207) -/

/-- The code of a condition (R200); no register records it. -/
def Exception.code : Exception → Nat
  | .allocationFailure => 1
  | .outOfRangeWrite => 2
  | .powerSequenceReentry => 3

/-- `raise e`: AllocationFailure sets `FAILED` and nothing else (R201); the other two are defined no-ops (R202, R203).
There is no handler, vector or saved state (R207), and no return: the failed state is left only by the reset event (R208). -/
def raise (e : Exception) (s : State) : State :=
  match e with
  | .allocationFailure => { s with flags := { s.flags with failed := true } }
  | .outOfRangeWrite => s
  | .powerSequenceReentry => s

/-! ### Position and working registers (10_state.md R12, R20, R21) -/

def State.setPhase (p : Phase) (s : State) : State :=
  { s with pos := { s.pos with phase := p } }

/-- Run an operation under its `PHASE` code and go back to the code that stood before (R191; log entry 16). -/
def inPhase (p : Phase) (f : State → State) (s : State) : State :=
  (f (s.setPhase p)).setPhase s.pos.phase

/-- `inPhase` for an operation that may stop. -/
def inPhaseR (p : Phase) (f : State → Result State) (s : State) : Result State :=
  andThen (f (s.setPhase p)) fun t => .next (t.setPhase s.pos.phase)

/-- Arbitrary working registers, from eight free values (U6; DESIGN CHOICE, log entry 17). -/
def Work.free (n : Nat) : Work :=
  { kw := Config.freeWord n
    k := (Config.freeWord (n + 1)).setWidth 3
    pos := Config.freeWord (n + 2)
    n := Config.freeWord (n + 3)
    tw := (Config.freeWord (n + 4)).setWidth 8
    tb := (Config.freeWord (n + 5)).setWidth 8
    drv := (Config.freeWord (n + 6)).setWidth 8
    dly := Config.freeWord (n + 7) }

/-- The end of a sequence: the position is idle again (R20, R191) and the working registers hold no meaning (R12, U6). -/
def State.endSequence (s : State) : State :=
  { s with pos := .idle, work := .free s.draws, draws := s.draws + 8 }

/-! ### The input port and reset (30_encoding.md R60, 70_reset_and_hazards.md R230) -/

/-- What stands at the head of the port (R60); the state has it taken off. -/
def fetch (s : State) : Fetch :=
  match s.port with
  | [] => .idle
  | .reset :: rest => .reset { s with port := rest }
  | .code c :: rest =>
    match decode c with
    | .ok i => .run i { s with port := rest }
    | .error e => .undecoded e

/-- Put the instruction of an opcode-table row at the head of the port. -/
def placeTableWord (s : State) (nbits w : Nat) : State :=
  match tableCode nbits w with
  | some c => { s with port := .code c :: s.port }
  | none => s

/-- The reset event (R230): every piece of state takes the value of R34. The parameters, the host's pending inputs and the
draw counter are not the block's and stay; what R34 leaves unspecified, the external register and the working registers,
is free (log entry 7). -/
def resetEvent (s : State) : State :=
  { State.resetWith s.params with
    port := s.port
    io := { Io.reset with srShift := Config.freeByte s.draws, srOut := Config.freeByte (s.draws + 1) }
    work := .free (s.draws + 2)
    draws := s.draws + 10 }

/-- A reset as the step takes it. With `POWER` = ON the rails are up, and a reset would leave the block believing `POWER` =
OFF: R232 says a model must not offer it, and it is refused (U15; log entry 7). -/
def takeReset (s : State) : Result State :=
  if s.flags.power then .refused .resetWithPowerOn else .next (resetEvent s)

end Sys2Proof.Machine
end

