-- ==== Sys2Proof/Machine/Operands.lean ====
section
/-! DEFINITION. Operand forms and derived quantities: sizes (R13, R161), coordinates (R64), pixel packing (R42 to R46),
grey levels (R166), scan order (R56, R57), table entries (R142, R143), bus words (R77), Word and DiffByte (R145, R146). -/

namespace Sys2Proof.Machine

/-! ### Sizes (10_state.md R13, 44_framebuffer.md R161) -/

/-- `PF`: pixels per byte. -/
def packingFactor (g : Bool) : Nat :=
  if g then 2 else 8

/-- `LEN = ceil(w * h / PF)`. -/
def bufferLength (w h : BitVec 16) (g : Bool) : Nat :=
  (w.toNat * h.toNat + packingFactor g - 1) / packingFactor g

/-- `Need(w, h, g)`: one buffer in greyscale, three with four times the length in monochrome. -/
def need (w h : BitVec 16) (g : Bool) : Nat :=
  if g then bufferLength w h g else 4 * bufferLength w h g

/-- `LEN` of the current geometry. -/
def State.len (s : State) : Nat :=
  bufferLength s.conf.w s.conf.h s.conf.grey

/-- `WPR = W div 4`. -/
def State.wpr (s : State) : Nat :=
  s.conf.w.toNat / 4

/-- `H` as a count. -/
def State.rows (s : State) : Nat :=
  s.conf.h.toNat

/-! ### Pixels (20_memory.md R42 to R46, 44_framebuffer.md R164 to R166) -/

/-- The coordinates of a pixel write lie on the panel; `x`, `y` are signed, `W`, `H` unsigned (R164, R171). -/
def onPanel (s : State) (x y : BitVec 16) : Bool :=
  decide (0 ≤ x.toInt) && decide (x.toInt < s.conf.w.toNat) && decide (0 ≤ y.toInt) && decide (y.toInt < s.conf.h.toNat)

/-- The linear index `y * W + x` of a pixel on the panel. -/
def pixelIndex (s : State) (x y : BitVec 16) : Nat :=
  y.toInt.toNat * s.conf.w.toNat + x.toInt.toNat

/-- The bit of pixel `i` within its byte: `0x80 >> (i mod 8)`. -/
def pixelMask (i : Nat) : Byte :=
  0x80#8 >>> (i % 8)

/-- A monochrome pixel in its byte: on is 0, off is 1 (R42, R165). -/
def putPixel (i : Nat) (on : Bool) (v : Byte) : Byte :=
  if on then v &&& ~~~(pixelMask i) else v ||| pixelMask i

/-- `Y`, the luminance of R166. -/
def luminance (c : Colour) : Nat :=
  (2126 * c.r.toNat + 7152 * c.gr.toNat + 722 * c.b.toNat) / 10000

/-- `GreyOf(r, gr, b)`, 0 to 7 (R166). -/
def greyOf (c : Colour) : Nat :=
  luminance c / 32

/-- The grey level as the byte `v` of R164. -/
def greyByte (c : Colour) : Byte :=
  BitVec.ofNat 8 (greyOf c)

/-- A greyscale pixel in its byte: even index in the high nibble (R43, R164). -/
def putGrey (i : Nat) (v old : Byte) : Byte :=
  if i % 2 = 0 then (v <<< 4) ||| (old &&& 0x0F#8) else (old &&& 0xF0#8) ||| v

/-- The byte FILL writes (R167). -/
def fillByte (s : State) (c : Colour) : Byte :=
  if s.conf.grey then (greyByte c <<< 4) ||| greyByte c else if c.on then 0x00#8 else 0xFF#8

/-- The buffer the host's writes go to: `BUF1` in monochrome, `BUF0` in greyscale (R44, R164). -/
def drawBuffer (s : State) : BufId :=
  if s.conf.grey then .buf0 else .buf1

/-- The monochrome half of R44 on buffer `b`: whether the pixel is on. -/
def monoPixel (b : BufId) (s : State) (x y : Nat) : Option Bool :=
  (s.byteAt b ((y * s.conf.w.toNat + x) / 8)).map fun v =>
    !v.getLsbD (7 - (y * s.conf.w.toNat + x) % 8)

/-- The greyscale half of R44 on buffer `b`: the level of the pixel. -/
def greyPixel (b : BufId) (s : State) (x y : Nat) : Option Nat :=
  (s.byteAt b ((y * s.conf.w.toNat + x) / 2)).map fun v =>
    if (y * s.conf.w.toNat + x) % 2 = 0 then (v.toNat / 16) % 8 else v.toNat % 8

/-- `PixelAt(B, x, y)`, for `x`, `y` on the panel, in the current pixel mode (R44); none off the panel, which R44 leaves out,
and none where the buffer has no such byte. -/
def pixelAt (b : BufId) (s : State) (x y : Nat) : Option Pixel :=
  if x < s.conf.w.toNat ∧ y < s.conf.h.toNat then
    if s.conf.grey then (greyPixel b s x y).map .level
    else (monoPixel b s x y).map fun on => if on then .on else .off
  else none

/-! ### Nibbles and scan order (20_memory.md R56, R57) -/

/-- `v[7:4]`. -/
def hiNibble (v : Byte) : Nibble :=
  v.extractLsb' 4 4

/-- `v[3:0]`. -/
def loNibble (v : Byte) : Nibble :=
  v.extractLsb' 0 4

/-- Byte `n - 1 - k` of a buffer of `n` bytes: the scan reads backwards. -/
def readBack (b : BufId) (n k : Nat) (s : State) : Result Byte :=
  if k < n then readByte b (n - 1 - k) s else .fault (.scanPastEnd b k)

/-- `Nibble(B, k)`: the high nibble of a byte comes before the low one. -/
def scanNibble (b : BufId) (k : Nat) (s : State) : Result Nibble :=
  andThen (readBack b s.len (k / 2) s) fun v =>
    .next (if k % 2 = 0 then hiNibble v else loNibble v)

/-- The level of a stored nibble: bit 3 is ignored (R43). -/
def levelOf (v : Nibble) : BitVec 3 :=
  v.extractLsb' 0 3

/-! ### Table entries (43_waveform_encoder.md R142 to R146) -/

/-- An entry of `LUTB`, `LUT2` or `LUTW`. -/
def entry (t : Vector Byte 16) (i : Nibble) : Byte :=
  t.get i.toFin

/-- `WAVEFORM3[g][k]`. -/
def waveform (p : Config) (g k : BitVec 3) : DriveCode :=
  (p.waveform3.get g.toFin).get k.toFin

/-- The constant of a pass kind (R144). -/
def constByte (p : Config) : PassKind → Byte
  | .white => p.dataWhite
  | .black => p.dataBlack
  | .discharge => p.dataDischarge
  | .skip => p.dataSkip

/-- `DiffByte(tw, tb)` (R146). -/
def diffByte (p : Config) (tw tb : Nibble) : Byte :=
  entry p.lutw tw &&& entry p.lutb tb

/-- The drive byte of four grey pixels in subframe `k`, the first pixel in bits [7:6] (R140, R145). -/
def greyDrive (p : Config) (k : BitVec 3) (a b : Byte) : Byte :=
  waveform p (levelOf (hiNibble a)) k ++ waveform p (levelOf (loNibble a)) k ++
    waveform p (levelOf (hiNibble b)) k ++ waveform p (levelOf (loNibble b)) k

/-- `Word(desc, k)`: the drive byte of the `k`-th bus word of a pass (R145). A descriptor of the other pixel mode has no
word (its precondition; log entry 14). The index is not held to R145's `k < H * WPR`: beyond it a constant still answers,
and, when `W * H mod 8 = 4`, the index `H * WPR` reads the padding nibble, or `BUF2[0]` (DESIGN CHOICE, log entry 14). -/
def word (d : PassDesc) (k : Nat) (s : State) : Result Byte :=
  match d with
  | .const kind => .next (constByte s.params kind)
  | .monoLutb =>
    if s.conf.grey then .refused .wrongPixelMode
    else andThen (scanNibble .buf1 k s) fun i => .next (entry s.params.lutb i)
  | .monoLut2 =>
    if s.conf.grey then .refused .wrongPixelMode
    else andThen (scanNibble .buf1 k s) fun i => .next (entry s.params.lut2 i)
  | .diff =>
    if s.conf.grey then .refused .wrongPixelMode
    else readBack .buf2 (2 * s.len) k s
  | .grey sub =>
    if s.conf.grey then
      andThen (readBack .buf0 s.len (2 * k) s) fun a =>
        andThen (readBack .buf0 s.len (2 * k + 1) s) fun b => .next (greyDrive s.params sub a b)
    else .refused .wrongPixelMode

/-! ### Bus words (30_encoding.md R77) -/

/-- The port word with bit `i` equal to `v` and every other bit 0. -/
def portOne (i : Fin 32) (v : Bool) : PortWord :=
  if v then 1#32 <<< i.val else 0#32

/-- `pack(d)`. -/
def pack (m : PinMap) (d : Byte) : PortWord :=
  portOne m.d0 (d.getLsbD 0) ||| portOne m.d1 (d.getLsbD 1) ||| portOne m.d2 (d.getLsbD 2) |||
    portOne m.d3 (d.getLsbD 3) ||| portOne m.d4 (d.getLsbD 4) ||| portOne m.d5 (d.getLsbD 5) |||
    portOne m.d6 (d.getLsbD 6) ||| portOne m.d7 (d.getLsbD 7)

/-- `DATA_MASK`. -/
def dataMask (m : PinMap) : PortWord :=
  pack m 0xFF#8

/-- `CLK_MASK`. -/
def clkMask (m : PinMap) : PortWord :=
  portOne m.clk true

end Sys2Proof.Machine
end

