-- ==== Sys2Proof/Machine/Flags.lean ====
section
/-! DEFINITION. The flags: the common precondition of the commands (R160), the forced-full check (R189), the dispatch
condition of REFRESH (R180), the `STATUS` port (R19). -/

namespace Sys2Proof.Machine

/-- The common precondition (R160, R206): a failed block ignores every command; a command other than INIT is refused
before a successful INIT. -/
def command (needsInit : Bool) (body : State → Result State) (s : State) : Result State :=
  if s.flags.failed then .next s
  else if needsInit && !s.flags.initialised then .refused .notInitialised
  else body s

def State.setBlockPartial (v : Bool) (s : State) : State :=
  { s with flags := { s.flags with blockPartial := v } }

def State.setPower (v : Bool) (s : State) : State :=
  { s with flags := { s.flags with power := v } }

/-- `FUE > 0 and PUC >= FUE`: unsigned, 32-bit `PUC` against zero-extended `FUE` (R189). -/
def fullIsDue (s : State) : Bool :=
  decide (0 < s.conf.fue.toNat) && decide (s.conf.fue.toNat ≤ s.puc.toNat)

/-- The forced-full check at the end of every REFRESH (R189). -/
def forcedFullCheck (s : State) : State :=
  if fullIsDue s then s.setBlockPartial true else s

/-- The condition for a partial refresh in monochrome (R180). -/
def partialAllowed (s : State) : Bool :=
  s.conf.partialEn && !s.flags.blockPartial

/-- The read-only `STATUS` port: INITIALISED, FAILED, POWER, BLOCK_PARTIAL in bits 0 to 3, `PUC` in [35:4] (R19). -/
def State.status (s : State) : BitVec 36 :=
  s.puc ++ BitVec.ofBool s.flags.blockPartial ++ BitVec.ofBool s.flags.power ++ BitVec.ofBool s.flags.failed ++
    BitVec.ofBool s.flags.initialised

end Sys2Proof.Machine
end

