-- ==== Sys2Proof/Machine/ConfigShift.lean ====
section
/-! DEFINITION. Config Shift Register Driver: CFG_PUSH (40_config_shift_register.md R100). -/

namespace Sys2Proof.Machine

/-- CFG_PUSH: 26 events, the external register takes `CFG`, `CFG` is not changed (R100). -/
def execCfgPush (s : State) : Result State :=
  .next (inPhase .cfgPush State.push s)

end Sys2Proof.Machine
end

