-- ==== Sys2Proof/Machine/Framebuffer.lean ====
section
/-! DEFINITION. Framebuffer: INIT, SET_PIXEL, FILL, DIFF and COMMIT (44_framebuffer.md R160 to R173). -/

namespace Sys2Proof.Machine

/-! ### INIT -/

/-- `INITIALISED = 1 and W = w and H = h and GREY = g` (R162). -/
def sameGeometry (w h : BitVec 16) (g : Bool) (s : State) : Bool :=
  s.flags.initialised && decide (s.conf.w = w) && decide (s.conf.h = h) && decide (s.conf.grey = g)

/-- Release the buffers that exist; `INITIALISED <- 0` (R162). -/
def releaseBuffers (s : State) : State :=
  { s with
    bufs := { buf0 := [], buf1 := [], buf2 := [] }
    flags := { s.flags with initialised := false } }

/-- Allocate `BUF0`, and in monochrome `BUF1` and `BUF2`; every byte is a free value (R161, R163; log entry 5). -/
def allocateBuffers (w h : BitVec 16) (g : Bool) (s : State) : State :=
  { s with
    bufs :=
      { buf0 := .alloc (bufferLength w h g) fun p => Config.freeByte (s.draws + p)
        buf1 :=
          if g then [] else .alloc (bufferLength w h g) fun p => Config.freeByte (s.draws + bufferLength w h g + p)
        buf2 :=
          if g then []
          else .alloc (2 * bufferLength w h g) fun p => Config.freeByte (s.draws + 2 * bufferLength w h g + p) }
    draws := s.draws + need w h g }

/-- The pin setup of INIT: 15 `PinConfigure`, 4 and 11 `PinDir`, 1 `PinWrite` (R162). -/
def setupPins (io : Io) : Io :=
  ((((io.forLines Io.pinConfigure allLines).forLines (Io.pinDir .output) alwaysOutputs).forLines (Io.pinDir .input)
    panelFacing).pinWrite .panelEn true)

/-- The part of INIT that a successful allocation and an unchanged geometry share (R162). -/
def configure (w h : BitVec 16) (g p : Bool) (fue : BitVec 16) (s : State) : State :=
  { s with
    conf := { w := w, h := h, grey := g, partialEn := p, fue := fue }
    puc := 0
    flags := { s.flags with blockPartial := true, initialised := true }
    io := (setupPins s.io).push s.cfg }

/-- INIT after the common precondition: geometry, then allocation (R162, R206). -/
def initBody (w h : BitVec 16) (g p : Bool) (fue : BitVec 16) (s : State) : Result State :=
  if geometryAdmitted w h then
    if sameGeometry w h g s then .next (configure w h g p fue s)
    else if s.params.fbCapacity < need w h g then .next (raise .allocationFailure (releaseBuffers s))
    else .next (configure w h g p fue (allocateBuffers w h g (releaseBuffers s)))
  else .refused .geometryNotAdmitted

/-- INIT (R162). -/
def execInit (w h : BitVec 16) (g p : Bool) (fue : BitVec 16) (s : State) : Result State :=
  command false (initBody w h g p fue) s

/-! ### SET_PIXEL and FILL -/

/-- The byte offset SET_PIXEL writes, for a pixel on the panel (R164). -/
def pixelByte (s : State) (x y : BitVec 16) : Nat :=
  pixelIndex s x y / packingFactor s.conf.grey

/-- The new value of that byte (R164). -/
def putColour (s : State) (x y : BitVec 16) (c : Colour) (old : Byte) : Byte :=
  if s.conf.grey then putGrey (pixelIndex s x y) (greyByte c) old else putPixel (pixelIndex s x y) c.on old

/-- SET_PIXEL after the common precondition (R164). -/
def setPixelBody (x y : BitVec 16) (c : Colour) (s : State) : Result State :=
  if onPanel s x y then modifyByte (drawBuffer s) (pixelByte s x y) (putColour s x y c) s
  else .next (raise .outOfRangeWrite s)

/-- SET_PIXEL (R164). -/
def execSetPixel (x y : BitVec 16) (c : Colour) (s : State) : Result State :=
  command true (setPixelBody x y c) s

/-- FILL after the common precondition: every byte, offsets ascending (R48, R167). -/
def fillBody (c : Colour) (s : State) : Result State :=
  forUp (fun q t => writeByte (drawBuffer s) q (fillByte s c) t) s.len 0 s

/-- FILL (R167). -/
def execFill (c : Colour) (s : State) : Result State :=
  command true (fillBody c) s

/-! ### DIFF and COMMIT -/

/-- One position of DIFF: `X`, `TW`, `TB` of byte `p`, and the two drive bytes at `2 * p + 1` and `2 * p`, where the
down-counting `N` lands (R168; log entry 18). -/
def diffAt (p : Nat) (s : State) : Result State :=
  andThen (readByte .buf0 p s) fun a =>
    andThen (readByte .buf1 p s) fun b =>
      let tw := (a ^^^ b) &&& ~~~b
      let tb := (a ^^^ b) &&& b
      andThen (writeByte .buf2 (2 * p + 1) (diffByte s.params (hiNibble tw) (hiNibble tb)) s) fun t =>
        andThen (writeByte .buf2 (2 * p) (diffByte s.params (loNibble tw) (loNibble tb)) t) fun u =>
          .next { u with
            work := { u.work with
              pos := BitVec.ofNat 32 p
              n := BitVec.ofNat 32 (2 * p) - 1
              tw := tw
              tb := tb } }

/-- The loop of DIFF: `N` starts at `2 * LEN - 1`, `POS` runs from `LEN - 1` down to 0 (R168). -/
def diffLoop (s : State) : Result State :=
  forUp (fun j t => diffAt (s.len - 1 - j) t) s.len 0
    { s with work := { s.work with n := BitVec.ofNat 32 (2 * s.len) - 1 } }

/-- DIFF, monochrome only (R168). -/
def runDiff (s : State) : Result State :=
  if s.conf.grey then .refused .wrongPixelMode else inPhaseR .diff diffLoop s

/-- `BUF0[q] <- BUF1[q]` (R169). -/
def commitAt (q : Nat) (s : State) : Result State :=
  andThen (readByte .buf1 q s) fun v => writeByte .buf0 q v s

/-- The loop of COMMIT over all `LEN` bytes (R169). -/
def commitLoop (s : State) : Result State :=
  forUp commitAt s.len 0 s

/-- COMMIT, monochrome only (R169). -/
def runCommit (s : State) : Result State :=
  if s.conf.grey then .refused .wrongPixelMode else inPhaseR .commit commitLoop s

/-- DIFF as an operation of its own. -/
def execDiff (s : State) : Result State :=
  runDiff s

/-- COMMIT as an operation of its own. -/
def execCommit (s : State) : Result State :=
  runCommit s

end Sys2Proof.Machine
end

