-- ==== Sys2Proof/Machine/Power.lean ====
section
/-! DEFINITION. Power Sequencer: POWER_ON and POWER_OFF (41_power_sequencer.md R110 to R116). -/

namespace Sys2Proof.Machine

/-- The first step of POWER_ON changes two fields and pushes once (R101, R111). -/
def clearDirAndPd (s : State) : State :=
  { s with cfg := cfgSet .pd false (cfgSet .dir false s.cfg) }.push

/-- The steps U0 to U4 of R110, `POWER` written last (R111). -/
def powerOnSteps (s : State) : State :=
  clearDirAndPd (s.pinDirs .output panelFacing)
    |>.delayUnits 100
    |>.apply .neg true
    |>.delayUnits 500
    |>.apply .pos true
    |>.delayUnits 100
    |>.apply .sof true
    |>.setPower true

/-- POWER_ON; a no-op when already on (R111, R113). -/
def powerOn (s : State) : State :=
  if s.flags.power then raise .powerSequenceReentry s else inPhase .powerOn powerOnSteps s

/-- The steps D1 to D6 of R110 (R112). -/
def powerOffSteps (s : State) : State :=
  s.apply .pos false
    |>.delayUnits 10
    |>.apply .neg false
    |>.delayUnits 100
    |>.apply .pd true
    |>.apply .sof false
    |>.portClear (dataMask s.params.pinmap ||| clkMask s.params.pinmap)
    |>.pinDirs .input panelFacing
    |>.setPower false

/-- POWER_OFF; a no-op when already off (R112, R113). -/
def powerOff (s : State) : State :=
  if s.flags.power then inPhase .powerOff powerOffSteps s else raise .powerSequenceReentry s

/-- POWER_ON as an operation of its own (R111, R203). -/
def execPowerOn (s : State) : Result State :=
  .next (powerOn s)

/-- POWER_OFF as an operation of its own (R112, R203). -/
def execPowerOff (s : State) : Result State :=
  .next (powerOff s)

end Sys2Proof.Machine
end

