-- ==== Sys2Proof/Machine/Waveform.lean ====
section
/-! DEFINITION. Waveform Encoder: the eight pass descriptors (43_waveform_encoder.md R144, R145). A descriptor's meaning is
that `DRV` takes Word of it at the word index in `KW` (R12; log entry 11). -/

namespace Sys2Proof.Machine

/-- `DRV <- Word(desc, KW)` (R12, R145). -/
def loadWord (d : PassDesc) (s : State) : Result State :=
  andThen (word d s.work.kw.toNat s) fun v => .next { s with work := { s.work with drv := v } }

/-- PASS.CONST.WHITE: every bus word is `DATA_WHITE`. -/
def execPassConstWhite (s : State) : Result State :=
  loadWord (.const .white) s

/-- PASS.CONST.BLACK: every bus word is `DATA_BLACK`. -/
def execPassConstBlack (s : State) : Result State :=
  loadWord (.const .black) s

/-- PASS.CONST.DISCHARGE: every bus word is `DATA_DISCHARGE`. -/
def execPassConstDischarge (s : State) : Result State :=
  loadWord (.const .discharge) s

/-- PASS.CONST.SKIP: every bus word is `DATA_SKIP`. -/
def execPassConstSkip (s : State) : Result State :=
  loadWord (.const .skip) s

/-- PASS.MONO.LUTB: `LUTB` of a nibble of `BUF1`. -/
def execPassMonoLutb (s : State) : Result State :=
  loadWord .monoLutb s

/-- PASS.MONO.LUT2: `LUT2` of a nibble of `BUF1`. -/
def execPassMonoLut2 (s : State) : Result State :=
  loadWord .monoLut2 s

/-- PASS.DIFF: a byte of `BUF2`. -/
def execPassDiff (s : State) : Result State :=
  loadWord .diff s

/-- PASS.GREY k: four `WAVEFORM3` codes of subframe `k`, from `BUF0`. -/
def execPassGrey (k : BitVec 3) (s : State) : Result State :=
  loadWord (.grey k) s

end Sys2Proof.Machine
end

