-- ==== Sys2Proof/Machine/Scan.lean ====
section
/-! DEFINITION. Scan Engine: VSCAN_START, HSCAN_START, COL_WORD, VSCAN_END and PASS (42_scan_engine.md R120 to R129). The
drive byte of HSCAN_START and COL_WORD is in `DRV` (R12; log entry 12). -/

namespace Sys2Proof.Machine

/-- One micro-step of `VSCAN_START_SEQ` (R122). -/
def vscanStep (v : VStep) (s : State) : State :=
  match v with
  | .line b => s.pinWrite .sofLine b
  | .bit b => s.apply .sof b
  | .wait => s.delayUs s.params.tVsUs

/-- The micro-steps of a list, in order. -/
def vscanSteps : List VStep → State → State
  | [], s => s
  | v :: rest, s => vscanSteps rest (vscanStep v s)

/-- VSCAN_START (R122). -/
def vscanStart (s : State) : State :=
  inPhase .vscanStart (vscanSteps s.params.vscanStartSeq) s

/-- Data and clock rise together and fall together (R123, R124). -/
def pulseWord (d : Byte) (s : State) : State :=
  s.portSet (pack s.params.pinmap d ||| clkMask s.params.pinmap)
    |>.portClear (dataMask s.params.pinmap ||| clkMask s.params.pinmap)

/-- HSCAN_START's four events (R123). -/
def hscanSteps (s : State) : State :=
  (pulseWord s.work.drv (s.pinWrite .srcEn false)).pinWrite .srcEn true

/-- HSCAN_START(DRV) (R123). -/
def hscanStart (s : State) : State :=
  inPhase .hscanStart hscanSteps s

/-- COL_WORD(DRV) (R124). -/
def colWord (s : State) : State :=
  inPhase .rowClock (fun t => pulseWord t.work.drv t) s

/-- VSCAN_END's latch pulse and line write (R127). -/
def vscanEndSteps (s : State) : State :=
  ((s.apply .le true).apply .le false).pinWrite .sofLine true

/-- VSCAN_END (R127). -/
def vscanEnd (s : State) : State :=
  inPhase .vscanEnd vscanEndSteps s

/-- `ROW`, `COL` and `KW = ROW * WPR + COL` (R12, R126). -/
def atWord (row col : Nat) (s : State) : State :=
  { s with
    pos := { s.pos with row := BitVec.ofNat 16 row, col := BitVec.ofNat 16 col }
    work := { s.work with kw := BitVec.ofNat 32 (row * s.wpr + col) } }

/-- One COL_WORD of the row loop (R126). -/
def passCol (d : PassDesc) (row col : Nat) (s : State) : Result State :=
  andThen (loadWord d (atWord row col s)) fun t => .next (colWord t)

/-- One row: word 0 in HSCAN_START, words 1 to `WPR - 1` as COL_WORDs, then VSCAN_END (R125, R126; 90_conflicts.md C4). -/
def passRow (d : PassDesc) (row : Nat) (s : State) : Result State :=
  andThen (loadWord d (atWord row 0 s)) fun t =>
    andThen (forUp (passCol d row) (s.wpr - 1) 1 (hscanStart t)) fun u => .next (vscanEnd u)

/-- PASS(desc) (R126). -/
def runScan (d : PassDesc) (s : State) : Result State :=
  forUp (passRow d) s.rows 0 (vscanStart s)

/-- VSCAN_START as an operation of its own. -/
def execVscanStart (s : State) : Result State :=
  .next (vscanStart s)

/-- HSCAN_START as an operation of its own. -/
def execHscanStart (s : State) : Result State :=
  .next (hscanStart s)

/-- COL_WORD as an operation of its own. -/
def execColWord (s : State) : Result State :=
  .next (colWord s)

/-- VSCAN_END as an operation of its own. -/
def execVscanEnd (s : State) : Result State :=
  .next (vscanEnd s)

/-- PASS as an operation of its own. -/
def execPass (d : PassDesc) (s : State) : Result State :=
  runScan d s

end Sys2Proof.Machine
end

