-- ==== Sys2Proof/Machine/Refresh.lean ====
section
/-! DEFINITION. Refresh Orchestrator: IDLE, SETTLE, RUN_PASS, the three refresh sequences, CLEAN and REFRESH
(45_refresh_orchestrator.md R180 to R192). -/

namespace Sys2Proof.Machine

/-! ### Helpers -/

/-- SETTLE: one `DelayUs(230)` (R181). -/
def settle (s : State) : State :=
  inPhase .settle (State.delayUs Config.tSettleUs) s

def bumpPassIdx (s : State) : State :=
  { s with pos := { s.pos with passIdx := s.pos.passIdx + 1 } }

/-- RUN_PASS(desc): `PASS(desc) ; SETTLE() ; PASS_IDX <- PASS_IDX + 1` (R182). -/
def runPass (d : PassDesc) (s : State) : Result State :=
  andThen (runScan d s) fun t => .next (bumpPassIdx (settle t))

/-- RUN_PASS for each descriptor of a list, in order; equal neighbours are not merged (R128, R182). -/
def runPasses : List PassDesc → State → Result State
  | [], s => .next s
  | d :: rest, s => andThen (runPass d s) (runPasses rest)

/-- The entry of a sequence: `SEQ <- q ; PASS_IDX <- 0` (R191). -/
def beginSequence (q : Seq) (s : State) : State :=
  { s with pos := { s.pos with seq := q, passIdx := 0 } }

/-- A sequence: power on at its start, off at its end, the position idle afterwards (R183 to R188, R191). -/
def sequence (q : Seq) (body : State → Result State) (s : State) : Result State :=
  andThen (body (powerOn (beginSequence q s))) fun t => .next (powerOff t).endSequence

/-! ### The sequences -/

/-- The 13 passes of the full monochrome refresh (R183). -/
def fullMonoPasses (p : Config) : List PassDesc :=
  p.preludeMono.map .const ++ [.monoLutb, .monoLutb, .monoLutb, .monoLut2, .const .discharge]

/-- The 8 passes of the partial refresh (R184). -/
def partialPasses : List PassDesc :=
  [.diff, .diff, .diff, .diff, .diff, .const .discharge, .const .discharge, .const .skip]

/-- `PUC <- 0 ; BLOCK_PARTIAL <- 0` (R183). -/
def clearPartialCount (s : State) : State :=
  { s with puc := 0 }.setBlockPartial false

/-- `PUC <- (PUC + 1) mod 2^32` (R16, R184). -/
def bumpPuc (s : State) : State :=
  { s with puc := s.puc + 1 }

/-- REFRESH_FULL_MONO; its precondition is `GREY = 0` (R183). -/
def refreshFullMono (s : State) : Result State :=
  if s.conf.grey then .refused .wrongPixelMode
  else
    sequence .fullMono
      (fun t => andThen (runPasses (fullMonoPasses t.params) t) fun u => runCommit (clearPartialCount u)) s

/-- REFRESH_PARTIAL; its precondition is `GREY = 0`, `PARTIAL_EN = 1`, `BLOCK_PARTIAL = 0` (R184). -/
def refreshPartial (s : State) : Result State :=
  if s.conf.grey then .refused .wrongPixelMode
  else if partialAllowed s then
    sequence .partialMono
      (fun t =>
        andThen (runDiff t) fun u =>
          andThen (runPasses partialPasses u) fun v =>
            andThen (runCommit v) fun x => .next (bumpPuc x)) s
  else .refused .partialNotAllowed

/-- One greyscale subframe: `K` and the pass PASS.GREY K (R149, R185). -/
def greySubframe (k : Nat) (s : State) : Result State :=
  runPass (.grey (BitVec.ofNat 3 k)) { s with work := { s.work with k := BitVec.ofNat 3 k } }

/-- REFRESH_GREY; its precondition is `GREY = 1` (R185). -/
def refreshGrey (s : State) : Result State :=
  if s.conf.grey then
    sequence .fullGrey
      (fun t =>
        andThen (runPasses (t.params.preludeGrey.map .const) t) fun u =>
          andThen (forUp greySubframe 8 0 u) (runPasses [.const .discharge, .const .skip])) s
  else .refused .wrongPixelMode

/-- CLEAN after the common precondition (R188). -/
def cleanBody (s : State) : Result State :=
  sequence .clean (fun t => runPasses (t.params.cleanSeq.map .const) t) s

/-- The three-way dispatch of REFRESH (R180). -/
def refreshVariant (s : State) : Result State :=
  if s.conf.grey then refreshGrey s
  else if partialAllowed s then refreshPartial s
  else refreshFullMono s

/-- REFRESH after the common precondition: the variant, then the forced-full check (R180, R189). -/
def refreshBody (s : State) : Result State :=
  andThen (refreshVariant s) fun t => .next (forcedFullCheck t)

/-! ### Meanings -/

/-- IDLE: no operation is in progress (R20, R21, R76). -/
def execIdle (s : State) : Result State :=
  .next (s.setPhase .idle)

/-- SETTLE as an operation of its own. -/
def execSettle (s : State) : Result State :=
  .next (settle s)

/-- RUN_PASS as an operation of its own. -/
def execRunPass (d : PassDesc) (s : State) : Result State :=
  runPass d s

/-- REFRESH_FULL_MONO as an operation of its own. -/
def execRefreshFullMono (s : State) : Result State :=
  refreshFullMono s

/-- REFRESH_PARTIAL as an operation of its own. -/
def execRefreshPartial (s : State) : Result State :=
  refreshPartial s

/-- REFRESH_GREY as an operation of its own. -/
def execRefreshGrey (s : State) : Result State :=
  refreshGrey s

/-- CLEAN (R188). -/
def execClean (s : State) : Result State :=
  command true cleanBody s

/-- REFRESH (R180). -/
def execRefresh (s : State) : Result State :=
  command true refreshBody s

end Sys2Proof.Machine
end

