-- ==== Sys2Proof/Machine/Dispatch.lean ====
section
/-! DEFINITION. One arm per constructor of Instr, each a direct call of its meaning. -/

namespace Sys2Proof.Machine

def exec (i : Instr) (s : State) : Host.Outcome State Fault Refusal :=
  match i with
  | .init w h g p fue => Sys2Proof.Machine.execInit w h g p fue s
  | .setPixel x y c => Sys2Proof.Machine.execSetPixel x y c s
  | .fill c => Sys2Proof.Machine.execFill c s
  | .clean => Sys2Proof.Machine.execClean s
  | .refresh => Sys2Proof.Machine.execRefresh s
  | .passConstWhite => Sys2Proof.Machine.execPassConstWhite s
  | .passConstBlack => Sys2Proof.Machine.execPassConstBlack s
  | .passConstDischarge => Sys2Proof.Machine.execPassConstDischarge s
  | .passConstSkip => Sys2Proof.Machine.execPassConstSkip s
  | .passMonoLutb => Sys2Proof.Machine.execPassMonoLutb s
  | .passMonoLut2 => Sys2Proof.Machine.execPassMonoLut2 s
  | .passDiff => Sys2Proof.Machine.execPassDiff s
  | .passGrey k => Sys2Proof.Machine.execPassGrey k s
  | .idle => Sys2Proof.Machine.execIdle s
  | .vscanStart => Sys2Proof.Machine.execVscanStart s
  | .hscanStart => Sys2Proof.Machine.execHscanStart s
  | .colWord => Sys2Proof.Machine.execColWord s
  | .vscanEnd => Sys2Proof.Machine.execVscanEnd s
  | .settle => Sys2Proof.Machine.execSettle s
  | .cfgPush => Sys2Proof.Machine.execCfgPush s
  | .powerOn => Sys2Proof.Machine.execPowerOn s
  | .powerOff => Sys2Proof.Machine.execPowerOff s
  | .diff => Sys2Proof.Machine.execDiff s
  | .commit => Sys2Proof.Machine.execCommit s
  | .pass d => Sys2Proof.Machine.execPass d s
  | .runPass d => Sys2Proof.Machine.execRunPass d s
  | .refreshFullMono => Sys2Proof.Machine.execRefreshFullMono s
  | .refreshPartial => Sys2Proof.Machine.execRefreshPartial s
  | .refreshGrey => Sys2Proof.Machine.execRefreshGrey s

end Sys2Proof.Machine
end

