-- ==== Sys2Proof/Machine/Step.lean ====
section
/-! DEFINITION. One step of the machine: take the input at the head of the port (R60), run it to completion (R8), and
refuse what spells no instruction (R68) or an invalid configuration (R75). With no input the block idles (R230). A reset
with `POWER` = ON, after an operation stepped alone, is refused (R232). -/

namespace Sys2Proof.Machine

def step (s : State) : Host.Outcome State Fault Refusal :=
  if s.params.valid then
    match fetch s with
    | .idle => exec .idle s
    | .reset t => takeReset t
    | .run i t => exec i t
    | .undecoded e => .refused (.undecoded e)
  else .refused .invalidConfiguration

/-- `s` with the instruction of an opcode-table row as the next input of its port (log entry 8). -/
def State.withFetchWord (s : State) (nbits w : Nat) : State :=
  placeTableWord s nbits w

end Sys2Proof.Machine
end

