-- ==== Sys2Proof/Safety.lean ====
section
/-! DEFINITION. The terms the claims use: what a host-driven run is, the invariants of 10_state.md and 42_scan_engine.md,
when a pass descriptor fits the pixel mode, and the event lists of the operations, written from their rules as plain
functions that do not call the machine. -/

namespace Sys2Proof.Machine

/-! ### Runs and invariants -/

/-- The host presents command words and resets, never an internal operation (R209). -/
def Input.fromHost : Input → Bool
  | .code (.command _) => true
  | .code (.descriptor _) => false
  | .code (.phase _) => false
  | .reset => true

/-- Every pending input is the host's. -/
def State.hostDriven (s : State) : Bool :=
  s.port.all Input.fromHost

/-- The offsets a buffer has. -/
def Memory.offsets (m : Memory) : List Nat :=
  m.map Prod.fst

/-- Which buffers exist and how long they are (R23): none before INIT or after a failure; `BUF0` of `LEN` bytes, and in
monochrome `BUF1` of `LEN` and `BUF2` of `2 * LEN`. -/
def BuffersSized (s : State) : Prop :=
  if s.flags.initialised then
    geometryAdmitted s.conf.w s.conf.h = true ∧
    s.bufs.buf0.offsets = List.range s.len ∧
    (if s.conf.grey then s.bufs.buf1 = [] ∧ s.bufs.buf2 = []
     else s.bufs.buf1.offsets = List.range s.len ∧ s.bufs.buf2.offsets = List.range (2 * s.len))
  else s.bufs = { buf0 := [], buf1 := [], buf2 := [] }

/-- The command boundary of R25: power off, position idle, panel-facing lines high-impedance, and `CFG` with `PD` = 1 and
`LE`, `POS`, `NEG`, `SOF` = 0. -/
def AtBoundary (s : State) : Prop :=
  s.flags.power = false ∧ s.pos = Position.idle ∧ (∀ l ∈ panelFacing, s.io.dir.get l = .input) ∧
  cfgGet .pd s.cfg = true ∧ cfgGet .le s.cfg = false ∧ cfgGet .pos s.cfg = false ∧ cfgGet .neg s.cfg = false ∧
  cfgGet .sof s.cfg = false

/-- A command boundary of a host-driven run, with a `CFG_RESET` whose `LE` is 0 as in R231; with `CFG_RESET = 0x02` the
whole byte is 0x02 (R25). -/
def HostBoundary (s : State) : Prop :=
  AtBoundary s ∧ s.hostDriven = true ∧ cfgGet .le s.params.cfgReset = false ∧
  (s.params.cfgReset = 0x02#8 → s.cfg = 0x02#8)

/-- The data and clock latches are 0 (R121, R248). -/
def DataLinesLow (s : State) : Prop :=
  (∀ i : Fin 8, s.io.latch.get (dataLine i) = false) ∧ s.io.latch.get .clk = false

/-- The external register shows `CFG` (R18, R33). -/
def MirrorHeld (s : State) : Prop :=
  s.flags.initialised = true → s.io.srOut = s.cfg

/-- `PUC` never exceeds `FUE` when `FUE > 0`, and reaches it only with partial refresh blocked (R16, R189). -/
def CounterBounded (s : State) : Prop :=
  0 < s.conf.fue.toNat →
    s.puc.toNat ≤ s.conf.fue.toNat ∧ (s.puc.toNat = s.conf.fue.toNat → s.flags.blockPartial = true)

/-- A command may run: initialised and not failed (R160). -/
def Ready (s : State) : Prop :=
  s.flags.initialised = true ∧ s.flags.failed = false

/-- The preconditions of Word on the pixel mode (R145). -/
def fitsMode (d : PassDesc) (grey : Bool) : Bool :=
  match d with
  | .const _ => true
  | .monoLutb => !grey
  | .monoLut2 => !grey
  | .diff => !grey
  | .grey _ => grey

/-- Word of a descriptor as a byte, with 0 where it has none, for the statements about whole passes (R145). -/
def wordByte (s : State) (d : PassDesc) (k : Nat) : Byte :=
  match word d k s with
  | .next v => v
  | .fault _ => 0
  | .refused _ => 0

/-- The opcode map of R62: match and mask of each command. -/
def commandRows : List (CommandWord × CommandWord) :=
  [(0x1000000000000000, 0xFC00000000FF0000), (0x2000000000000000, 0xFE00000000000000),
    (0x3000000000000000, 0xFEFFFFFFFF000000), (0x4000000000000000, 0xFFFFFFFFFFFFFFFF),
    (0x5000000000000000, 0xFFFFFFFFFFFFFFFF)]

/-- `n` executions of one instruction, each from the state the one before left. -/
def execTimes (i : Instr) : Nat → State → Result State
  | 0, s => .next s
  | n + 1, s => andThen (exec i s) (execTimes i n)

/-- The host's five commands (R209). -/
def hostCommands (i : Instr) : Prop :=
  (∃ w h g p fue, i = .init w h g p fue) ∨ (∃ x y c, i = .setPixel x y c) ∨ (∃ c, i = .fill c) ∨ i = .clean ∨
    i = .refresh

/-- The pass descriptors as instructions (R74). -/
def descriptors (i : Instr) : Prop :=
  ∃ d, i = instrOfDesc d

/-- The operations that act on the pins and `CFG` alone. -/
def pinOperations (i : Instr) : Prop :=
  i ∈ [Instr.cfgPush, .powerOn, .powerOff, .vscanStart, .hscanStart, .colWord, .vscanEnd, .settle, .idle] ∨
    (∃ d, i = .pass d) ∨ ∃ d, i = .runPass d

/-- The fields of `CFG` that an operation on the pins writes (R17, R116, R122, R127). -/
def fieldsWritten : Instr → List CfgField
  | .powerOn => [.pd, .pos, .neg, .sof, .dir]
  | .powerOff => [.pd, .pos, .neg, .sof]
  | .vscanStart => [.sof]
  | .vscanEnd => [.le]
  | .pass _ => [.sof, .le]
  | .runPass _ => [.sof, .le]
  | _ => []

/-- The byte SET_PIXEL stores to, when the pixel is on the panel (R164). -/
def pixelStore (s : State) (x y : BitVec 16) : Option (BufId × Nat) :=
  if onPanel s x y then some (drawBuffer s, pixelByte s x y) else none

/-! ### Event lists -/

/-- The three events of bit `i` of a push (R100). -/
def bitEvents (c : Byte) (i : Nat) : List Event :=
  [.pinWrite .cfgClk false, .pinWrite .cfgData (c.getLsbD i), .pinWrite .cfgClk true]

/-- The 26 events of CFG_PUSH with `CFG = c`, bit 7 first (R73, R100). -/
def pushEvents (c : Byte) : List Event :=
  [.pinWrite .cfgStr false] ++
    (bitEvents c 7 ++ bitEvents c 6 ++ bitEvents c 5 ++ bitEvents c 4 ++ bitEvents c 3 ++ bitEvents c 2 ++
      bitEvents c 1 ++ bitEvents c 0) ++
    [.pinWrite .cfgStr true]

/-- The two events of a bus word (R123, R124). -/
def wordEvents (m : PinMap) (d : Byte) : List Event :=
  [.portSet (pack m d ||| clkMask m), .portClear (dataMask m ||| clkMask m)]

/-- HSCAN_START's four events (R123). -/
def hscanEvents (m : PinMap) (d : Byte) : List Event :=
  [.pinWrite .srcEn false] ++ wordEvents m d ++ [.pinWrite .srcEn true]

/-- The events of a `VSCAN_START_SEQ` entered with `CFG = c` (R122). -/
def vscanEvents (tVsUs : Nat) : List VStep → Byte → List Event
  | [], _ => []
  | .line v :: rest, c => .pinWrite .sofLine v :: vscanEvents tVsUs rest c
  | .bit v :: rest, c => pushEvents (cfgSet .sof v c) ++ vscanEvents tVsUs rest (cfgSet .sof v c)
  | .wait :: rest, c => .delayUs tVsUs :: vscanEvents tVsUs rest c

/-- `CFG` after a `VSCAN_START_SEQ` entered with `c`. -/
def vscanCfg : List VStep → Byte → Byte
  | [], c => c
  | .line _ :: rest, c => vscanCfg rest c
  | .bit v :: rest, c => vscanCfg rest (cfgSet .sof v c)
  | .wait :: rest, c => vscanCfg rest c

/-- How many events a `VSCAN_START_SEQ` makes: 58 for the default (R122). -/
def vscanCount : List VStep → Nat
  | [] => 0
  | .line _ :: rest => 1 + vscanCount rest
  | .bit _ :: rest => 26 + vscanCount rest
  | .wait :: rest => 1 + vscanCount rest

/-- VSCAN_END's 53 events with `CFG = c` (R127). -/
def vscanEndEvents (c : Byte) : List Event :=
  pushEvents (cfgSet .le true c) ++ pushEvents (cfgSet .le false (cfgSet .le true c)) ++ [.pinWrite .sofLine true]

/-- One row of a pass: `w` gives the drive byte of each word of the row (R126). -/
def rowEvents (m : PinMap) (c : Byte) (w : Nat → Byte) (wpr : Nat) : List Event :=
  hscanEvents m (w 0) ++ (List.range (wpr - 1)).flatMap (fun j => wordEvents m (w (j + 1))) ++ vscanEndEvents c

/-- One pass of `h` rows entered with `CFG = c`, when `c` is also the value between its steps: `w` gives the drive byte of
each word of the pass (R126). -/
def passEvents (p : Config) (c : Byte) (w : Nat → Byte) (h wpr : Nat) : List Event :=
  vscanEvents p.tVsUs p.vscanStartSeq c ++
    (List.range h).flatMap fun r => rowEvents p.pinmap c (fun j => w (r * wpr + j)) wpr

/-- `E_PASS`, with the count of the configured VSCAN_START in place of the default's 58 (R126, R182). -/
def passCount (p : Config) (h wpr : Nat) : Nat :=
  vscanCount p.vscanStartSeq + h * (2 * wpr + 55)

/-- `CFG` after each of POWER_ON's four pushes, entered with `c` (R110, R111). -/
def onCfg1 (c : Byte) : Byte := cfgSet .pd false (cfgSet .dir false c)
def onCfg2 (c : Byte) : Byte := cfgSet .neg true (onCfg1 c)
def onCfg3 (c : Byte) : Byte := cfgSet .pos true (onCfg2 c)
def onCfg4 (c : Byte) : Byte := cfgSet .sof true (onCfg3 c)

/-- POWER_ON's 118 events (R111). -/
def powerOnEvents (c : Byte) : List Event :=
  panelFacing.map (fun l => .pinDir l .output) ++ pushEvents (onCfg1 c) ++ [.delayUnits 100] ++ pushEvents (onCfg2 c) ++
    [.delayUnits 500] ++ pushEvents (onCfg3 c) ++ [.delayUnits 100] ++ pushEvents (onCfg4 c)

/-- `CFG` after each of POWER_OFF's four pushes, entered with `c` (R110, R112). -/
def offCfg1 (c : Byte) : Byte := cfgSet .pos false c
def offCfg2 (c : Byte) : Byte := cfgSet .neg false (offCfg1 c)
def offCfg3 (c : Byte) : Byte := cfgSet .pd true (offCfg2 c)
def offCfg4 (c : Byte) : Byte := cfgSet .sof false (offCfg3 c)

/-- POWER_OFF's 118 events (R112). -/
def powerOffEvents (m : PinMap) (c : Byte) : List Event :=
  pushEvents (offCfg1 c) ++ [.delayUnits 10] ++ pushEvents (offCfg2 c) ++ [.delayUnits 100] ++ pushEvents (offCfg3 c) ++
    pushEvents (offCfg4 c) ++ [.portClear (dataMask m ||| clkMask m)] ++ panelFacing.map (fun l => .pinDir l .input)

/-- The events of a sequence of passes between POWER_ON and POWER_OFF, entered with `CFG = c`: each pass is followed by its
settle delay of 230 microseconds, and `w` gives the drive bytes of each descriptor (R181 to R188). -/
def sequenceEvents (p : Config) (c : Byte) (ds : List PassDesc) (w : PassDesc → Nat → Byte) (h wpr : Nat) : List Event :=
  powerOnEvents c ++ ds.flatMap (fun d => passEvents p (onCfg4 c) (w d) h wpr ++ [.delayUs 230]) ++
    powerOffEvents p.pinmap (onCfg4 c)

/-- INIT's 57 events with `CFG = c` (R162). -/
def initEvents (c : Byte) : List Event :=
  allLines.map .pinConfigure ++ alwaysOutputs.map (fun l => .pinDir l .output) ++
    panelFacing.map (fun l => .pinDir l .input) ++ [.pinWrite .panelEn true] ++ pushEvents c

end Sys2Proof.Machine
end

