-- ==== Sys2Proof/Certificates/Slice0/Obligations.lean ====
section
/-! DEFINITION. The statements for the provers. Each docstring names the rules of spec/ its statement formalises. -/

open Sys2Proof Sys2Proof.Machine

/-! ### Encoding -/

/-- Decoding the code of an instruction gives the instruction back, with every operand at every value (30_encoding.md
R61 to R65, R74, R76). -/
def Obligations.EncodedInstructionsDecodeBack : Prop :=
  ∀ (i : Instr) (c : Code), encode i = some c → decode c = .ok i

/-- A code that decodes is the code of the instruction it decodes to: no reserved bit is ignored, and no two codes spell
one instruction (R61, R62, R68, R74, R75, R76). -/
def Obligations.DecodedCodesEncodeBack : Prop :=
  ∀ (c : Code) (i : Instr), decode c = .ok i → encode i = some c

/-- The fifteen words of 95_test_vectors.md V01, two pass descriptors (R74) and a `PHASE` code (R76). -/
def Obligations.SpecWordsDecode : Prop :=
  decode (.command 0x110320025800000A) = .ok (.init 800 600 false true 10) ∧
  decode (.command 0x1203200258000000) = .ok (.init 800 600 true false 0) ∧
  decode (.command 0x1100080002000002) = .ok (.init 8 2 false true 2) ∧
  decode (.command 0x1200040002000000) = .ok (.init 4 2 true false 0) ∧
  decode (.command 0x1100040004000002) = .ok (.init 4 4 false true 2) ∧
  decode (.command 0x2100070001000000) = .ok (.setPixel 7 1 { r := 0, gr := 0, b := 0, on := true }) ∧
  decode (.command 0x2000030001FFFFFF) = .ok (.setPixel 3 1 { r := 255, gr := 255, b := 255, on := false }) ∧
  decode (.command 0x2000010000808080) = .ok (.setPixel 1 0 { r := 128, gr := 128, b := 128, on := false }) ∧
  decode (.command 0x21FFFF0000000000) = .ok (.setPixel (-1) 0 { r := 0, gr := 0, b := 0, on := true }) ∧
  decode (.command 0x2100008000000000) = .ok (.setPixel 0 (-32768) { r := 0, gr := 0, b := 0, on := true }) ∧
  decode (.command 0x3000000000FFFFFF) = .ok (.fill { r := 255, gr := 255, b := 255, on := false }) ∧
  decode (.command 0x3100000000000000) = .ok (.fill { r := 0, gr := 0, b := 0, on := true }) ∧
  decode (.command 0x3000000000808080) = .ok (.fill { r := 128, gr := 128, b := 128, on := false }) ∧
  decode (.command 0x4000000000000000) = .ok .clean ∧
  decode (.command 0x5000000000000000) = .ok .refresh ∧
  decode (.descriptor 0x41) = .ok .passMonoLut2 ∧
  decode (.descriptor 0xD8) = .ok (.passGrey 3) ∧
  decode (.phase 0x0C) = .ok .diff

/-- R68: a command word that matches no row of R62 is refused; there is no step. In a failed block, where R206 puts
`FAILED` first among the checks of a command, the refusal is the model's reading (DEDUCED, log entry 19). -/
def Obligations.UnmatchedCommandWordIsRefused : Prop :=
  ∀ (s : State) (w : CommandWord) (rest : List Input), s.params.valid = true → s.port = .code (.command w) :: rest →
    (∀ row ∈ commandRows, w &&& row.2 ≠ row.1) → ∃ e, step s = .refused (.undecoded e)

/-! ### The step -/

/-- When the code at the head of the port decodes, the step is exec of that instruction on the state with the code taken
off the port (R8, R60; the port is the model's form of the command port, log entry 8). For a command word that is R60's;
that a pass descriptor or a `PHASE` code can stand in the port is the model's choice (DESIGN CHOICE, log entry 9): R209
lets the host issue only the five commands. -/
def Obligations.StepRunsTheDecodedInstruction : Prop :=
  ∀ (s : State) (c : Code) (i : Instr) (rest : List Input), s.params.valid = true → s.port = .code c :: rest →
    decode c = .ok i → step s = exec i { s with port := rest }

/-- With no input the block idles (R230). That IDLE as an instruction sets `PHASE` and changes nothing else is the
model's reading of R20, R21 and R76 (DEDUCED, log entry 23), and that an empty port runs it is the model's choice (log
entry 8). -/
def Obligations.StepIdlesWithoutInput : Prop :=
  ∀ s : State,
    exec .idle s = .next { s with pos := { s.pos with phase := .idle } } ∧
    (s.params.valid = true → s.port = [] → step s = .next { s with pos := { s.pos with phase := .idle } })

/-- The reset event, between commands with `POWER` = OFF (R25), puts the block's state at the values of R34 (R230) and
emits no event. With `POWER` = ON, the rails up, the reset is refused (R232). That the pending inputs and the parameters
stay is the model's choice (log entry 7, unsafe): R34 and R230 do not say it. -/
def Obligations.ResetEventGivesResetValues : Prop :=
  ∀ (s : State) (rest : List Input), s.params.valid = true → s.port = .reset :: rest →
    (s.flags.power = true → step s = .refused .resetWithPowerOn) ∧
    (s.flags.power = false → ∃ t, step s = .next t ∧ t.params = s.params ∧ t.port = rest ∧
      t.conf = { w := 0, h := 0, grey := false, partialEn := false, fue := 0 } ∧
      t.flags = { initialised := false, failed := false, power := false, blockPartial := false } ∧
      t.puc = 0 ∧ t.cfg = s.params.cfgReset ∧ t.bufs = { buf0 := [], buf1 := [], buf2 := [] } ∧
      (∀ l, t.io.latch.get l = false) ∧ (∀ l, t.io.dir.get l = .input) ∧ t.io.trace = [] ∧
      t.pos = { seq := .none, passIdx := 0, phase := .idle, row := 0, col := 0 })

/-- For all valid parameters the state after reset meets the invariants of every step, and its STATUS is 0 (R34, V04);
it is a command boundary (R25) when `CFG_RESET` has `LE` = 0, as R231 has it and R6 leaves open (log entry 26). In every
state STATUS shows INITIALISED, FAILED, POWER and BLOCK_PARTIAL in bits 0 to 3 and `PUC` in [35:4] (R19). -/
def Obligations.ResetMeetsTheInvariants : Prop :=
  (∀ p : Config, p.valid = true →
    (cfgGet .le p.cfgReset = false → HostBoundary (State.resetWith p)) ∧ BuffersSized (State.resetWith p) ∧
      (State.resetWith p).bufs.wf = true ∧ MirrorHeld (State.resetWith p) ∧ DataLinesLow (State.resetWith p) ∧
      CounterBounded (State.resetWith p) ∧ (State.resetWith p).status = 0) ∧
  ∀ s : State, s.status.getLsbD 0 = s.flags.initialised ∧ s.status.getLsbD 1 = s.flags.failed ∧
    s.status.getLsbD 2 = s.flags.power ∧ s.status.getLsbD 3 = s.flags.blockPartial ∧ s.status.extractLsb' 4 32 = s.puc

/-! ### Invariants of every step -/

/-- R25: at every command boundary the power is off, the position idle, the panel-facing lines inputs, and `CFG` has
`PD` = 1 and `LE`, `POS`, `NEG`, `SOF` = 0 (0x02 with `CFG_RESET` = 0x02). `CFG_RESET`'s `LE` is taken as 0 (R231). -/
def Obligations.CommandBoundaryKept : Prop :=
  (∀ p : Config, p.valid = true → cfgGet .le p.cfgReset = false → HostBoundary (State.resetWith p)) ∧
  ∀ s t : State, HostBoundary s → step s = .next t → HostBoundary t

/-- R23, R24: which buffers exist, and their lengths, follow the geometry and the mode after every step. The steps of an
operation stepped alone are covered too (log entry 9). -/
def Obligations.BuffersKeepTheirSizes : Prop :=
  ∀ s t : State, BuffersSized s → step s = .next t → BuffersSized t

/-- Every step keeps the buffers in canonical form (the form is the model's, log entry 13). The steps of an operation
stepped alone are covered too (log entry 9). -/
def Obligations.MemoryStaysCanonical : Prop :=
  ∀ s t : State, s.bufs.wf = true → step s = .next t → t.bufs.wf = true

/-- R151: no step writes the tables or any other parameter. The steps of an operation
stepped alone are covered too (log entry 9). -/
def Obligations.ParametersNeverWritten : Prop :=
  ∀ s t : State, step s = .next t → t.params = s.params

/-- R18, R33: once initialised, the external register shows `CFG` after every step. The register's inner form is the one
R33 offers (PRESUMED, log entry 6). The steps of an operation stepped alone are covered too (log entry 9). -/
def Obligations.ShiftRegisterMirrorsCfg : Prop :=
  ∀ s t : State, MirrorHeld s → step s = .next t → MirrorHeld t

/-- R121, R248: the data and clock latches are 0 after every step. The steps of an operation stepped alone are covered
too (log entry 9), with `POWER` = OFF also (log entry 15). -/
def Obligations.DataAndClockLowBetweenWords : Prop :=
  ∀ s t : State, DataLinesLow s → step s = .next t → DataLinesLow t

/-- R16, R189: with `FUE > 0` the counter never exceeds `FUE`, and at `FUE` partial refresh is blocked. The
steps of an operation stepped alone are covered too (log entry 9). -/
def Obligations.PartialCountNeverExceedsFue : Prop :=
  ∀ s t : State, CounterBounded s → step s = .next t → CounterBounded t

/-- A host-driven step from sized buffers never faults: every byte an operation touches exists (R48, R56, R126). -/
def Obligations.HostStepsNeverFault : Prop :=
  ∀ (s : State) (r : Fault), BuffersSized s → s.hostDriven = true → step s ≠ .fault r

/-- R17, R253: no instruction writes `MODE` or `OE`, and none sets `DIR`. -/
def Obligations.ModeAndOutputEnableNeverWritten : Prop :=
  ∀ (i : Instr) (s t : State), exec i s = .next t →
    cfgGet .mode t.cfg = cfgGet .mode s.cfg ∧ cfgGet .oe t.cfg = cfgGet .oe s.cfg ∧
      (cfgGet .dir t.cfg = true → cfgGet .dir s.cfg = true)

/-- R14, R243: only INIT writes the configuration registers. -/
def Obligations.OnlyInitWritesConfiguration : Prop :=
  ∀ (i : Instr) (s t : State), exec i s = .next t → (∀ w h g p fue, i ≠ .init w h g p fue) → t.conf = s.conf

/-- R32: the trace is append-only. -/
def Obligations.TraceOnlyGrows : Prop :=
  ∀ (i : Instr) (s t : State), exec i s = .next t → s.io.trace <+: t.io.trace

/-- R208: the failed state is left by the reset event alone. The steps of an operation stepped alone in a failed block
are covered too (log entries 9 and 20). -/
def Obligations.FailureLeftOnlyByReset : Prop :=
  ∀ s t : State, s.flags.failed = true → step s = .next t →
    t.flags.failed = true ∨ ∃ rest, s.port = .reset :: rest

/-! ### The commands -/

/-- R160: a failed block takes every command as a no-op; a block that is neither failed nor initialised refuses every
command but INIT. -/
def Obligations.CommonPrecondition : Prop :=
  ∀ (i : Instr) (s : State), hostCommands i →
    (s.flags.failed = true → exec i s = .next s) ∧
    (s.flags.failed = false → s.flags.initialised = false → (∀ w h g p fue, i ≠ .init w h g p fue) →
      exec i s = .refused .notInitialised)

/-- R162: INIT of a new geometry that fits allocates, configures, sets up the pins and pushes `CFG` (57 events); the
panel-facing lines are then high-impedance and `PANEL_EN` presents 1 (R30). -/
def Obligations.InitAllocatesAndConfigures : Prop :=
  ∀ (s : State) (w h : BitVec 16) (g p : Bool) (fue : BitVec 16), s.flags.failed = false →
    w.toNat % 4 = 0 → 4 ≤ w.toNat → 1 ≤ h.toNat →
    ¬(s.flags.initialised = true ∧ s.conf.w = w ∧ s.conf.h = h ∧ s.conf.grey = g) →
    need w h g ≤ s.params.fbCapacity →
    ∃ t, exec (.init w h g p fue) s = .next t ∧
      t.conf = { w := w, h := h, grey := g, partialEn := p, fue := fue } ∧ t.puc = 0 ∧
      t.flags = { initialised := true, failed := false, power := s.flags.power, blockPartial := true } ∧
      t.bufs.buf0.offsets = List.range (bufferLength w h g) ∧
      t.bufs.buf1.offsets = (if g then [] else List.range (bufferLength w h g)) ∧
      t.bufs.buf2.offsets = (if g then [] else List.range (2 * bufferLength w h g)) ∧
      t.io.trace = s.io.trace ++ initEvents s.cfg ∧
      (∀ l ∈ alwaysOutputs, t.io.dir.get l = .output) ∧ (∀ l ∈ panelFacing, t.io.dir.get l = .input) ∧
      t.io.latch.get .panelEn = true ∧ (∀ l ∈ panelFacing, t.io.level l = none) ∧ t.io.level .panelEn = some true ∧
      t.io.srOut = s.cfg ∧
      t.cfg = s.cfg ∧ t.pos = s.pos ∧ t.work = s.work ∧ t.params = s.params ∧ t.port = s.port

/-- R162: INIT of the geometry the block has keeps all buffer contents and updates the rest. -/
def Obligations.InitSameGeometryKeepsBuffers : Prop :=
  ∀ (s : State) (w h : BitVec 16) (g p : Bool) (fue : BitVec 16), s.flags.failed = false →
    w.toNat % 4 = 0 → 4 ≤ w.toNat → 1 ≤ h.toNat →
    s.flags.initialised = true → s.conf.w = w → s.conf.h = h → s.conf.grey = g →
    ∃ t, exec (.init w h g p fue) s = .next t ∧ t.bufs = s.bufs ∧
      t.conf = { w := w, h := h, grey := g, partialEn := p, fue := fue } ∧ t.puc = 0 ∧
      t.flags = { s.flags with blockPartial := true } ∧ t.io.trace = s.io.trace ++ initEvents s.cfg ∧ t.cfg = s.cfg

/-- R201: AllocationFailure releases the buffers, sets `FAILED`, and changes nothing else; from then on every command is
a no-op, and the host reads the failure in `STATUS[1]`. -/
def Obligations.AllocationFailureEntry : Prop :=
  ∀ (s : State) (w h : BitVec 16) (g p : Bool) (fue : BitVec 16), s.flags.failed = false →
    w.toNat % 4 = 0 → 4 ≤ w.toNat → 1 ≤ h.toNat →
    ¬(s.flags.initialised = true ∧ s.conf.w = w ∧ s.conf.h = h ∧ s.conf.grey = g) →
    s.params.fbCapacity < need w h g →
    ∃ t, exec (.init w h g p fue) s = .next t ∧
      t = { s with
        bufs := { buf0 := [], buf1 := [], buf2 := [] }
        flags := { s.flags with initialised := false, failed := true } } ∧
      t.status.getLsbD 1 = true ∧ ∀ i, hostCommands i → exec i t = .next t

/-- R172: a block that has not failed refuses INIT exactly for a geometry that is not admitted. -/
def Obligations.InitRefusesOtherGeometries : Prop :=
  ∀ (s : State) (w h : BitVec 16) (g p : Bool) (fue : BitVec 16), s.flags.failed = false →
    (exec (.init w h g p fue) s = .refused .geometryNotAdmitted ↔
      ¬(w.toNat % 4 = 0 ∧ 4 ≤ w.toNat ∧ 1 ≤ h.toNat))

/-- R164: SET_PIXEL on the panel rewrites one bit of `BUF1` in monochrome, in greyscale one nibble of `BUF0` to the grey
level `g` of R166's formula, and changes nothing else. -/
def Obligations.SetPixelWritesItsByte : Prop :=
  ∀ (s : State) (x y : BitVec 16) (c : Colour) (i g : Nat), Ready s → BuffersSized s →
    0 ≤ x.toInt → x.toInt < s.conf.w.toNat → 0 ≤ y.toInt → y.toInt < s.conf.h.toNat →
    i = y.toInt.toNat * s.conf.w.toNat + x.toInt.toNat →
    g = (2126 * c.r.toNat + 7152 * c.gr.toNat + 722 * c.b.toNat) / 10000 / 32 →
    (s.conf.grey = false → ∃ old, s.byteAt .buf1 (i / 8) = some old ∧
      exec (.setPixel x y c) s = .next { s with bufs := { s.bufs with
        buf1 := s.bufs.buf1.write (i / 8)
          (if c.on then old &&& ~~~(0x80#8 >>> (i % 8)) else old ||| (0x80#8 >>> (i % 8))) } }) ∧
    (s.conf.grey = true → ∃ old, s.byteAt .buf0 (i / 2) = some old ∧
      exec (.setPixel x y c) s = .next { s with bufs := { s.bufs with
        buf0 := s.bufs.buf0.write (i / 2)
          (if i % 2 = 0 then (BitVec.ofNat 8 g <<< 4) ||| (old &&& 0x0F#8)
           else (old &&& 0xF0#8) ||| BitVec.ofNat 8 g) } })

/-- R170 (c), S1: reading the pixel back gives the classification or the grey level (R166's formula) written, and every
other pixel of the panel, in every buffer, reads as before (R44). -/
def Obligations.SetPixelReadsBack : Prop :=
  ∀ (s : State) (x y : BitVec 16) (c : Colour) (g : Nat), Ready s → BuffersSized s →
    0 ≤ x.toInt → x.toInt < s.conf.w.toNat → 0 ≤ y.toInt → y.toInt < s.conf.h.toNat →
    g = (2126 * c.r.toNat + 7152 * c.gr.toNat + 722 * c.b.toNat) / 10000 / 32 →
    ∃ t, exec (.setPixel x y c) s = .next t ∧
      (s.conf.grey = false →
        pixelAt .buf1 t x.toInt.toNat y.toInt.toNat = some (if c.on then .on else .off)) ∧
      (s.conf.grey = true → pixelAt .buf0 t x.toInt.toNat y.toInt.toNat = some (.level g)) ∧
      ∀ (b : BufId) (x' y' : Nat), x' < s.conf.w.toNat → y' < s.conf.h.toNat →
        ¬(b = drawBuffer s ∧ x' = x.toInt.toNat ∧ y' = y.toInt.toNat) → pixelAt b t x' y' = pixelAt b s x' y'

/-- R202: a pixel write outside the panel is a no-op; the test is on the coordinates. -/
def Obligations.SetPixelOffThePanelIsNoOp : Prop :=
  ∀ (s : State) (x y : BitVec 16) (c : Colour), Ready s →
    (x.toInt < 0 ∨ (s.conf.w.toNat : Int) ≤ x.toInt ∨ y.toInt < 0 ∨ (s.conf.h.toNat : Int) ≤ y.toInt) →
    exec (.setPixel x y c) s = .next s

/-- R167: FILL writes one value to every byte of the buffer the host draws in, padding included, in greyscale the grey
level of R166's formula in both nibbles, and changes nothing else. -/
def Obligations.FillWritesEveryByte : Prop :=
  ∀ (s : State) (c : Colour) (g : Nat), Ready s → BuffersSized s →
    g = (2126 * c.r.toNat + 7152 * c.gr.toNat + 722 * c.b.toNat) / 10000 / 32 →
    (s.conf.grey = false → exec (.fill c) s = .next { s with bufs := { s.bufs with
      buf1 := s.bufs.buf1.map fun cell => (cell.1, if c.on then 0x00#8 else 0xFF#8) } }) ∧
    (s.conf.grey = true → exec (.fill c) s = .next { s with bufs := { s.bufs with
      buf0 := s.bufs.buf0.map fun cell => (cell.1, (BitVec.ofNat 8 g <<< 4) ||| BitVec.ofNat 8 g) } })

/-- R170 (e), S6: after a FILL every pixel of the panel reads back as what was filled, in greyscale the grey level of
R166's formula. -/
def Obligations.FilledImageReadsBack : Prop :=
  ∀ (s : State) (c : Colour) (g : Nat), Ready s → BuffersSized s →
    g = (2126 * c.r.toNat + 7152 * c.gr.toNat + 722 * c.b.toNat) / 10000 / 32 →
    ∃ t, exec (.fill c) s = .next t ∧
      ∀ x y : Nat, x < s.conf.w.toNat → y < s.conf.h.toNat →
        (s.conf.grey = false → pixelAt .buf1 t x y = some (if c.on then .on else .off)) ∧
        (s.conf.grey = true → pixelAt .buf0 t x y = some (.level g))

/-! ### Config shift register and power sequencer -/

/-- R100: CFG_PUSH makes its 26 events, bit 7 first, leaves the three lines as stated, and the external register holds
`CFG`, which is not changed. -/
def Obligations.CfgPushShiftsOutCfg : Prop :=
  ∀ s : State, ∃ t, exec .cfgPush s = .next t ∧ t = { s with io := t.io } ∧
    t.io.trace = s.io.trace ++ pushEvents s.cfg ∧ (pushEvents s.cfg).length = 26 ∧
    t.io.srOut = s.cfg ∧ t.io.dir = s.io.dir ∧
    t.io.latch.get .cfgStr = true ∧ t.io.latch.get .cfgClk = true ∧ t.io.latch.get .cfgData = s.cfg.getLsbD 0 ∧
    ∀ l, l ≠ .cfgStr → l ≠ .cfgClk → l ≠ .cfgData → t.io.latch.get l = s.io.latch.get l

/-- R110, R111: POWER_ON from off makes its 118 events, changes only the fields it names, and writes `POWER`; the
panel-facing lines then present the values last written to their latches (R30). That `DLY` is 0 after its delays is the
model's choice (log entry 17): R12 does not model `DLY`. -/
def Obligations.PowerOnSequence : Prop :=
  ∀ s : State, s.flags.power = false → ∃ t, exec .powerOn s = .next t ∧
    t = { s with
      io := t.io
      cfg := cfgSet .sof true (cfgSet .pos true (cfgSet .neg true (cfgSet .pd false (cfgSet .dir false s.cfg))))
      flags := { s.flags with power := true }
      work := { s.work with dly := 0 } } ∧
    t.io.trace = s.io.trace ++ powerOnEvents s.cfg ∧ (powerOnEvents s.cfg).length = 118 ∧
    (∀ l ∈ panelFacing, t.io.dir.get l = .output) ∧ (∀ l ∉ panelFacing, t.io.dir.get l = s.io.dir.get l) ∧
    (∀ l ∈ panelFacing, t.io.latch.get l = s.io.latch.get l) ∧
    (∀ l ∈ panelFacing, t.io.level l = some (s.io.latch.get l)) ∧ t.io.srOut = t.cfg ∧
    (s.cfg = 0x02#8 → t.cfg = 0x1C#8)

/-- R110, R112: POWER_OFF from on makes its 118 events, forces the data and clock latches low, and returns the
panel-facing lines to inputs, so that they are high-impedance (R30); `SOF_LINE` and `SRC_EN` keep their latches. That
`DLY` is 0 after its delays is the model's choice (log entry 17): R12 does not model `DLY`. -/
def Obligations.PowerOffSequence : Prop :=
  ∀ s : State, s.flags.power = true → ∃ t, exec .powerOff s = .next t ∧
    t = { s with
      io := t.io
      cfg := cfgSet .sof false (cfgSet .pd true (cfgSet .neg false (cfgSet .pos false s.cfg)))
      flags := { s.flags with power := false }
      work := { s.work with dly := 0 } } ∧
    t.io.trace = s.io.trace ++ powerOffEvents s.params.pinmap s.cfg ∧
    (powerOffEvents s.params.pinmap s.cfg).length = 118 ∧
    (∀ l ∈ panelFacing, t.io.dir.get l = .input) ∧ (∀ l ∉ panelFacing, t.io.dir.get l = s.io.dir.get l) ∧
    (∀ l ∈ panelFacing, t.io.level l = none) ∧ DataLinesLow t ∧ t.io.latch.get .sofLine = s.io.latch.get .sofLine ∧
    t.io.latch.get .srcEn = s.io.latch.get .srcEn ∧ t.io.srOut = t.cfg ∧ (s.cfg = 0x1C#8 → t.cfg = 0x02#8)

/-- R113: POWER_ON while on and POWER_OFF while off emit no event and change no state. -/
def Obligations.PowerReentryIsNoOp : Prop :=
  ∀ s : State, (s.flags.power = true → exec .powerOn s = .next s) ∧ (s.flags.power = false → exec .powerOff s = .next s)

/-! ### Scan engine -/

/-- R122: VSCAN_START makes the events of the configured pattern; a pattern that the model takes as valid (its reading
of R122 (b): DEDUCED, log entry 3) ends with `SOF` = 1; the default makes 58 events and ends with `SOF_LINE` = 1. R121
has `POWER` = ON as a precondition; that the same holds with `POWER` = OFF is the model's reading (DEDUCED, unsafe, log
entry 15). -/
def Obligations.VscanStartPattern : Prop :=
  ∀ s : State, ∃ t, exec .vscanStart s = .next t ∧
    t = { s with io := t.io, cfg := cfgSet .sof (cfgGet .sof t.cfg) s.cfg, work := { s.work with dly := t.work.dly } } ∧
    t.io.trace = s.io.trace ++ vscanEvents s.params.tVsUs s.params.vscanStartSeq s.cfg ∧ t.io.dir = s.io.dir ∧
    (s.params.valid = true → cfgGet .sof t.cfg = true) ∧
    (s.params.vscanStartSeq = vscanDefault →
      t.io.trace.length = s.io.trace.length + 58 ∧ t.io.latch.get .sofLine = true)

/-- R123, R124: HSCAN_START and COL_WORD pulse the drive byte in `DRV` with the clock and leave the data and clock
latches 0; HSCAN_START ends with `SRC_EN` = 1. The operand in `DRV` is the model's reading of R12 (log entry 12). R121
has `POWER` = ON as a precondition; that the same holds with `POWER` = OFF is the model's reading (DEDUCED, unsafe, log
entry 15). -/
def Obligations.HscanStartAndColWordPulse : Prop :=
  ∀ s : State,
    (∃ t, exec .hscanStart s = .next t ∧ t = { s with io := t.io } ∧
      t.io.trace = s.io.trace ++ [.pinWrite .srcEn false,
        .portSet (pack s.params.pinmap s.work.drv ||| clkMask s.params.pinmap),
        .portClear (dataMask s.params.pinmap ||| clkMask s.params.pinmap), .pinWrite .srcEn true] ∧
      DataLinesLow t ∧ t.io.latch.get .srcEn = true ∧ t.io.dir = s.io.dir ∧ t.io.srOut = s.io.srOut) ∧
    (∃ t, exec .colWord s = .next t ∧ t = { s with io := t.io } ∧
      t.io.trace = s.io.trace ++ [.portSet (pack s.params.pinmap s.work.drv ||| clkMask s.params.pinmap),
        .portClear (dataMask s.params.pinmap ||| clkMask s.params.pinmap)] ∧
      DataLinesLow t ∧ t.io.latch.get .srcEn = s.io.latch.get .srcEn ∧ t.io.dir = s.io.dir ∧
      t.io.srOut = s.io.srOut)

/-- R127: VSCAN_END pulses `LE`, each edge pushed, and writes `SOF_LINE` 1: 53 events. R121 has `POWER` = ON as a
precondition; that the same holds with `POWER` = OFF is the model's reading (DEDUCED, unsafe, log entry 15). -/
def Obligations.VscanEndLatchesTheRow : Prop :=
  ∀ s : State, ∃ t, exec .vscanEnd s = .next t ∧ t = { s with io := t.io, cfg := cfgSet .le false s.cfg } ∧
    t.io.trace = s.io.trace ++ pushEvents (cfgSet .le true s.cfg) ++ pushEvents (cfgSet .le false s.cfg) ++
      [.pinWrite .sofLine true] ∧
    t.io.trace.length = s.io.trace.length + 53 ∧ t.io.latch.get .sofLine = true ∧ t.io.dir = s.io.dir

/-- R77, R121: with the data and clock latches low and an injective pin map, the port write of a bus word presents
exactly its byte on the data lines and 1 on the clock, and moves no other line; a line presents its latch while it is an
output and is high-impedance while it is an input (R30). -/
def Obligations.BusWordShowsExactlyItsByte : Prop :=
  ∀ (s : State) (d : Byte), s.params.valid = true → DataLinesLow s →
    let t := s.portSet (pack s.params.pinmap d ||| clkMask s.params.pinmap)
    (∀ i : Fin 8, t.io.latch.get (dataLine i) = d.getLsbD i.val) ∧ t.io.latch.get .clk = true ∧
      (∀ l, portBit s.params.pinmap l = none → t.io.latch.get l = s.io.latch.get l) ∧
      (∀ i : Fin 8, s.io.dir.get (dataLine i) = .output → t.io.level (dataLine i) = some (d.getLsbD i.val)) ∧
      (s.io.dir.get .clk = .output → t.io.level .clk = some true) ∧
      ∀ l, s.io.dir.get l = .input → t.io.level l = none

/-- R181: SETTLE is one `DelayUs(230)`. That `DLY` is 0 afterwards is the model's choice (log entry 17): R12 does not
model `DLY`, and R181 says SETTLE writes nothing. -/
def Obligations.SettleDelays : Prop :=
  ∀ s : State, ∃ t, exec .settle s = .next t ∧
    t = { s with io := t.io, work := { s.work with dly := 0 } } ∧ t.io = s.io.emit (.delayUs 230) ∧
    t.io.trace = s.io.trace ++ [.delayUs 230]

/-! ### Waveform encoder -/

/-- R144, R145: a constant descriptor's word is its constant, whatever the index and the buffers. That stepping a
descriptor loads `DRV` is the model's reading (log entry 11), and that it does so for an index at or beyond `H * WPR`,
outside R145's domain, is the model's choice (log entry 14). -/
def Obligations.ConstantDescriptorsLoadDrv : Prop :=
  ∀ s : State,
    exec .passConstWhite s = .next { s with work := { s.work with drv := s.params.dataWhite } } ∧
    exec .passConstBlack s = .next { s with work := { s.work with drv := s.params.dataBlack } } ∧
    exec .passConstDischarge s = .next { s with work := { s.work with drv := s.params.dataDischarge } } ∧
    exec .passConstSkip s = .next { s with work := { s.work with drv := s.params.dataSkip } }

/-- R56, R142, R145: the word of a monochrome descriptor is the entry of its table for a nibble of `BUF1`, bytes last to
first, high nibble first. That stepping a descriptor loads `DRV` with its word at `KW` is the model's reading of R12
(DEDUCED, log entry 11); Word itself writes nothing (R145). -/
def Obligations.MonoDescriptorsLoadDrv : Prop :=
  ∀ (s : State) (k : Nat), s.flags.initialised = true → BuffersSized s → s.conf.grey = false → k = s.work.kw.toNat →
    k < s.rows * s.wpr →
    ∃ v n, s.byteAt .buf1 (s.len - 1 - k / 2) = some v ∧
      n = (if k % 2 = 0 then v.extractLsb' 4 4 else v.extractLsb' 0 4) ∧
      exec .passMonoLutb s = .next { s with work := { s.work with drv := s.params.lutb.get n.toFin } } ∧
      exec .passMonoLut2 s = .next { s with work := { s.work with drv := s.params.lut2.get n.toFin } }

/-- R56, R57, R143, R145: the word of PASS.DIFF is a byte of `BUF2` from its end, and that of PASS.GREY is four
`WAVEFORM3` codes of two bytes of `BUF0`, bit 3 of each nibble ignored, first pixel in bits [7:6]. That stepping a
descriptor loads `DRV` with its word at `KW` is the model's reading of R12 (DEDUCED, log entry 11); Word itself writes
nothing (R145). -/
def Obligations.DiffAndGreyDescriptorsLoadDrv : Prop :=
  ∀ (s : State) (k : Nat) (sub : BitVec 3), s.flags.initialised = true → BuffersSized s → k = s.work.kw.toNat →
    k < s.rows * s.wpr →
    (s.conf.grey = false → ∃ v, s.byteAt .buf2 (2 * s.len - 1 - k) = some v ∧
      exec .passDiff s = .next { s with work := { s.work with drv := v } }) ∧
    (s.conf.grey = true → ∃ a b, s.byteAt .buf0 (s.len - 1 - 2 * k) = some a ∧
      s.byteAt .buf0 (s.len - 2 - 2 * k) = some b ∧
      exec (.passGrey sub) s = .next { s with work := { s.work with
        drv := waveform s.params (a.extractLsb' 4 3) sub ++ waveform s.params (a.extractLsb' 0 3) sub ++
          waveform s.params (b.extractLsb' 4 3) sub ++ waveform s.params (b.extractLsb' 0 3) sub } })

/-- R42, R56, R57, R142: when `W mod 8 = 0`, word `c` of row `r` of a `LUTB` or `LUT2` pass carries four neighbouring
pixels of the stored row `H - 1 - r`, bytes right to left, pixels of a byte left to right, the first in the highest bit
of the index; the same word of a DIFF pass is the drive byte that `BUF2` holds for the same four pixels, at `2 * q + 1`
for the high nibble of byte `q` and `2 * q` for the low. -/
def Obligations.PassRowsAreStoredRowsReversed : Prop :=
  ∀ (s : State) (r c : Nat), s.flags.initialised = true → BuffersSized s → s.conf.grey = false →
    s.conf.w.toNat % 8 = 0 → r < s.rows → c < s.wpr →
    ∃ (n : Nibble) (v : Byte), word .monoLutb (r * s.wpr + c) s = .next (s.params.lutb.get n.toFin) ∧
      word .monoLut2 (r * s.wpr + c) s = .next (s.params.lut2.get n.toFin) ∧
      (∀ j < 4, pixelAt .buf1 s (8 * (s.conf.w.toNat / 8 - 1 - c / 2) + 4 * (c % 2) + j) (s.rows - 1 - r) =
        some (if n.getLsbD (3 - j) then .off else .on)) ∧
      word .diff (r * s.wpr + c) s = .next v ∧
      s.byteAt .buf2 (2 * ((s.rows - 1 - r) * (s.conf.w.toNat / 8) + (s.conf.w.toNat / 8 - 1 - c / 2)) + (1 - c % 2)) =
        some v

/-! ### Diff and commit -/

/-- R146, R168: DIFF writes the drive byte of each nibble of each byte position, the high nibble's at `2 * p + 1`, the
low nibble's at `2 * p`, from the masks of the formulas; it changes nothing but `BUF2` and the working registers. -/
def Obligations.DiffComputesDriveBytes : Prop :=
  ∀ s : State, s.flags.initialised = true → BuffersSized s → s.conf.grey = false →
    ∃ t, exec .diff s = .next t ∧ t = { s with bufs := { s.bufs with buf2 := t.bufs.buf2 }, work := t.work } ∧
      t.bufs.buf2.offsets = s.bufs.buf2.offsets ∧
      ∀ p a b tw tb, p < s.len → s.byteAt .buf0 p = some a → s.byteAt .buf1 p = some b →
        tw = (a ^^^ b) &&& ~~~b → tb = (a ^^^ b) &&& b →
        t.byteAt .buf2 (2 * p + 1) = some (s.params.lutw.get (tw.extractLsb' 4 4).toFin &&&
          s.params.lutb.get (tb.extractLsb' 4 4).toFin) ∧
        t.byteAt .buf2 (2 * p) = some (s.params.lutw.get (tw.extractLsb' 0 4).toFin &&&
          s.params.lutb.get (tb.extractLsb' 0 4).toFin)

/-- R169: COMMIT makes `BUF0` equal to `BUF1` and changes nothing else: every pixel of the committed image (R44 on
`BUF0`) reads as the pending one did. -/
def Obligations.CommitCopiesPending : Prop :=
  ∀ s : State, s.flags.initialised = true → BuffersSized s → s.conf.grey = false →
    ∃ t, exec .commit s = .next t ∧ t = { s with bufs := { s.bufs with buf0 := s.bufs.buf1 } } ∧
      ∀ x y, pixelAt .buf0 t x y = pixelAt .buf1 s x y

/-- R170 (a) and (b), under the table constraint of R147: after a COMMIT, and whenever committed and pending are equal,
DIFF gives an all-zero drive sequence. -/
def Obligations.NoChangeNoDrive : Prop :=
  ∀ s : State, s.flags.initialised = true → BuffersSized s → s.conf.grey = false →
    s.params.lutw.get 0 &&& s.params.lutb.get 0 = 0 →
    (s.bufs.buf0 = s.bufs.buf1 →
      ∃ t, exec .diff s = .next t ∧ ∀ q < 2 * s.len, t.byteAt .buf2 q = some 0) ∧
    ∃ t u, exec .commit s = .next t ∧ exec .diff t = .next u ∧ ∀ q < 2 * s.len, u.byteAt .buf2 q = some 0

/-! ### Passes and sequences -/

/-- R120, R126: PASS makes VSCAN_START's events and then, for each row, HSCAN_START with word 0, a COL_WORD for each
further word, and VSCAN_END, where word `k` is Word of the descriptor at `k`; entered as POWER_ON leaves `CFG` (`SOF` =
1, `LE` = 0), it restores `CFG`, and it writes no buffer. R121 has `POWER` = ON as a precondition; that the same holds
with `POWER` = OFF is the model's reading (DEDUCED, unsafe, log entry 15). -/
def Obligations.PassMakesItsEvents : Prop :=
  ∀ (s : State) (d : PassDesc), s.params.valid = true → s.flags.initialised = true → BuffersSized s →
    fitsMode d s.conf.grey = true → cfgGet .sof s.cfg = true → cfgGet .le s.cfg = false →
    ∃ t, exec (.pass d) s = .next t ∧ t = { s with io := t.io, pos := t.pos, work := t.work } ∧
      t.io.trace = s.io.trace ++ passEvents s.params s.cfg (wordByte s d) s.rows s.wpr

/-- R126, R182: with sized buffers and a descriptor of the pixel mode, PASS makes `E_PASS` events (58 + H * (2 * WPR +
55) with the default VSCAN_START) and RUN_PASS one more, after which `PASS_IDX` has counted it. R121 has `POWER` = ON as
a precondition; that the same holds with `POWER` = OFF is the model's reading (DEDUCED, unsafe, log entry 15). -/
def Obligations.PassAndRunPassComplete : Prop :=
  ∀ (s : State) (d : PassDesc), s.flags.initialised = true → BuffersSized s → fitsMode d s.conf.grey = true →
    (∃ t, exec (.pass d) s = .next t ∧ t.bufs = s.bufs ∧
      t.io.trace.length = s.io.trace.length + passCount s.params s.rows s.wpr) ∧
    (∃ t, exec (.runPass d) s = .next t ∧ t.bufs = s.bufs ∧ t.pos.passIdx = s.pos.passIdx + 1 ∧
      t.io.trace.length = s.io.trace.length + (passCount s.params s.rows s.wpr + 1) ∧
      ∃ es, t.io.trace = es ++ [.delayUs 230]) ∧
    vscanCount vscanDefault = 58

/-- R183: REFRESH_FULL_MONO makes, between POWER_ON and POWER_OFF, the prelude, three `LUTB` passes, one `LUT2` pass and
one DISCHARGE pass, 13 passes in all, with the words of the state it starts in; `PUC` and `BLOCK_PARTIAL` are cleared
and `BUF0` becomes `BUF1`. Stepped alone it checks the precondition of its own rule only (DEDUCED, log entry 20). -/
def Obligations.FullMonoRefresh : Prop :=
  ∀ (s : State) (ds : List PassDesc), s.params.valid = true → s.flags.initialised = true → BuffersSized s →
    s.conf.grey = false → s.flags.power = false → cfgGet .le s.cfg = false →
    ds = s.params.preludeMono.map .const ++ [.monoLutb, .monoLutb, .monoLutb, .monoLut2, .const .discharge] →
    ∃ t, exec .refreshFullMono s = .next t ∧
      t.io.trace = s.io.trace ++ sequenceEvents s.params s.cfg ds (wordByte s) s.rows s.wpr ∧
      t.io.trace.length = s.io.trace.length + (118 + 13 * (passCount s.params s.rows s.wpr + 1) + 118) ∧
      t.bufs = { s.bufs with buf0 := s.bufs.buf1 } ∧ t.puc = 0 ∧
      t.flags = { s.flags with blockPartial := false } ∧ t.conf = s.conf ∧
      t.pos = { seq := .none, passIdx := 0, phase := .idle, row := 0, col := 0 }

/-- R184: REFRESH_PARTIAL runs DIFF, five passes of its output, two DISCHARGE passes and one SKIP pass, 8 passes in all;
`BUF0` becomes `BUF1`, `PUC` is incremented, `BLOCK_PARTIAL` is not written. `u` is the state DIFF alone leads to, whose
`BUF2` the passes send. Stepped alone it checks the precondition of its own rule only (DEDUCED, log entry 20). -/
def Obligations.PartialRefresh : Prop :=
  ∀ (s : State) (ds : List PassDesc), s.params.valid = true → s.flags.initialised = true → BuffersSized s →
    s.conf.grey = false → s.conf.partialEn = true → s.flags.blockPartial = false → s.flags.power = false →
    cfgGet .le s.cfg = false →
    ds = [.diff, .diff, .diff, .diff, .diff, .const .discharge, .const .discharge, .const .skip] →
    ∃ u t, exec .diff s = .next u ∧ exec .refreshPartial s = .next t ∧
      t.io.trace = s.io.trace ++ sequenceEvents s.params s.cfg ds (wordByte u) s.rows s.wpr ∧
      t.io.trace.length = s.io.trace.length + (118 + 8 * (passCount s.params s.rows s.wpr + 1) + 118) ∧
      t.bufs = { u.bufs with buf0 := s.bufs.buf1 } ∧ t.puc = s.puc + 1 ∧ t.flags = s.flags ∧ t.conf = s.conf ∧
      t.pos = { seq := .none, passIdx := 0, phase := .idle, row := 0, col := 0 }

/-- R149, R185: REFRESH_GREY runs its prelude, the eight subframes in ascending order, DISCHARGE and SKIP; no buffer,
counter or block flag changes. Stepped alone it checks the precondition of its own rule only (DEDUCED, log entry 20). -/
def Obligations.GreyRefresh : Prop :=
  ∀ (s : State) (ds : List PassDesc), s.params.valid = true → s.flags.initialised = true → BuffersSized s →
    s.conf.grey = true → s.flags.power = false → cfgGet .le s.cfg = false →
    ds = s.params.preludeGrey.map .const ++ [.grey 0, .grey 1, .grey 2, .grey 3, .grey 4, .grey 5, .grey 6, .grey 7,
      .const .discharge, .const .skip] →
    ∃ t, exec .refreshGrey s = .next t ∧
      t.io.trace = s.io.trace ++ sequenceEvents s.params s.cfg ds (wordByte s) s.rows s.wpr ∧
      t.io.trace.length = s.io.trace.length +
        (118 + (s.params.preludeGrey.length + 10) * (passCount s.params s.rows s.wpr + 1) + 118) ∧
      t.bufs = s.bufs ∧ t.puc = s.puc ∧ t.flags = s.flags ∧ t.conf = s.conf ∧
      t.pos = { seq := .none, passIdx := 0, phase := .idle, row := 0, col := 0 }

/-- R188: CLEAN runs the constant passes of `CLEAN_SEQ` between POWER_ON and POWER_OFF, in either pixel mode; no buffer,
counter or flag is left changed. -/
def Obligations.CleanSequence : Prop :=
  ∀ s : State, s.params.valid = true → Ready s → BuffersSized s → s.flags.power = false → cfgGet .le s.cfg = false →
    ∃ t, exec .clean s = .next t ∧
      t.io.trace = s.io.trace ++ sequenceEvents s.params s.cfg (s.params.cleanSeq.map .const)
        (fun d _ => match d with
          | .const .white => s.params.dataWhite
          | .const .black => s.params.dataBlack
          | .const .discharge => s.params.dataDischarge
          | .const .skip => s.params.dataSkip
          | _ => 0) s.rows s.wpr ∧
      t.io.trace.length = s.io.trace.length +
        (118 + s.params.cleanSeq.length * (passCount s.params s.rows s.wpr + 1) + 118) ∧
      t.bufs = s.bufs ∧ t.puc = s.puc ∧ t.flags = s.flags ∧ t.conf = s.conf ∧
      t.pos = { seq := .none, passIdx := 0, phase := .idle, row := 0, col := 0 }

/-- R180, R189: REFRESH runs the greyscale, the partial or the full monochrome sequence, by `GREY`, `PARTIAL_EN` and
`BLOCK_PARTIAL` alone, and then sets `BLOCK_PARTIAL` exactly when `FUE > 0` and `PUC >= FUE`. -/
def Obligations.RefreshDispatch : Prop :=
  ∀ s : State, Ready s → BuffersSized s →
    ∃ t, (if s.conf.grey then exec .refreshGrey s
          else if s.conf.partialEn = true ∧ s.flags.blockPartial = false then exec .refreshPartial s
          else exec .refreshFullMono s) = .next t ∧
      exec .refresh s = .next (if 0 < t.conf.fue.toNat ∧ t.conf.fue.toNat ≤ t.puc.toNat
        then { t with flags := { t.flags with blockPartial := true } } else t)

/-- R189 (b), S5: with `FUE = N > 0` and partial updating enabled, from the state a full refresh leaves, `N` refreshes
are partial, the counter counting them and the flag set by the `N`-th, and the next one is full and clears both. -/
def Obligations.FullRefreshForcedAfterFuePartials : Prop :=
  ∀ (s : State) (n : Nat), Ready s → BuffersSized s → s.conf.grey = false → s.conf.partialEn = true →
    s.conf.fue.toNat = n → 0 < n → s.puc = 0 → s.flags.blockPartial = false →
    (∀ j ≤ n, ∃ t, execTimes .refresh j s = .next t ∧ t.puc.toNat = j ∧
      (t.flags.blockPartial = true ↔ j = n)) ∧
    ∃ t, execTimes .refresh (n + 1) s = .next t ∧ t.puc = 0 ∧ t.flags.blockPartial = false

/-- R188 and P1, P4: what a full monochrome refresh does to the pins does not depend on the committed image or the diff
buffer, and what CLEAN does depends on no buffer. -/
def Obligations.PinsIndependentOfUnreadBuffers : Prop :=
  (∀ (s t t' : State) (m0 m2 : Memory), exec .refreshFullMono s = .next t →
    exec .refreshFullMono { s with bufs := { s.bufs with buf0 := m0, buf2 := m2 } } = .next t' → t'.io = t.io) ∧
  ∀ (s t t' : State) (b : Buffers), exec .clean s = .next t → exec .clean { s with bufs := b } = .next t' →
    t'.io = t.io

/-! ### Frames -/

/-- A pass descriptor as an instruction writes `DRV` and nothing else. R12 names Word as the writer of `DRV`; that
stepping a descriptor loads it is the model's reading (DEDUCED, log entry 11), and Word itself writes nothing (R145). A
`KW` at or beyond `H * WPR`, outside R145's domain, is covered too (log entry 14). -/
def Obligations.DescriptorFrame : Prop :=
  ∀ (i : Instr) (s t : State), descriptors i → exec i s = .next t →
    t = { s with work := { s.work with drv := t.work.drv } } ∧ ∀ b p, t.byteAt b p = s.byteAt b p

/-- R100, R116, R122 to R127, R181, R182: CFG_PUSH, POWER_ON, POWER_OFF, the scan operations, SETTLE, IDLE, PASS and
RUN_PASS touch no configuration register, counter, buffer, sequence name or input, no flag but `POWER`, no `CFG` field
but those named for them, not the latch of `PANEL_EN`, and only the two power operations touch `POWER` and the
directions. That IDLE sets `PHASE` and nothing else is the model's reading (DEDUCED, log entry 23): R76 gives it no
rule. R121 has `POWER` = ON as a precondition of the scan operations and PASS; that the same holds with `POWER` = OFF is
the model's reading (DEDUCED, unsafe, log entry 15). That the operations can be stepped alone is the model's choice (log
entry 9). -/
def Obligations.PinOperationFrame : Prop :=
  ∀ (i : Instr) (s t : State), pinOperations i → exec i s = .next t →
    t.params = s.params ∧ t.conf = s.conf ∧ t.puc = s.puc ∧ t.bufs = s.bufs ∧ t.port = s.port ∧ t.draws = s.draws ∧
    t.pos.seq = s.pos.seq ∧ (∀ b p, t.byteAt b p = s.byteAt b p) ∧
    t.flags = { s.flags with power := t.flags.power } ∧
    (i ≠ .powerOn → i ≠ .powerOff → t.flags = s.flags ∧ t.io.dir = s.io.dir) ∧
    (∀ f, f ∉ fieldsWritten i → cfgGet f t.cfg = cfgGet f s.cfg) ∧
    t.io.latch.get .panelEn = s.io.latch.get .panelEn

/-- R48, R164, R167, R168, R169: SET_PIXEL, FILL, DIFF and COMMIT store only to the bytes named, and touch nothing but
the buffers (DIFF also its working registers). -/
def Obligations.BufferOperationFrame : Prop :=
  ∀ s t : State,
    (∀ x y c, exec (.setPixel x y c) s = .next t → t = { s with bufs := t.bufs } ∧
      ∀ b q, pixelStore s x y ≠ some (b, q) → t.byteAt b q = s.byteAt b q) ∧
    (∀ c, exec (.fill c) s = .next t → t = { s with bufs := t.bufs } ∧
      ∀ b q, (b = drawBuffer s → s.len ≤ q) → t.byteAt b q = s.byteAt b q) ∧
    (exec .diff s = .next t →
      t = { s with bufs := t.bufs, work := { s.work with
        pos := t.work.pos, n := t.work.n, tw := t.work.tw, tb := t.work.tb } } ∧
      ∀ b q, (b = .buf2 → 2 * s.len ≤ q) → t.byteAt b q = s.byteAt b q) ∧
    (exec .commit s = .next t → t = { s with bufs := t.bufs } ∧
      ∀ b q, (b = .buf0 → s.len ≤ q) → t.byteAt b q = s.byteAt b q)

/-- R183 to R188, stepped alone also (log entry 20): the sequences, REFRESH and CLEAN keep the configuration, the
inputs, `INITIALISED` and `FAILED`, and every byte of `BUF1`; CLEAN and the greyscale refresh keep every byte and the
counter, CLEAN and the greyscale sequence also `BLOCK_PARTIAL`; the full monochrome refresh keeps `BUF2`; no byte past
`LEN` of `BUF0` or `2 * LEN` of `BUF2` changes. -/
def Obligations.SequenceFrame : Prop :=
  ∀ (i : Instr) (s t : State), i ∈ [Instr.clean, .refresh, .refreshFullMono, .refreshPartial, .refreshGrey] →
    exec i s = .next t →
    t.params = s.params ∧ t.conf = s.conf ∧ t.port = s.port ∧ t.flags.initialised = s.flags.initialised ∧
    t.flags.failed = s.flags.failed ∧ (∀ p, t.byteAt .buf1 p = s.byteAt .buf1 p) ∧
    (i = .clean ∨ i = .refreshGrey ∨ (i = .refresh ∧ s.conf.grey = true) →
      t.puc = s.puc ∧ ∀ b p, t.byteAt b p = s.byteAt b p) ∧
    (i = .clean ∨ i = .refreshGrey → t.flags.blockPartial = s.flags.blockPartial) ∧
    (i = .refreshFullMono → ∀ p, t.byteAt .buf2 p = s.byteAt .buf2 p) ∧
    (∀ q, s.len ≤ q → t.byteAt .buf0 q = s.byteAt .buf0 q) ∧
    ∀ q, 2 * s.len ≤ q → t.byteAt .buf2 q = s.byteAt .buf2 q

/-- R162, R201: INIT keeps `CFG`, `POWER`, the position, the working registers, the parameters and the inputs; a failing
or ignored INIT keeps the configuration registers, the counter and the pins; an unchanged geometry keeps every byte. -/
def Obligations.InitFrame : Prop :=
  ∀ (s t : State) (w h : BitVec 16) (g p : Bool) (fue : BitVec 16), exec (.init w h g p fue) s = .next t →
    t.params = s.params ∧ t.cfg = s.cfg ∧ t.flags.power = s.flags.power ∧ t.pos = s.pos ∧ t.work = s.work ∧
    t.port = s.port ∧
    (t.flags.failed = true → t.conf = s.conf ∧ t.puc = s.puc ∧ t.io = s.io) ∧
    (s.flags.initialised = true → s.conf.w = w → s.conf.h = h → s.conf.grey = g →
      ∀ b q, t.byteAt b q = s.byteAt b q)
end

