-- ==== Sys2Proof/Laws/Outcome.lean ====
section
/-! SUPPORT. The laws of outcomes in sequence and of counted loops. -/

namespace Sys2Proof.Machine

@[simp] theorem andThen_next {α β : Type} (a : α) (f : α → Result β) : andThen (.next a) f = f a := rfl

@[simp] theorem andThen_fault {α β : Type} (e : Fault) (f : α → Result β) : andThen (.fault e) f = .fault e := rfl

@[simp] theorem andThen_refused {α β : Type} (e : Refusal) (f : α → Result β) :
    andThen (.refused e) f = .refused e := rfl

/-- A sequence answers a next state exactly when both parts do. -/
theorem andThen_eq_next {α β : Type} {r : Result α} {f : α → Result β} {b : β} :
    andThen r f = .next b ↔ ∃ a, r = .next a ∧ f a = .next b := by
  cases r <;> simp

theorem andThen_assoc {α β γ : Type} (r : Result α) (f : α → Result β) (g : β → Result γ) :
    andThen (andThen r f) g = andThen r fun a => andThen (f a) g := by
  cases r <;> rfl

@[simp] theorem forUp_zero (body : Nat → State → Result State) (first : Nat) (s : State) :
    forUp body 0 first s = .next s := rfl

theorem forUp_succ (body : Nat → State → Result State) (n first : Nat) (s : State) :
    forUp body (n + 1) first s = andThen (body first s) (forUp body n (first + 1)) := rfl

/-- A reflexive and transitive relation that every turn of a loop keeps, the whole loop keeps. -/
theorem forUp_rel {R : State → State → Prop} (refl : ∀ s, R s s) (trans : ∀ {a b c}, R a b → R b c → R a c)
    {body : Nat → State → Result State} (h : ∀ i s t, body i s = .next t → R s t) :
    ∀ {n first : Nat} {s t : State}, forUp body n first s = .next t → R s t := by
  intro n
  induction n with
  | zero =>
    intro first s t e
    cases e
    exact refl _
  | succ n ih =>
    intro first s t e
    rw [forUp_succ, andThen_eq_next] at e
    obtain ⟨u, hu, e⟩ := e
    exact trans (h _ _ _ hu) (ih e)

/-- The same with the turn's index within its bounds. -/
theorem forUp_rel_within {R : State → State → Prop} (refl : ∀ s, R s s) (trans : ∀ {a b c}, R a b → R b c → R a c)
    {body : Nat → State → Result State} :
    ∀ {n first : Nat} {s t : State}, (∀ i a b, first ≤ i → i < first + n → R s a → body i a = .next b → R a b) →
      forUp body n first s = .next t → R s t := by
  intro n
  induction n with
  | zero =>
    intro first s t _ e
    cases e
    exact refl _
  | succ n ih =>
    intro first s t h e
    rw [forUp_succ, andThen_eq_next] at e
    obtain ⟨u, hu, e⟩ := e
    have hsu := h _ _ _ (le_refl _) (by omega) (refl _) hu
    exact trans hsu (ih (fun i a b h1 h2 ha hb => h i a b (by omega) (by omega) (trans hsu ha) hb) e)

/-- A loop completes when each turn does under an invariant indexed by the turn, and the invariant holds at the end. -/
theorem forUp_total {P : Nat → State → Prop} {body : Nat → State → Result State} :
    ∀ {n first : Nat} {s : State},
      (∀ i t, first ≤ i → i < first + n → P i t → ∃ u, body i t = .next u ∧ P (i + 1) u) →
      P first s → ∃ t, forUp body n first s = .next t ∧ P (first + n) t := by
  intro n
  induction n with
  | zero => exact fun _ h => ⟨_, rfl, h⟩
  | succ n ih =>
    intro first s h hs
    obtain ⟨u, hu, hP⟩ := h first s (le_refl _) (by omega) hs
    obtain ⟨t, ht, hQ⟩ := ih (first := first + 1) (s := u) (fun i t' h1 h2 => h i t' (by omega) (by omega)) hP
    refine ⟨t, ?_, ?_⟩
    · rw [forUp_succ, hu]
      exact ht
    · rwa [Nat.add_assoc, Nat.add_comm 1 n] at hQ

/-- Two loops whose turns agree under an invariant agree. -/
theorem forUp_congr {P : Nat → State → Prop} {f g : Nat → State → Result State} :
    ∀ {n first : Nat} {s : State},
      (∀ i t, first ≤ i → i < first + n → P i t → f i t = g i t ∧ ∀ u, g i t = .next u → P (i + 1) u) →
      P first s → forUp f n first s = forUp g n first s := by
  intro n
  induction n with
  | zero => exact fun _ _ => rfl
  | succ n ih =>
    intro first s h hs
    obtain ⟨e, k⟩ := h first s (le_refl _) (by omega) hs
    rw [forUp_succ, forUp_succ, e]
    cases hg : g first s with
    | next u =>
      simp only [andThen_next]
      exact ih (fun i t h1 h2 => h i t (by omega) (by omega)) (k u hg)
    | fault _ => rfl
    | refused _ => rfl

end Sys2Proof.Machine
end

