-- ==== Sys2Proof/Laws/State.lean ====
section
/-! SUPPORT. One law per field per update of State: what an update writes and what it keeps. -/

namespace Sys2Proof.Machine

/-! ### push -/

@[simp] theorem State.push_params (s : State) : (s.push).params = s.params := by
  unfold State.push; rfl
@[simp] theorem State.push_conf (s : State) : (s.push).conf = s.conf := by
  unfold State.push; rfl
@[simp] theorem State.push_flags (s : State) : (s.push).flags = s.flags := by
  unfold State.push; rfl
@[simp] theorem State.push_puc (s : State) : (s.push).puc = s.puc := by
  unfold State.push; rfl
@[simp] theorem State.push_cfg (s : State) : (s.push).cfg = s.cfg := by
  unfold State.push; rfl
@[simp] theorem State.push_bufs (s : State) : (s.push).bufs = s.bufs := by
  unfold State.push; rfl
@[simp] theorem State.push_io (s : State) : (s.push).io = s.io.push s.cfg := by
  unfold State.push; rfl
@[simp] theorem State.push_pos (s : State) : (s.push).pos = s.pos := by
  unfold State.push; rfl
@[simp] theorem State.push_work (s : State) : (s.push).work = s.work := by
  unfold State.push; rfl
@[simp] theorem State.push_port (s : State) : (s.push).port = s.port := by
  unfold State.push; rfl
@[simp] theorem State.push_draws (s : State) : (s.push).draws = s.draws := by
  unfold State.push; rfl

/-! ### apply -/

@[simp] theorem State.apply_params (f : CfgField) (v : Bool) (s : State) :
    (s.apply f v).params =
      s.params := by
  unfold State.apply State.push; rfl
@[simp] theorem State.apply_conf (f : CfgField) (v : Bool) (s : State) : (s.apply f v).conf = s.conf := by
  unfold State.apply State.push; rfl
@[simp] theorem State.apply_flags (f : CfgField) (v : Bool) (s : State) : (s.apply f v).flags = s.flags := by
  unfold State.apply State.push; rfl
@[simp] theorem State.apply_puc (f : CfgField) (v : Bool) (s : State) : (s.apply f v).puc = s.puc := by
  unfold State.apply State.push; rfl
@[simp] theorem State.apply_cfg (f : CfgField) (v : Bool) (s : State) :
    (s.apply f v).cfg =
      cfgSet f v s.cfg := by
  unfold State.apply State.push; rfl
@[simp] theorem State.apply_bufs (f : CfgField) (v : Bool) (s : State) : (s.apply f v).bufs = s.bufs := by
  unfold State.apply State.push; rfl
@[simp] theorem State.apply_io (f : CfgField) (v : Bool) (s : State) :
    (s.apply f v).io =
      s.io.push (cfgSet f v s.cfg) := by
  unfold State.apply State.push; rfl
@[simp] theorem State.apply_pos (f : CfgField) (v : Bool) (s : State) : (s.apply f v).pos = s.pos := by
  unfold State.apply State.push; rfl
@[simp] theorem State.apply_work (f : CfgField) (v : Bool) (s : State) : (s.apply f v).work = s.work := by
  unfold State.apply State.push; rfl
@[simp] theorem State.apply_port (f : CfgField) (v : Bool) (s : State) : (s.apply f v).port = s.port := by
  unfold State.apply State.push; rfl
@[simp] theorem State.apply_draws (f : CfgField) (v : Bool) (s : State) : (s.apply f v).draws = s.draws := by
  unfold State.apply State.push; rfl

/-! ### clearDirAndPd -/

@[simp] theorem clearDirAndPd_params (s : State) : (clearDirAndPd s).params = s.params := by
  unfold clearDirAndPd State.push; rfl
@[simp] theorem clearDirAndPd_conf (s : State) : (clearDirAndPd s).conf = s.conf := by
  unfold clearDirAndPd State.push; rfl
@[simp] theorem clearDirAndPd_flags (s : State) : (clearDirAndPd s).flags = s.flags := by
  unfold clearDirAndPd State.push; rfl
@[simp] theorem clearDirAndPd_puc (s : State) : (clearDirAndPd s).puc = s.puc := by
  unfold clearDirAndPd State.push; rfl
@[simp] theorem clearDirAndPd_cfg (s : State) :
    (clearDirAndPd s).cfg =
      cfgSet .pd false (cfgSet .dir false s.cfg) := by
  unfold clearDirAndPd State.push; rfl
@[simp] theorem clearDirAndPd_bufs (s : State) : (clearDirAndPd s).bufs = s.bufs := by
  unfold clearDirAndPd State.push; rfl
@[simp] theorem clearDirAndPd_io (s : State) :
    (clearDirAndPd s).io =
      s.io.push (cfgSet .pd false (cfgSet .dir false s.cfg)) := by
  unfold clearDirAndPd State.push; rfl
@[simp] theorem clearDirAndPd_pos (s : State) : (clearDirAndPd s).pos = s.pos := by
  unfold clearDirAndPd State.push; rfl
@[simp] theorem clearDirAndPd_work (s : State) : (clearDirAndPd s).work = s.work := by
  unfold clearDirAndPd State.push; rfl
@[simp] theorem clearDirAndPd_port (s : State) : (clearDirAndPd s).port = s.port := by
  unfold clearDirAndPd State.push; rfl
@[simp] theorem clearDirAndPd_draws (s : State) : (clearDirAndPd s).draws = s.draws := by
  unfold clearDirAndPd State.push; rfl

/-! ### pinWrite -/

@[simp] theorem State.pinWrite_params (l : Line) (v : Bool) (s : State) : (s.pinWrite l v).params = s.params := by
  unfold State.pinWrite; rfl
@[simp] theorem State.pinWrite_conf (l : Line) (v : Bool) (s : State) : (s.pinWrite l v).conf = s.conf := by
  unfold State.pinWrite; rfl
@[simp] theorem State.pinWrite_flags (l : Line) (v : Bool) (s : State) : (s.pinWrite l v).flags = s.flags := by
  unfold State.pinWrite; rfl
@[simp] theorem State.pinWrite_puc (l : Line) (v : Bool) (s : State) : (s.pinWrite l v).puc = s.puc := by
  unfold State.pinWrite; rfl
@[simp] theorem State.pinWrite_cfg (l : Line) (v : Bool) (s : State) : (s.pinWrite l v).cfg = s.cfg := by
  unfold State.pinWrite; rfl
@[simp] theorem State.pinWrite_bufs (l : Line) (v : Bool) (s : State) : (s.pinWrite l v).bufs = s.bufs := by
  unfold State.pinWrite; rfl
@[simp] theorem State.pinWrite_io (l : Line) (v : Bool) (s : State) : (s.pinWrite l v).io = s.io.pinWrite l v := by
  unfold State.pinWrite; rfl
@[simp] theorem State.pinWrite_pos (l : Line) (v : Bool) (s : State) : (s.pinWrite l v).pos = s.pos := by
  unfold State.pinWrite; rfl
@[simp] theorem State.pinWrite_work (l : Line) (v : Bool) (s : State) : (s.pinWrite l v).work = s.work := by
  unfold State.pinWrite; rfl
@[simp] theorem State.pinWrite_port (l : Line) (v : Bool) (s : State) : (s.pinWrite l v).port = s.port := by
  unfold State.pinWrite; rfl
@[simp] theorem State.pinWrite_draws (l : Line) (v : Bool) (s : State) : (s.pinWrite l v).draws = s.draws := by
  unfold State.pinWrite; rfl

/-! ### pinDirs -/

@[simp] theorem State.pinDirs_params (d : Dir) (ls : List Line) (s : State) : (s.pinDirs d ls).params = s.params := by
  unfold State.pinDirs; rfl
@[simp] theorem State.pinDirs_conf (d : Dir) (ls : List Line) (s : State) : (s.pinDirs d ls).conf = s.conf := by
  unfold State.pinDirs; rfl
@[simp] theorem State.pinDirs_flags (d : Dir) (ls : List Line) (s : State) : (s.pinDirs d ls).flags = s.flags := by
  unfold State.pinDirs; rfl
@[simp] theorem State.pinDirs_puc (d : Dir) (ls : List Line) (s : State) : (s.pinDirs d ls).puc = s.puc := by
  unfold State.pinDirs; rfl
@[simp] theorem State.pinDirs_cfg (d : Dir) (ls : List Line) (s : State) : (s.pinDirs d ls).cfg = s.cfg := by
  unfold State.pinDirs; rfl
@[simp] theorem State.pinDirs_bufs (d : Dir) (ls : List Line) (s : State) : (s.pinDirs d ls).bufs = s.bufs := by
  unfold State.pinDirs; rfl
@[simp] theorem State.pinDirs_io (d : Dir) (ls : List Line) (s : State) :
    (s.pinDirs d ls).io =
      s.io.forLines (Io.pinDir d) ls := by
  unfold State.pinDirs; rfl
@[simp] theorem State.pinDirs_pos (d : Dir) (ls : List Line) (s : State) : (s.pinDirs d ls).pos = s.pos := by
  unfold State.pinDirs; rfl
@[simp] theorem State.pinDirs_work (d : Dir) (ls : List Line) (s : State) : (s.pinDirs d ls).work = s.work := by
  unfold State.pinDirs; rfl
@[simp] theorem State.pinDirs_port (d : Dir) (ls : List Line) (s : State) : (s.pinDirs d ls).port = s.port := by
  unfold State.pinDirs; rfl
@[simp] theorem State.pinDirs_draws (d : Dir) (ls : List Line) (s : State) : (s.pinDirs d ls).draws = s.draws := by
  unfold State.pinDirs; rfl

/-! ### portSet -/

@[simp] theorem State.portSet_params (m : PortWord) (s : State) : (s.portSet m).params = s.params := by
  unfold State.portSet; rfl
@[simp] theorem State.portSet_conf (m : PortWord) (s : State) : (s.portSet m).conf = s.conf := by
  unfold State.portSet; rfl
@[simp] theorem State.portSet_flags (m : PortWord) (s : State) : (s.portSet m).flags = s.flags := by
  unfold State.portSet; rfl
@[simp] theorem State.portSet_puc (m : PortWord) (s : State) : (s.portSet m).puc = s.puc := by
  unfold State.portSet; rfl
@[simp] theorem State.portSet_cfg (m : PortWord) (s : State) : (s.portSet m).cfg = s.cfg := by
  unfold State.portSet; rfl
@[simp] theorem State.portSet_bufs (m : PortWord) (s : State) : (s.portSet m).bufs = s.bufs := by
  unfold State.portSet; rfl
@[simp] theorem State.portSet_io (m : PortWord) (s : State) : (s.portSet m).io = s.io.portSet s.params.pinmap m := by
  unfold State.portSet; rfl
@[simp] theorem State.portSet_pos (m : PortWord) (s : State) : (s.portSet m).pos = s.pos := by
  unfold State.portSet; rfl
@[simp] theorem State.portSet_work (m : PortWord) (s : State) : (s.portSet m).work = s.work := by
  unfold State.portSet; rfl
@[simp] theorem State.portSet_port (m : PortWord) (s : State) : (s.portSet m).port = s.port := by
  unfold State.portSet; rfl
@[simp] theorem State.portSet_draws (m : PortWord) (s : State) : (s.portSet m).draws = s.draws := by
  unfold State.portSet; rfl

/-! ### portClear -/

@[simp] theorem State.portClear_params (m : PortWord) (s : State) : (s.portClear m).params = s.params := by
  unfold State.portClear; rfl
@[simp] theorem State.portClear_conf (m : PortWord) (s : State) : (s.portClear m).conf = s.conf := by
  unfold State.portClear; rfl
@[simp] theorem State.portClear_flags (m : PortWord) (s : State) : (s.portClear m).flags = s.flags := by
  unfold State.portClear; rfl
@[simp] theorem State.portClear_puc (m : PortWord) (s : State) : (s.portClear m).puc = s.puc := by
  unfold State.portClear; rfl
@[simp] theorem State.portClear_cfg (m : PortWord) (s : State) : (s.portClear m).cfg = s.cfg := by
  unfold State.portClear; rfl
@[simp] theorem State.portClear_bufs (m : PortWord) (s : State) : (s.portClear m).bufs = s.bufs := by
  unfold State.portClear; rfl
@[simp] theorem State.portClear_io (m : PortWord) (s : State) :
    (s.portClear m).io =
      s.io.portClear s.params.pinmap m := by
  unfold State.portClear; rfl
@[simp] theorem State.portClear_pos (m : PortWord) (s : State) : (s.portClear m).pos = s.pos := by
  unfold State.portClear; rfl
@[simp] theorem State.portClear_work (m : PortWord) (s : State) : (s.portClear m).work = s.work := by
  unfold State.portClear; rfl
@[simp] theorem State.portClear_port (m : PortWord) (s : State) : (s.portClear m).port = s.port := by
  unfold State.portClear; rfl
@[simp] theorem State.portClear_draws (m : PortWord) (s : State) : (s.portClear m).draws = s.draws := by
  unfold State.portClear; rfl

/-! ### delay -/

@[simp] theorem State.delay_params (e : Event) (s : State) : (s.delay e).params = s.params := by
  unfold State.delay; rfl
@[simp] theorem State.delay_conf (e : Event) (s : State) : (s.delay e).conf = s.conf := by
  unfold State.delay; rfl
@[simp] theorem State.delay_flags (e : Event) (s : State) : (s.delay e).flags = s.flags := by
  unfold State.delay; rfl
@[simp] theorem State.delay_puc (e : Event) (s : State) : (s.delay e).puc = s.puc := by
  unfold State.delay; rfl
@[simp] theorem State.delay_cfg (e : Event) (s : State) : (s.delay e).cfg = s.cfg := by
  unfold State.delay; rfl
@[simp] theorem State.delay_bufs (e : Event) (s : State) : (s.delay e).bufs = s.bufs := by
  unfold State.delay; rfl
@[simp] theorem State.delay_io (e : Event) (s : State) : (s.delay e).io = s.io.emit e := by
  unfold State.delay; rfl
@[simp] theorem State.delay_pos (e : Event) (s : State) : (s.delay e).pos = s.pos := by
  unfold State.delay; rfl
@[simp] theorem State.delay_work (e : Event) (s : State) : (s.delay e).work = { s.work with dly := 0 } := by
  unfold State.delay; rfl
@[simp] theorem State.delay_port (e : Event) (s : State) : (s.delay e).port = s.port := by
  unfold State.delay; rfl
@[simp] theorem State.delay_draws (e : Event) (s : State) : (s.delay e).draws = s.draws := by
  unfold State.delay; rfl

/-! ### delayUnits -/

@[simp] theorem State.delayUnits_params (n : Nat) (s : State) : (s.delayUnits n).params = s.params := by
  unfold State.delayUnits State.delay; rfl
@[simp] theorem State.delayUnits_conf (n : Nat) (s : State) : (s.delayUnits n).conf = s.conf := by
  unfold State.delayUnits State.delay; rfl
@[simp] theorem State.delayUnits_flags (n : Nat) (s : State) : (s.delayUnits n).flags = s.flags := by
  unfold State.delayUnits State.delay; rfl
@[simp] theorem State.delayUnits_puc (n : Nat) (s : State) : (s.delayUnits n).puc = s.puc := by
  unfold State.delayUnits State.delay; rfl
@[simp] theorem State.delayUnits_cfg (n : Nat) (s : State) : (s.delayUnits n).cfg = s.cfg := by
  unfold State.delayUnits State.delay; rfl
@[simp] theorem State.delayUnits_bufs (n : Nat) (s : State) : (s.delayUnits n).bufs = s.bufs := by
  unfold State.delayUnits State.delay; rfl
@[simp] theorem State.delayUnits_io (n : Nat) (s : State) :
    (s.delayUnits n).io =
      s.io.emit (.delayUnits n) := by
  unfold State.delayUnits State.delay; rfl
@[simp] theorem State.delayUnits_pos (n : Nat) (s : State) : (s.delayUnits n).pos = s.pos := by
  unfold State.delayUnits State.delay; rfl
@[simp] theorem State.delayUnits_work (n : Nat) (s : State) :
    (s.delayUnits n).work =
      { s.work with dly := 0 } := by
  unfold State.delayUnits State.delay; rfl
@[simp] theorem State.delayUnits_port (n : Nat) (s : State) : (s.delayUnits n).port = s.port := by
  unfold State.delayUnits State.delay; rfl
@[simp] theorem State.delayUnits_draws (n : Nat) (s : State) : (s.delayUnits n).draws = s.draws := by
  unfold State.delayUnits State.delay; rfl

/-! ### delayUs -/

@[simp] theorem State.delayUs_params (n : Nat) (s : State) : (s.delayUs n).params = s.params := by
  unfold State.delayUs State.delay; rfl
@[simp] theorem State.delayUs_conf (n : Nat) (s : State) : (s.delayUs n).conf = s.conf := by
  unfold State.delayUs State.delay; rfl
@[simp] theorem State.delayUs_flags (n : Nat) (s : State) : (s.delayUs n).flags = s.flags := by
  unfold State.delayUs State.delay; rfl
@[simp] theorem State.delayUs_puc (n : Nat) (s : State) : (s.delayUs n).puc = s.puc := by
  unfold State.delayUs State.delay; rfl
@[simp] theorem State.delayUs_cfg (n : Nat) (s : State) : (s.delayUs n).cfg = s.cfg := by
  unfold State.delayUs State.delay; rfl
@[simp] theorem State.delayUs_bufs (n : Nat) (s : State) : (s.delayUs n).bufs = s.bufs := by
  unfold State.delayUs State.delay; rfl
@[simp] theorem State.delayUs_io (n : Nat) (s : State) : (s.delayUs n).io = s.io.emit (.delayUs n) := by
  unfold State.delayUs State.delay; rfl
@[simp] theorem State.delayUs_pos (n : Nat) (s : State) : (s.delayUs n).pos = s.pos := by
  unfold State.delayUs State.delay; rfl
@[simp] theorem State.delayUs_work (n : Nat) (s : State) :
    (s.delayUs n).work =
      { s.work with dly := 0 } := by
  unfold State.delayUs State.delay; rfl
@[simp] theorem State.delayUs_port (n : Nat) (s : State) : (s.delayUs n).port = s.port := by
  unfold State.delayUs State.delay; rfl
@[simp] theorem State.delayUs_draws (n : Nat) (s : State) : (s.delayUs n).draws = s.draws := by
  unfold State.delayUs State.delay; rfl

/-! ### setPhase -/

@[simp] theorem State.setPhase_params (p : Phase) (s : State) : (s.setPhase p).params = s.params := by
  unfold State.setPhase; rfl
@[simp] theorem State.setPhase_conf (p : Phase) (s : State) : (s.setPhase p).conf = s.conf := by
  unfold State.setPhase; rfl
@[simp] theorem State.setPhase_flags (p : Phase) (s : State) : (s.setPhase p).flags = s.flags := by
  unfold State.setPhase; rfl
@[simp] theorem State.setPhase_puc (p : Phase) (s : State) : (s.setPhase p).puc = s.puc := by
  unfold State.setPhase; rfl
@[simp] theorem State.setPhase_cfg (p : Phase) (s : State) : (s.setPhase p).cfg = s.cfg := by
  unfold State.setPhase; rfl
@[simp] theorem State.setPhase_bufs (p : Phase) (s : State) : (s.setPhase p).bufs = s.bufs := by
  unfold State.setPhase; rfl
@[simp] theorem State.setPhase_io (p : Phase) (s : State) : (s.setPhase p).io = s.io := by
  unfold State.setPhase; rfl
@[simp] theorem State.setPhase_pos (p : Phase) (s : State) : (s.setPhase p).pos = { s.pos with phase := p } := by
  unfold State.setPhase; rfl
@[simp] theorem State.setPhase_work (p : Phase) (s : State) : (s.setPhase p).work = s.work := by
  unfold State.setPhase; rfl
@[simp] theorem State.setPhase_port (p : Phase) (s : State) : (s.setPhase p).port = s.port := by
  unfold State.setPhase; rfl
@[simp] theorem State.setPhase_draws (p : Phase) (s : State) : (s.setPhase p).draws = s.draws := by
  unfold State.setPhase; rfl

/-! ### endSequence -/

@[simp] theorem State.endSequence_params (s : State) : (s.endSequence).params = s.params := by
  unfold State.endSequence; rfl
@[simp] theorem State.endSequence_conf (s : State) : (s.endSequence).conf = s.conf := by
  unfold State.endSequence; rfl
@[simp] theorem State.endSequence_flags (s : State) : (s.endSequence).flags = s.flags := by
  unfold State.endSequence; rfl
@[simp] theorem State.endSequence_puc (s : State) : (s.endSequence).puc = s.puc := by
  unfold State.endSequence; rfl
@[simp] theorem State.endSequence_cfg (s : State) : (s.endSequence).cfg = s.cfg := by
  unfold State.endSequence; rfl
@[simp] theorem State.endSequence_bufs (s : State) : (s.endSequence).bufs = s.bufs := by
  unfold State.endSequence; rfl
@[simp] theorem State.endSequence_io (s : State) : (s.endSequence).io = s.io := by
  unfold State.endSequence; rfl
@[simp] theorem State.endSequence_pos (s : State) : (s.endSequence).pos = .idle := by
  unfold State.endSequence; rfl
@[simp] theorem State.endSequence_work (s : State) : (s.endSequence).work = .free s.draws := by
  unfold State.endSequence; rfl
@[simp] theorem State.endSequence_port (s : State) : (s.endSequence).port = s.port := by
  unfold State.endSequence; rfl
@[simp] theorem State.endSequence_draws (s : State) : (s.endSequence).draws = s.draws + 8 := by
  unfold State.endSequence; rfl

/-! ### setBlockPartial -/

@[simp] theorem State.setBlockPartial_params (v : Bool) (s : State) :
    (s.setBlockPartial v).params =
      s.params := by
  unfold State.setBlockPartial; rfl
@[simp] theorem State.setBlockPartial_conf (v : Bool) (s : State) : (s.setBlockPartial v).conf = s.conf := by
  unfold State.setBlockPartial; rfl
@[simp] theorem State.setBlockPartial_flags (v : Bool) (s : State) :
    (s.setBlockPartial v).flags =
      { s.flags with blockPartial := v } := by
  unfold State.setBlockPartial; rfl
@[simp] theorem State.setBlockPartial_puc (v : Bool) (s : State) : (s.setBlockPartial v).puc = s.puc := by
  unfold State.setBlockPartial; rfl
@[simp] theorem State.setBlockPartial_cfg (v : Bool) (s : State) : (s.setBlockPartial v).cfg = s.cfg := by
  unfold State.setBlockPartial; rfl
@[simp] theorem State.setBlockPartial_bufs (v : Bool) (s : State) : (s.setBlockPartial v).bufs = s.bufs := by
  unfold State.setBlockPartial; rfl
@[simp] theorem State.setBlockPartial_io (v : Bool) (s : State) : (s.setBlockPartial v).io = s.io := by
  unfold State.setBlockPartial; rfl
@[simp] theorem State.setBlockPartial_pos (v : Bool) (s : State) : (s.setBlockPartial v).pos = s.pos := by
  unfold State.setBlockPartial; rfl
@[simp] theorem State.setBlockPartial_work (v : Bool) (s : State) : (s.setBlockPartial v).work = s.work := by
  unfold State.setBlockPartial; rfl
@[simp] theorem State.setBlockPartial_port (v : Bool) (s : State) : (s.setBlockPartial v).port = s.port := by
  unfold State.setBlockPartial; rfl
@[simp] theorem State.setBlockPartial_draws (v : Bool) (s : State) : (s.setBlockPartial v).draws = s.draws := by
  unfold State.setBlockPartial; rfl

/-! ### setPower -/

@[simp] theorem State.setPower_params (v : Bool) (s : State) : (s.setPower v).params = s.params := by
  unfold State.setPower; rfl
@[simp] theorem State.setPower_conf (v : Bool) (s : State) : (s.setPower v).conf = s.conf := by
  unfold State.setPower; rfl
@[simp] theorem State.setPower_flags (v : Bool) (s : State) : (s.setPower v).flags = { s.flags with power := v } := by
  unfold State.setPower; rfl
@[simp] theorem State.setPower_puc (v : Bool) (s : State) : (s.setPower v).puc = s.puc := by
  unfold State.setPower; rfl
@[simp] theorem State.setPower_cfg (v : Bool) (s : State) : (s.setPower v).cfg = s.cfg := by
  unfold State.setPower; rfl
@[simp] theorem State.setPower_bufs (v : Bool) (s : State) : (s.setPower v).bufs = s.bufs := by
  unfold State.setPower; rfl
@[simp] theorem State.setPower_io (v : Bool) (s : State) : (s.setPower v).io = s.io := by
  unfold State.setPower; rfl
@[simp] theorem State.setPower_pos (v : Bool) (s : State) : (s.setPower v).pos = s.pos := by
  unfold State.setPower; rfl
@[simp] theorem State.setPower_work (v : Bool) (s : State) : (s.setPower v).work = s.work := by
  unfold State.setPower; rfl
@[simp] theorem State.setPower_port (v : Bool) (s : State) : (s.setPower v).port = s.port := by
  unfold State.setPower; rfl
@[simp] theorem State.setPower_draws (v : Bool) (s : State) : (s.setPower v).draws = s.draws := by
  unfold State.setPower; rfl

/-! ### pulseWord -/

@[simp] theorem pulseWord_params (d : Byte) (s : State) :
    (pulseWord d s).params =
      s.params := by
  unfold pulseWord State.portSet State.portClear; rfl
@[simp] theorem pulseWord_conf (d : Byte) (s : State) : (pulseWord d s).conf = s.conf := by
  unfold pulseWord State.portSet State.portClear; rfl
@[simp] theorem pulseWord_flags (d : Byte) (s : State) : (pulseWord d s).flags = s.flags := by
  unfold pulseWord State.portSet State.portClear; rfl
@[simp] theorem pulseWord_puc (d : Byte) (s : State) : (pulseWord d s).puc = s.puc := by
  unfold pulseWord State.portSet State.portClear; rfl
@[simp] theorem pulseWord_cfg (d : Byte) (s : State) : (pulseWord d s).cfg = s.cfg := by
  unfold pulseWord State.portSet State.portClear; rfl
@[simp] theorem pulseWord_bufs (d : Byte) (s : State) : (pulseWord d s).bufs = s.bufs := by
  unfold pulseWord State.portSet State.portClear; rfl
@[simp] theorem pulseWord_io (d : Byte) (s : State) :
    (pulseWord d s).io =
      (s.io.portSet s.params.pinmap (pack s.params.pinmap d ||| clkMask s.params.pinmap)).portClear s.params.pinmap
        (dataMask s.params.pinmap ||| clkMask s.params.pinmap) := by
  unfold pulseWord State.portSet State.portClear; rfl
@[simp] theorem pulseWord_pos (d : Byte) (s : State) : (pulseWord d s).pos = s.pos := by
  unfold pulseWord State.portSet State.portClear; rfl
@[simp] theorem pulseWord_work (d : Byte) (s : State) : (pulseWord d s).work = s.work := by
  unfold pulseWord State.portSet State.portClear; rfl
@[simp] theorem pulseWord_port (d : Byte) (s : State) : (pulseWord d s).port = s.port := by
  unfold pulseWord State.portSet State.portClear; rfl
@[simp] theorem pulseWord_draws (d : Byte) (s : State) : (pulseWord d s).draws = s.draws := by
  unfold pulseWord State.portSet State.portClear; rfl

/-! ### atWord -/

@[simp] theorem atWord_params (row col : Nat) (s : State) : (atWord row col s).params = s.params := by
  unfold atWord; rfl
@[simp] theorem atWord_conf (row col : Nat) (s : State) : (atWord row col s).conf = s.conf := by
  unfold atWord; rfl
@[simp] theorem atWord_flags (row col : Nat) (s : State) : (atWord row col s).flags = s.flags := by
  unfold atWord; rfl
@[simp] theorem atWord_puc (row col : Nat) (s : State) : (atWord row col s).puc = s.puc := by
  unfold atWord; rfl
@[simp] theorem atWord_cfg (row col : Nat) (s : State) : (atWord row col s).cfg = s.cfg := by
  unfold atWord; rfl
@[simp] theorem atWord_bufs (row col : Nat) (s : State) : (atWord row col s).bufs = s.bufs := by
  unfold atWord; rfl
@[simp] theorem atWord_io (row col : Nat) (s : State) : (atWord row col s).io = s.io := by
  unfold atWord; rfl
@[simp] theorem atWord_pos (row col : Nat) (s : State) :
    (atWord row col s).pos =
      { s.pos with row := BitVec.ofNat 16 row, col := BitVec.ofNat 16 col } := by
  unfold atWord; rfl
@[simp] theorem atWord_work (row col : Nat) (s : State) :
    (atWord row col s).work =
      { s.work with kw := BitVec.ofNat 32 (row * s.wpr + col) } := by
  unfold atWord; rfl
@[simp] theorem atWord_port (row col : Nat) (s : State) : (atWord row col s).port = s.port := by
  unfold atWord; rfl
@[simp] theorem atWord_draws (row col : Nat) (s : State) : (atWord row col s).draws = s.draws := by
  unfold atWord; rfl

/-! ### beginSequence -/

@[simp] theorem beginSequence_params (q : Seq) (s : State) : (beginSequence q s).params = s.params := by
  unfold beginSequence; rfl
@[simp] theorem beginSequence_conf (q : Seq) (s : State) : (beginSequence q s).conf = s.conf := by
  unfold beginSequence; rfl
@[simp] theorem beginSequence_flags (q : Seq) (s : State) : (beginSequence q s).flags = s.flags := by
  unfold beginSequence; rfl
@[simp] theorem beginSequence_puc (q : Seq) (s : State) : (beginSequence q s).puc = s.puc := by
  unfold beginSequence; rfl
@[simp] theorem beginSequence_cfg (q : Seq) (s : State) : (beginSequence q s).cfg = s.cfg := by
  unfold beginSequence; rfl
@[simp] theorem beginSequence_bufs (q : Seq) (s : State) : (beginSequence q s).bufs = s.bufs := by
  unfold beginSequence; rfl
@[simp] theorem beginSequence_io (q : Seq) (s : State) : (beginSequence q s).io = s.io := by
  unfold beginSequence; rfl
@[simp] theorem beginSequence_pos (q : Seq) (s : State) :
    (beginSequence q s).pos =
      { s.pos with seq := q, passIdx := 0 } := by
  unfold beginSequence; rfl
@[simp] theorem beginSequence_work (q : Seq) (s : State) : (beginSequence q s).work = s.work := by
  unfold beginSequence; rfl
@[simp] theorem beginSequence_port (q : Seq) (s : State) : (beginSequence q s).port = s.port := by
  unfold beginSequence; rfl
@[simp] theorem beginSequence_draws (q : Seq) (s : State) : (beginSequence q s).draws = s.draws := by
  unfold beginSequence; rfl

/-! ### bumpPassIdx -/

@[simp] theorem bumpPassIdx_params (s : State) : (bumpPassIdx s).params = s.params := by
  unfold bumpPassIdx; rfl
@[simp] theorem bumpPassIdx_conf (s : State) : (bumpPassIdx s).conf = s.conf := by
  unfold bumpPassIdx; rfl
@[simp] theorem bumpPassIdx_flags (s : State) : (bumpPassIdx s).flags = s.flags := by
  unfold bumpPassIdx; rfl
@[simp] theorem bumpPassIdx_puc (s : State) : (bumpPassIdx s).puc = s.puc := by
  unfold bumpPassIdx; rfl
@[simp] theorem bumpPassIdx_cfg (s : State) : (bumpPassIdx s).cfg = s.cfg := by
  unfold bumpPassIdx; rfl
@[simp] theorem bumpPassIdx_bufs (s : State) : (bumpPassIdx s).bufs = s.bufs := by
  unfold bumpPassIdx; rfl
@[simp] theorem bumpPassIdx_io (s : State) : (bumpPassIdx s).io = s.io := by
  unfold bumpPassIdx; rfl
@[simp] theorem bumpPassIdx_pos (s : State) : (bumpPassIdx s).pos = { s.pos with passIdx := s.pos.passIdx + 1 } := by
  unfold bumpPassIdx; rfl
@[simp] theorem bumpPassIdx_work (s : State) : (bumpPassIdx s).work = s.work := by
  unfold bumpPassIdx; rfl
@[simp] theorem bumpPassIdx_port (s : State) : (bumpPassIdx s).port = s.port := by
  unfold bumpPassIdx; rfl
@[simp] theorem bumpPassIdx_draws (s : State) : (bumpPassIdx s).draws = s.draws := by
  unfold bumpPassIdx; rfl

/-! ### bumpPuc -/

@[simp] theorem bumpPuc_params (s : State) : (bumpPuc s).params = s.params := by
  unfold bumpPuc; rfl
@[simp] theorem bumpPuc_conf (s : State) : (bumpPuc s).conf = s.conf := by
  unfold bumpPuc; rfl
@[simp] theorem bumpPuc_flags (s : State) : (bumpPuc s).flags = s.flags := by
  unfold bumpPuc; rfl
@[simp] theorem bumpPuc_puc (s : State) : (bumpPuc s).puc = s.puc + 1 := by
  unfold bumpPuc; rfl
@[simp] theorem bumpPuc_cfg (s : State) : (bumpPuc s).cfg = s.cfg := by
  unfold bumpPuc; rfl
@[simp] theorem bumpPuc_bufs (s : State) : (bumpPuc s).bufs = s.bufs := by
  unfold bumpPuc; rfl
@[simp] theorem bumpPuc_io (s : State) : (bumpPuc s).io = s.io := by
  unfold bumpPuc; rfl
@[simp] theorem bumpPuc_pos (s : State) : (bumpPuc s).pos = s.pos := by
  unfold bumpPuc; rfl
@[simp] theorem bumpPuc_work (s : State) : (bumpPuc s).work = s.work := by
  unfold bumpPuc; rfl
@[simp] theorem bumpPuc_port (s : State) : (bumpPuc s).port = s.port := by
  unfold bumpPuc; rfl
@[simp] theorem bumpPuc_draws (s : State) : (bumpPuc s).draws = s.draws := by
  unfold bumpPuc; rfl

/-! ### clearPartialCount -/

@[simp] theorem clearPartialCount_params (s : State) :
    (clearPartialCount s).params =
      s.params := by
  unfold clearPartialCount State.setBlockPartial; rfl
@[simp] theorem clearPartialCount_conf (s : State) : (clearPartialCount s).conf = s.conf := by
  unfold clearPartialCount State.setBlockPartial; rfl
@[simp] theorem clearPartialCount_flags (s : State) :
    (clearPartialCount s).flags =
      { s.flags with blockPartial := false } := by
  unfold clearPartialCount State.setBlockPartial; rfl
@[simp] theorem clearPartialCount_puc (s : State) : (clearPartialCount s).puc = 0 := by
  unfold clearPartialCount State.setBlockPartial; rfl
@[simp] theorem clearPartialCount_cfg (s : State) : (clearPartialCount s).cfg = s.cfg := by
  unfold clearPartialCount State.setBlockPartial; rfl
@[simp] theorem clearPartialCount_bufs (s : State) : (clearPartialCount s).bufs = s.bufs := by
  unfold clearPartialCount State.setBlockPartial; rfl
@[simp] theorem clearPartialCount_io (s : State) : (clearPartialCount s).io = s.io := by
  unfold clearPartialCount State.setBlockPartial; rfl
@[simp] theorem clearPartialCount_pos (s : State) : (clearPartialCount s).pos = s.pos := by
  unfold clearPartialCount State.setBlockPartial; rfl
@[simp] theorem clearPartialCount_work (s : State) : (clearPartialCount s).work = s.work := by
  unfold clearPartialCount State.setBlockPartial; rfl
@[simp] theorem clearPartialCount_port (s : State) : (clearPartialCount s).port = s.port := by
  unfold clearPartialCount State.setBlockPartial; rfl
@[simp] theorem clearPartialCount_draws (s : State) :
    (clearPartialCount s).draws =
      s.draws := by
  unfold clearPartialCount State.setBlockPartial; rfl

/-! ### releaseBuffers -/

@[simp] theorem releaseBuffers_params (s : State) : (releaseBuffers s).params = s.params := by
  unfold releaseBuffers; rfl
@[simp] theorem releaseBuffers_conf (s : State) : (releaseBuffers s).conf = s.conf := by
  unfold releaseBuffers; rfl
@[simp] theorem releaseBuffers_flags (s : State) :
    (releaseBuffers s).flags =
      { s.flags with initialised := false } := by
  unfold releaseBuffers; rfl
@[simp] theorem releaseBuffers_puc (s : State) : (releaseBuffers s).puc = s.puc := by
  unfold releaseBuffers; rfl
@[simp] theorem releaseBuffers_cfg (s : State) : (releaseBuffers s).cfg = s.cfg := by
  unfold releaseBuffers; rfl
@[simp] theorem releaseBuffers_bufs (s : State) :
    (releaseBuffers s).bufs =
      { buf0 := [], buf1 := [], buf2 := [] } := by
  unfold releaseBuffers; rfl
@[simp] theorem releaseBuffers_io (s : State) : (releaseBuffers s).io = s.io := by
  unfold releaseBuffers; rfl
@[simp] theorem releaseBuffers_pos (s : State) : (releaseBuffers s).pos = s.pos := by
  unfold releaseBuffers; rfl
@[simp] theorem releaseBuffers_work (s : State) : (releaseBuffers s).work = s.work := by
  unfold releaseBuffers; rfl
@[simp] theorem releaseBuffers_port (s : State) : (releaseBuffers s).port = s.port := by
  unfold releaseBuffers; rfl
@[simp] theorem releaseBuffers_draws (s : State) : (releaseBuffers s).draws = s.draws := by
  unfold releaseBuffers; rfl

/-! ### configure -/

@[simp] theorem configure_params (w h : BitVec 16) (g p : Bool) (fue : BitVec 16) (s : State) :
    (configure w h g p fue s).params =
      s.params := by
  unfold configure; rfl
@[simp] theorem configure_conf (w h : BitVec 16) (g p : Bool) (fue : BitVec 16) (s : State) :
    (configure w h g p fue s).conf =
      { w := w, h := h, grey := g, partialEn := p, fue := fue } := by
  unfold configure; rfl
@[simp] theorem configure_flags (w h : BitVec 16) (g p : Bool) (fue : BitVec 16) (s : State) :
    (configure w h g p fue s).flags =
      { s.flags with blockPartial := true, initialised := true } := by
  unfold configure; rfl
@[simp] theorem configure_puc (w h : BitVec 16) (g p : Bool) (fue : BitVec 16) (s : State) :
    (configure w h g p fue s).puc =
      0 := by
  unfold configure; rfl
@[simp] theorem configure_cfg (w h : BitVec 16) (g p : Bool) (fue : BitVec 16) (s : State) :
    (configure w h g p fue s).cfg =
      s.cfg := by
  unfold configure; rfl
@[simp] theorem configure_bufs (w h : BitVec 16) (g p : Bool) (fue : BitVec 16) (s : State) :
    (configure w h g p fue s).bufs =
      s.bufs := by
  unfold configure; rfl
@[simp] theorem configure_io (w h : BitVec 16) (g p : Bool) (fue : BitVec 16) (s : State) :
    (configure w h g p fue s).io =
      (setupPins s.io).push s.cfg := by
  unfold configure; rfl
@[simp] theorem configure_pos (w h : BitVec 16) (g p : Bool) (fue : BitVec 16) (s : State) :
    (configure w h g p fue s).pos =
      s.pos := by
  unfold configure; rfl
@[simp] theorem configure_work (w h : BitVec 16) (g p : Bool) (fue : BitVec 16) (s : State) :
    (configure w h g p fue s).work =
      s.work := by
  unfold configure; rfl
@[simp] theorem configure_port (w h : BitVec 16) (g p : Bool) (fue : BitVec 16) (s : State) :
    (configure w h g p fue s).port =
      s.port := by
  unfold configure; rfl
@[simp] theorem configure_draws (w h : BitVec 16) (g p : Bool) (fue : BitVec 16) (s : State) :
    (configure w h g p fue s).draws =
      s.draws := by
  unfold configure; rfl

/-! ### allocateBuffers -/

@[simp] theorem allocateBuffers_params (w h : BitVec 16) (g : Bool) (s : State) :
    (allocateBuffers w h g s).params = s.params := by
  unfold allocateBuffers; rfl
@[simp] theorem allocateBuffers_conf (w h : BitVec 16) (g : Bool) (s : State) :
    (allocateBuffers w h g s).conf = s.conf := by
  unfold allocateBuffers; rfl
@[simp] theorem allocateBuffers_flags (w h : BitVec 16) (g : Bool) (s : State) :
    (allocateBuffers w h g s).flags = s.flags := by
  unfold allocateBuffers; rfl
@[simp] theorem allocateBuffers_puc (w h : BitVec 16) (g : Bool) (s : State) :
    (allocateBuffers w h g s).puc = s.puc := by
  unfold allocateBuffers; rfl
@[simp] theorem allocateBuffers_cfg (w h : BitVec 16) (g : Bool) (s : State) :
    (allocateBuffers w h g s).cfg = s.cfg := by
  unfold allocateBuffers; rfl
@[simp] theorem allocateBuffers_io (w h : BitVec 16) (g : Bool) (s : State) :
    (allocateBuffers w h g s).io = s.io := by
  unfold allocateBuffers; rfl
@[simp] theorem allocateBuffers_pos (w h : BitVec 16) (g : Bool) (s : State) :
    (allocateBuffers w h g s).pos = s.pos := by
  unfold allocateBuffers; rfl
@[simp] theorem allocateBuffers_work (w h : BitVec 16) (g : Bool) (s : State) :
    (allocateBuffers w h g s).work = s.work := by
  unfold allocateBuffers; rfl
@[simp] theorem allocateBuffers_port (w h : BitVec 16) (g : Bool) (s : State) :
    (allocateBuffers w h g s).port = s.port := by
  unfold allocateBuffers; rfl
@[simp] theorem allocateBuffers_draws (w h : BitVec 16) (g : Bool) (s : State) :
    (allocateBuffers w h g s).draws = s.draws + need w h g := by
  unfold allocateBuffers; rfl

/-! ### Extensionality -/

/-- Two states with the same fields are equal. -/
theorem state_ext {s t : State} (h1 : s.params = t.params) (h2 : s.conf = t.conf) (h3 : s.flags = t.flags)
    (h4 : s.puc = t.puc) (h5 : s.cfg = t.cfg) (h6 : s.bufs = t.bufs) (h7 : s.io = t.io) (h8 : s.pos = t.pos)
    (h9 : s.work = t.work) (h10 : s.port = t.port) (h11 : s.draws = t.draws) : s = t := by
  cases s
  cases t
  cases h1
  cases h2
  cases h3
  cases h4
  cases h5
  cases h6
  cases h7
  cases h8
  cases h9
  cases h10
  cases h11
  rfl

/-! ### Derived quantities depend on the configuration registers alone -/

theorem len_congr {s t : State} (h : t.conf = s.conf) : t.len = s.len := by
  simp [State.len, h]

theorem wpr_congr {s t : State} (h : t.conf = s.conf) : t.wpr = s.wpr := by
  simp [State.wpr, h]

theorem rows_congr {s t : State} (h : t.conf = s.conf) : t.rows = s.rows := by
  simp [State.rows, h]

theorem byteAt_congr {s t : State} (h : t.bufs = s.bufs) (b : BufId) (p : Nat) : t.byteAt b p = s.byteAt b p := by
  simp [State.byteAt, h]

/-! ### Entering and leaving a phase -/

@[simp] theorem setPhase_setPhase (p q : Phase) (s : State) : (s.setPhase p).setPhase q = s.setPhase q := by
  unfold State.setPhase; rfl

@[simp] theorem setPhase_self (s : State) : s.setPhase s.pos.phase = s := by
  unfold State.setPhase; rfl

end Sys2Proof.Machine
end

