-- ==== Sys2Proof/Laws/Memory.lean ====
section
/-! SUPPORT. The laws of the pixel buffers: read after write, what a write keeps, the canonical form. -/

namespace Sys2Proof.Machine

/-! ### Offsets -/

@[simp] theorem offsets_nil : Memory.offsets [] = [] := rfl

@[simp] theorem offsets_cons (c : Host.Cell) (m : Memory) : Memory.offsets (c :: m) = c.1 :: Memory.offsets m := rfl

/-- A write adds and removes no offset. -/
@[simp] theorem offsets_write (m : Memory) (p : Nat) (v : Byte) : (m.write p v).offsets = m.offsets := by
  induction m with
  | nil => rfl
  | cons c m ih =>
    obtain ⟨a, u⟩ := c
    simp only [Memory.write]
    split <;> simp_all

theorem read_isSome_iff (m : Memory) (p : Nat) : (m.read p).isSome ↔ p ∈ m.offsets := by
  induction m with
  | nil => simp [Memory.read]
  | cons c m ih =>
    obtain ⟨a, u⟩ := c
    simp only [Memory.read, offsets_cons, List.mem_cons]
    by_cases h : a = p
    · simp [h]
    · simp [h, ih, Ne.symm h]

/-- A byte exists exactly when its offset is listed. -/
theorem read_of_mem {m : Memory} {p : Nat} (h : p ∈ m.offsets) : ∃ v, m.read p = some v :=
  Option.isSome_iff_exists.mp ((read_isSome_iff m p).mpr h)

theorem mem_of_read {m : Memory} {p : Nat} {v : Byte} (h : m.read p = some v) : p ∈ m.offsets :=
  (read_isSome_iff m p).mp (by simp [h])

/-- In a buffer of `n` bytes every offset below `n` can be read. -/
theorem read_of_lt {m : Memory} {n p : Nat} (h : m.offsets = List.range n) (hp : p < n) : ∃ v, m.read p = some v :=
  read_of_mem (by rw [h]; exact List.mem_range.mpr hp)

/-! ### Read after write -/

/-- Reading after a write: the written byte gives the new value, if it exists, and every other byte is as before. -/
theorem read_write (m : Memory) (p q : Nat) (v : Byte) :
    (m.write p v).read q = if q = p ∧ p ∈ m.offsets then some v else m.read q := by
  induction m with
  | nil => simp [Memory.write, Memory.read]
  | cons c m ih =>
    obtain ⟨a, u⟩ := c
    simp only [Memory.write, offsets_cons, List.mem_cons]
    by_cases h : a = p
    · subst h
      by_cases hq : a = q
      · simp [Memory.read, hq]
      · simp [Memory.read, hq, Ne.symm hq]
    · by_cases hq : a = q
      · subst hq
        simp [Memory.read, h]
      · simp [Memory.read, h, hq, ih, Ne.symm h]

theorem read_write_self {m : Memory} {p : Nat} (h : p ∈ m.offsets) (v : Byte) : (m.write p v).read p = some v := by
  simp [read_write, h]

theorem read_write_ne {m : Memory} {p q : Nat} (h : q ≠ p) (v : Byte) : (m.write p v).read q = m.read q := by
  simp [read_write, h]

/-! ### The canonical form -/

theorem wf_cons (c : Host.Cell) (m : Memory) :
    Memory.wf (c :: m) = ((match m with | [] => true | (b, _) :: _ => decide (c.1 < b)) && Memory.wf m) := by
  cases m <;> rfl

/-- The canonical form is a fact about the offsets alone. -/
theorem wf_iff (m : Memory) : m.wf = true ↔ m.offsets.Pairwise (· < ·) := by
  induction m with
  | nil => simp [Memory.wf]
  | cons c m ih =>
    rw [wf_cons, Bool.and_eq_true, ih, offsets_cons, List.pairwise_cons]
    cases m with
    | nil => simp
    | cons d m =>
      simp only [offsets_cons, List.mem_cons, decide_eq_true_eq]
      constructor
      · rintro ⟨h1, h2⟩
        refine ⟨?_, h2⟩
        rintro a (rfl | ha)
        · exact h1
        · exact lt_trans h1 ((List.pairwise_cons.mp h2).1 a ha)
      · rintro ⟨h1, h2⟩
        exact ⟨h1 _ (Or.inl rfl), h2⟩

theorem wf_congr {m k : Memory} (h : k.offsets = m.offsets) : k.wf = m.wf := by
  rw [Bool.eq_iff_iff, wf_iff, wf_iff, h]

/-- A write keeps the canonical form. -/
theorem wf_write {m : Memory} (p : Nat) (v : Byte) (h : m.wf = true) : (m.write p v).wf = true := by
  rwa [wf_congr (offsets_write m p v)]

theorem offsets_allocFrom (f : Nat → Byte) (n first : Nat) :
    (Memory.allocFrom f n first).offsets = (List.range n).map (first + ·) := by
  induction n generalizing first with
  | zero => rfl
  | succ n ih =>
    simp only [Memory.allocFrom, offsets_cons, ih, List.range_succ_eq_map, List.map_cons, List.map_map]
    simp [Function.comp_def]
    intros; omega

/-- A new buffer has the offsets from 0 to its length minus 1 (R161). -/
@[simp] theorem offsets_alloc (n : Nat) (f : Nat → Byte) : (Memory.alloc n f).offsets = List.range n := by
  simp [Memory.alloc, offsets_allocFrom]

theorem wf_of_offsets_range {m : Memory} {n : Nat} (h : m.offsets = List.range n) : m.wf = true := by
  rw [wf_iff, h]
  exact List.pairwise_lt_range

/-- A new buffer is canonical. -/
theorem wf_alloc (n : Nat) (f : Nat → Byte) : (Memory.alloc n f).wf = true :=
  wf_of_offsets_range (offsets_alloc n f)

/-- Two canonical buffers with the same bytes are the same list. -/
theorem memory_ext {m k : Memory} (hm : m.wf = true) (hk : k.wf = true) (h : ∀ p, Memory.read m p = Memory.read k p) : m = k := by
  have key : m.offsets = k.offsets := by
    rw [wf_iff] at hm hk
    refine List.Perm.eq_of_pairwise (le := (· < ·)) (fun a b _ _ h1 h2 => absurd h1 (lt_asymm h2)) hm hk ?_
    refine (List.perm_ext_iff_of_nodup (hm.imp (fun h => ne_of_lt h)) (hk.imp (fun h => ne_of_lt h))).mpr ?_
    intro a
    rw [← read_isSome_iff, ← read_isSome_iff, h]
  induction m generalizing k with
  | nil =>
    cases k with
    | nil => rfl
    | cons d k => simp at key
  | cons c m ih =>
    obtain ⟨a, u⟩ := c
    cases k with
    | nil => simp at key
    | cons d k =>
      obtain ⟨b, v⟩ := d
      simp only [offsets_cons, List.cons.injEq] at key
      obtain ⟨rfl, key⟩ := key
      have huv : u = v := by simpa [Memory.read] using h a
      subst huv
      rw [wf_iff, offsets_cons, List.pairwise_cons] at hm hk
      congr 1
      refine ih ((wf_iff m).mpr hm.2) ((wf_iff k).mpr hk.2) (fun p => ?_) key
      by_cases hp : a = p
      · subst hp
        have h1 : Memory.read m a = none := by
          rw [← Option.not_isSome_iff_eq_none, read_isSome_iff]
          exact fun hin => lt_irrefl _ (hm.1 _ hin)
        have h2 : Memory.read k a = none := by
          rw [← Option.not_isSome_iff_eq_none, read_isSome_iff]
          exact fun hin => lt_irrefl _ (hk.1 _ hin)
        rw [h1, h2]
      · simpa [Memory.read, hp] using h p

/-! ### The three buffers -/

@[simp] theorem buffers_get_set (b : Buffers) (i j : BufId) (m : Memory) :
    (b.set i m).get j = if j = i then m else b.get j := by
  cases i <;> cases j <;> rfl

theorem buffers_wf_iff (b : Buffers) : b.wf = true ↔ ∀ i, (b.get i).wf = true := by
  simp only [Buffers.wf, Bool.and_eq_true]
  constructor
  · rintro ⟨⟨h0, h1⟩, h2⟩ i
    cases i <;> assumption
  · intro h
    exact ⟨⟨h .buf0, h .buf1⟩, h .buf2⟩

theorem buffers_ext {a b : Buffers} (h : ∀ i, a.get i = b.get i) : a = b := by
  cases a
  cases b
  simpa using ⟨h .buf0, h .buf1, h .buf2⟩

/-! ### Byte accesses of the state -/

theorem readByte_eq_next {b : BufId} {p : Nat} {s : State} {v : Byte} :
    readByte b p s = .next v ↔ s.byteAt b p = some v := by
  unfold readByte
  split <;> simp_all

/-- What a byte write can do: the byte existed, and only the buffers change. -/
theorem writeByte_eq_next {b : BufId} {p : Nat} {v : Byte} {s t : State} :
    writeByte b p v s = .next t ↔
      (∃ u, s.byteAt b p = some u) ∧ t = { s with bufs := s.bufs.set b ((s.bufs.get b).write p v) } := by
  unfold writeByte
  cases h : s.byteAt b p <;> simp [eq_comm]

/-- Every byte after a byte write. -/
theorem byteAt_write {b : BufId} {p : Nat} {v : Byte} {s t : State} (h : writeByte b p v s = .next t) (c : BufId)
    (q : Nat) : t.byteAt c q = if c = b ∧ q = p then some v else s.byteAt c q := by
  obtain ⟨⟨u, hu⟩, rfl⟩ := writeByte_eq_next.mp h
  simp only [State.byteAt, buffers_get_set] at hu ⊢
  by_cases hc : c = b
  · subst hc
    simp [read_write, mem_of_read hu]
  · simp [hc]

/-- A byte write keeps the offsets of every buffer. -/
theorem offsets_writeByte {b : BufId} {p : Nat} {v : Byte} {s t : State} (h : writeByte b p v s = .next t) (c : BufId) :
    (t.bufs.get c).offsets = (s.bufs.get c).offsets := by
  obtain ⟨-, rfl⟩ := writeByte_eq_next.mp h
  by_cases hc : c = b
  · subst hc
    simp
  · simp [hc]

/-- A byte write completes where the byte exists. -/
theorem writeByte_of_mem {b : BufId} {p : Nat} {s : State} (h : p ∈ (s.bufs.get b).offsets) (v : Byte) :
    writeByte b p v s = .next { s with bufs := s.bufs.set b ((s.bufs.get b).write p v) } := by
  obtain ⟨u, hu⟩ := read_of_mem h
  exact writeByte_eq_next.mpr ⟨⟨u, hu⟩, rfl⟩

theorem byteAt_of_mem {b : BufId} {p : Nat} {s : State} (h : p ∈ (s.bufs.get b).offsets) :
    ∃ v, s.byteAt b p = some v :=
  read_of_mem h

/-- A read-modify-write of one byte (R46). -/
theorem modifyByte_eq_next {b : BufId} {p : Nat} {f : Byte → Byte} {s t : State} :
    modifyByte b p f s = .next t ↔
      ∃ v, s.byteAt b p = some v ∧ t = { s with bufs := s.bufs.set b ((s.bufs.get b).write p (f v)) } := by
  unfold modifyByte
  rw [andThen_eq_next]
  constructor
  · rintro ⟨v, hv, h⟩
    exact ⟨v, readByte_eq_next.mp hv, (writeByte_eq_next.mp h).2⟩
  · rintro ⟨v, hv, h⟩
    exact ⟨v, readByte_eq_next.mpr hv, writeByte_eq_next.mpr ⟨⟨v, hv⟩, h⟩⟩

end Sys2Proof.Machine
end

