-- ==== Sys2Proof/Laws/Io.lean ====
section
/-! SUPPORT. The laws of the lines, the events, the external register, `CFG`'s fields and the bus word. -/

namespace Sys2Proof.Machine

/-! ### Lines -/

@[simp] theorem lines_get_tabulate {α : Type} (f : Line → α) (l : Line) : (Lines.tabulate f).get l = f l := by
  cases l <;> rfl

@[simp] theorem lines_get_set {α : Type} (x : Lines α) (l k : Line) (v : α) :
    (x.set l v).get k = if k = l then v else x.get k := by
  simp [Lines.set]

@[simp] theorem lines_get_all {α : Type} (v : α) (l : Line) : (Lines.all v).get l = v := by
  cases l <;> rfl

/-- Two banks that agree on every line are equal. -/
theorem lines_ext {α : Type} {x y : Lines α} (h : ∀ l, x.get l = y.get l) : x = y := by
  cases x
  cases y
  simpa [Lines.get] using ⟨h .sofLine, h .clk, h .srcEn, h .d0, h .d1, h .d2, h .d3, h .d4, h .d5, h .d6, h .d7,
    h .cfgClk, h .cfgData, h .cfgStr, h .panelEn⟩

theorem mem_panelFacing {l : Line} : l ∈ panelFacing ↔ l ∉ alwaysOutputs := by
  cases l <;> decide

/-! ### Single events -/

@[simp] theorem emit_trace (e : Event) (io : Io) : (io.emit e).trace = io.trace ++ [e] := by
  simp [Io.emit, Io.trace]

@[simp] theorem emit_latch (e : Event) (io : Io) : (io.emit e).latch = io.latch := rfl

@[simp] theorem emit_dir (e : Event) (io : Io) : (io.emit e).dir = io.dir := rfl

@[simp] theorem emit_srShift (e : Event) (io : Io) : (io.emit e).srShift = io.srShift := rfl

@[simp] theorem emit_srOut (e : Event) (io : Io) : (io.emit e).srOut = io.srOut := rfl

@[simp] theorem pinWrite_trace (l : Line) (v : Bool) (io : Io) :
    (io.pinWrite l v).trace = io.trace ++ [.pinWrite l v] := by
  simp [Io.pinWrite, Io.trace, Io.emit]

@[simp] theorem pinWrite_latch (l : Line) (v : Bool) (io : Io) : (io.pinWrite l v).latch = io.latch.set l v := rfl

@[simp] theorem pinWrite_dir (l : Line) (v : Bool) (io : Io) : (io.pinWrite l v).dir = io.dir := rfl

theorem pinWrite_srShift (l : Line) (v : Bool) (io : Io) :
    (io.pinWrite l v).srShift =
      if l = .cfgClk ∧ rises io l v then io.srShift.extractLsb' 0 7 ++ BitVec.ofBool (io.latch.get .cfgData)
      else io.srShift := rfl

theorem pinWrite_srOut (l : Line) (v : Bool) (io : Io) :
    (io.pinWrite l v).srOut = if l = .cfgStr ∧ rises io l v then io.srShift else io.srOut := rfl

/-- A write to a line other than the three of the external register leaves that register alone. -/
theorem pinWrite_sr {l : Line} (h : l ≠ .cfgClk ∧ l ≠ .cfgStr) (v : Bool) (io : Io) :
    (io.pinWrite l v).srShift = io.srShift ∧ (io.pinWrite l v).srOut = io.srOut := by
  simp [pinWrite_srShift, pinWrite_srOut, h.1, h.2]

@[simp] theorem pinDir_trace (d : Dir) (l : Line) (io : Io) : (io.pinDir d l).trace = io.trace ++ [.pinDir l d] := by
  simp [Io.pinDir, Io.trace, Io.emit]

@[simp] theorem pinDir_latch (d : Dir) (l : Line) (io : Io) : (io.pinDir d l).latch = io.latch := rfl

@[simp] theorem pinDir_dir (d : Dir) (l : Line) (io : Io) : (io.pinDir d l).dir = io.dir.set l d := rfl

@[simp] theorem pinDir_srShift (d : Dir) (l : Line) (io : Io) : (io.pinDir d l).srShift = io.srShift := rfl

@[simp] theorem pinDir_srOut (d : Dir) (l : Line) (io : Io) : (io.pinDir d l).srOut = io.srOut := rfl

@[simp] theorem portSet_trace (m : PinMap) (k : PortWord) (io : Io) :
    (io.portSet m k).trace = io.trace ++ [.portSet k] := by
  simp [Io.portSet, Io.trace, Io.emit]

@[simp] theorem portSet_latch (m : PinMap) (k : PortWord) (io : Io) :
    (io.portSet m k).latch = portLatch m k true io.latch := rfl

@[simp] theorem portSet_dir (m : PinMap) (k : PortWord) (io : Io) : (io.portSet m k).dir = io.dir := rfl

@[simp] theorem portSet_srShift (m : PinMap) (k : PortWord) (io : Io) : (io.portSet m k).srShift = io.srShift := rfl

@[simp] theorem portSet_srOut (m : PinMap) (k : PortWord) (io : Io) : (io.portSet m k).srOut = io.srOut := rfl

@[simp] theorem portClear_trace (m : PinMap) (k : PortWord) (io : Io) :
    (io.portClear m k).trace = io.trace ++ [.portClear k] := by
  simp [Io.portClear, Io.trace, Io.emit]

@[simp] theorem portClear_latch (m : PinMap) (k : PortWord) (io : Io) :
    (io.portClear m k).latch = portLatch m k false io.latch := rfl

@[simp] theorem portClear_dir (m : PinMap) (k : PortWord) (io : Io) : (io.portClear m k).dir = io.dir := rfl

@[simp] theorem portClear_srShift (m : PinMap) (k : PortWord) (io : Io) :
    (io.portClear m k).srShift = io.srShift := rfl

@[simp] theorem portClear_srOut (m : PinMap) (k : PortWord) (io : Io) : (io.portClear m k).srOut = io.srOut := rfl

/-- What a port write does to one latch (R31). -/
theorem portLatch_get (m : PinMap) (k : PortWord) (v : Bool) (x : Lines Bool) (l : Line) :
    (portLatch m k v x).get l =
      match portBit m l with
      | some i => if k.getLsbD i.val then v else x.get l
      | none => x.get l := by
  unfold portLatch
  exact lines_get_tabulate _ l

/-! ### The level a line presents (R30) -/

theorem level_of_output {io : Io} {l : Line} (h : io.dir.get l = .output) : io.level l = some (io.latch.get l) := by
  simp [Io.level, h]

theorem level_of_input {io : Io} {l : Line} (h : io.dir.get l = .input) : io.level l = none := by
  simp [Io.level, h]

/-- A line is high-impedance exactly when it is an input. -/
theorem level_eq_none {io : Io} {l : Line} : io.level l = none ↔ io.dir.get l = .input := by
  cases h : io.dir.get l <;> simp [Io.level, h]

/-- A line that becomes an output presents the last value written to its latch. -/
theorem pinDir_output_level (l : Line) (io : Io) : (io.pinDir .output l).level l = some (io.latch.get l) := by
  simp [Io.level]

/-- A line that becomes an input presents none. -/
theorem pinDir_input_level (l : Line) (io : Io) : (io.pinDir .input l).level l = none := by
  simp [Io.level]

/-! ### One event for each line of a list -/

/-- What `PinDir` over a list does: the events in order, the directions of the lines in the list, nothing else. -/
theorem forLines_pinDir (d : Dir) (ls : List Line) (io : Io) :
    (io.forLines (Io.pinDir d) ls).trace = io.trace ++ ls.map (fun l => Event.pinDir l d) ∧
    (∀ l, (io.forLines (Io.pinDir d) ls).dir.get l = if l ∈ ls then d else io.dir.get l) ∧
    (io.forLines (Io.pinDir d) ls).latch = io.latch ∧
    (io.forLines (Io.pinDir d) ls).srShift = io.srShift ∧
    (io.forLines (Io.pinDir d) ls).srOut = io.srOut := by
  induction ls generalizing io with
  | nil => simp [Io.forLines]
  | cons k ls ih =>
    obtain ⟨h1, h2, h3, h4, h5⟩ := ih (io.pinDir d k)
    refine ⟨by simp [Io.forLines, h1], fun l => ?_, h3, h4, h5⟩
    simp only [Io.forLines, h2, pinDir_dir, lines_get_set, List.mem_cons]
    by_cases hl : l ∈ ls <;> by_cases hk : l = k <;> simp [hl, hk]

/-- What `PinConfigure` over a list does: the events in order, no level, no direction. -/
theorem forLines_pinConfigure (ls : List Line) (io : Io) :
    (io.forLines Io.pinConfigure ls).trace = io.trace ++ ls.map Event.pinConfigure ∧
    (io.forLines Io.pinConfigure ls).dir = io.dir ∧
    (io.forLines Io.pinConfigure ls).latch = io.latch ∧
    (io.forLines Io.pinConfigure ls).srShift = io.srShift ∧
    (io.forLines Io.pinConfigure ls).srOut = io.srOut := by
  induction ls generalizing io with
  | nil => simp [Io.forLines]
  | cons k ls ih =>
    obtain ⟨h1, h2⟩ := ih (io.pinConfigure k)
    refine ⟨?_, h2⟩
    rw [Io.forLines, h1, Io.pinConfigure, emit_trace]
    simp

/-! ### CFG_PUSH -/

@[simp] theorem pushBit_trace (v : Bool) (io : Io) :
    (io.pushBit v).trace =
      io.trace ++ [.pinWrite .cfgClk false, .pinWrite .cfgData v, .pinWrite .cfgClk true] := by
  simp [Io.pushBit]

@[simp] theorem pushBit_dir (v : Bool) (io : Io) : (io.pushBit v).dir = io.dir := rfl

@[simp] theorem pushBit_latch (v : Bool) (io : Io) (l : Line) :
    (io.pushBit v).latch.get l = if l = .cfgClk then true else if l = .cfgData then v else io.latch.get l := by
  simp only [Io.pushBit, pinWrite_latch, lines_get_set]
  split <;> simp_all

/-- A pushed bit enters the shift stage at bit 0 (R33). -/
theorem pushBit_srShift (v : Bool) (io : Io) :
    (io.pushBit v).srShift = io.srShift.extractLsb' 0 7 ++ BitVec.ofBool v := by
  simp [Io.pushBit, pinWrite_srShift, rises]

@[simp] theorem pushBit_srOut (v : Bool) (io : Io) : (io.pushBit v).srOut = io.srOut := by
  simp [Io.pushBit, pinWrite_srOut]

/-- One shift moves every bit up by one (R33). -/
theorem shift_getLsbD (x : Byte) (v : Bool) (i : Nat) :
    (x.extractLsb' 0 7 ++ BitVec.ofBool v : Byte).getLsbD i =
      if i = 0 then v else decide (i < 8) && x.getLsbD (i - 1) := by
  rw [BitVec.getLsbD_append]
  by_cases h : i = 0
  · simp [h]
  · have h1 : ¬ i < 1 := by omega
    simp only [h, h1, if_false, BitVec.getLsbD_extractLsb', Nat.zero_add]
    congr 1
    simp only [decide_eq_decide]
    omega

/-- Eight shifts replace the whole byte. -/
theorem shift_eight (x c : Byte) :
    ((((((((x.extractLsb' 0 7 ++ BitVec.ofBool (c.getLsbD 7)).extractLsb' 0 7 ++
      BitVec.ofBool (c.getLsbD 6)).extractLsb' 0 7 ++ BitVec.ofBool (c.getLsbD 5)).extractLsb' 0 7 ++
      BitVec.ofBool (c.getLsbD 4)).extractLsb' 0 7 ++ BitVec.ofBool (c.getLsbD 3)).extractLsb' 0 7 ++
      BitVec.ofBool (c.getLsbD 2)).extractLsb' 0 7 ++ BitVec.ofBool (c.getLsbD 1)).extractLsb' 0 7 ++
      BitVec.ofBool (c.getLsbD 0) : Byte) = c := by
  apply BitVec.eq_of_getLsbD_eq
  intro i hi
  interval_cases i <;> simp only [shift_getLsbD] <;> simp

theorem pushBits_eight (c : Byte) (io : Io) :
    Io.pushBits c 8 io =
      (((((((io.pushBit (c.getLsbD 7)).pushBit (c.getLsbD 6)).pushBit (c.getLsbD 5)).pushBit (c.getLsbD 4)).pushBit
        (c.getLsbD 3)).pushBit (c.getLsbD 2)).pushBit (c.getLsbD 1)).pushBit (c.getLsbD 0) := by
  simp only [Io.pushBits]

/-- The 26 events of a push (R100). -/
@[simp] theorem push_trace (c : Byte) (io : Io) : (io.push c).trace = io.trace ++ pushEvents c := by
  simp [Io.push, pushBits_eight, pushEvents, bitEvents]

@[simp] theorem push_dir (c : Byte) (io : Io) : (io.push c).dir = io.dir := by
  simp [Io.push, pushBits_eight]

/-- The latches after a push: strobe and clock 1, data the last bit sent, every other line as before (R100). -/
theorem push_latch (c : Byte) (io : Io) (l : Line) :
    (io.push c).latch.get l =
      if l = .cfgStr then true else if l = .cfgClk then true else if l = .cfgData then c.getLsbD 0
      else io.latch.get l := by
  simp only [Io.push, pushBits_eight, pinWrite_latch, lines_get_set, pushBit_latch]
  cases l <;> simp

/-- After a push the external register's shift stage and outputs are the pushed word (R33, D32). -/
theorem push_srShift (c : Byte) (io : Io) : (io.push c).srShift = c := by
  rw [Io.push, (show ((Io.pushBits c 8 (io.pinWrite .cfgStr false)).pinWrite .cfgStr true).srShift =
    (Io.pushBits c 8 (io.pinWrite .cfgStr false)).srShift by simp [pinWrite_srShift])]
  simp only [pushBits_eight, pushBit_srShift]
  exact shift_eight _ _

@[simp] theorem push_srOut (c : Byte) (io : Io) : (io.push c).srOut = c := by
  have h : ((Io.pushBits c 8 (io.pinWrite .cfgStr false))).srShift = c := by
    simp only [pushBits_eight, pushBit_srShift]
    exact shift_eight _ _
  have hl : ((Io.pushBits c 8 (io.pinWrite .cfgStr false))).latch.get .cfgStr = false := by
    simp [pushBits_eight]
  simp [Io.push, pinWrite_srOut, rises, h, hl]

@[simp] theorem pushEvents_length (c : Byte) : (pushEvents c).length = 26 := by
  simp [pushEvents, bitEvents]

/-! ### The fields of `CFG` -/

/-- Reading a field after writing one (R17). -/
@[simp] theorem cfgGet_cfgSet (f g : CfgField) (v : Bool) (c : Byte) :
    cfgGet g (cfgSet f v c) = if g = f then v else cfgGet g c := by
  cases f <;> cases g <;> cases v <;> simp [cfgGet, cfgSet, CfgField.bit]

/-- Two values of `CFG` with the same fields are equal. -/
theorem cfg_ext {a b : Byte} (h : ∀ f, cfgGet f a = cfgGet f b) : a = b := by
  apply BitVec.eq_of_getLsbD_eq
  intro i hi
  interval_cases i
  · exact h .le
  · exact h .pd
  · exact h .pos
  · exact h .neg
  · exact h .sof
  · exact h .dir
  · exact h .mode
  · exact h .oe

/-- Writing the value a field has changes nothing. -/
theorem cfgSet_self {f : CfgField} {v : Bool} {c : Byte} (h : cfgGet f c = v) : cfgSet f v c = c := by
  apply cfg_ext
  intro g
  rw [cfgGet_cfgSet]
  split <;> simp_all

@[simp] theorem cfgSet_cfgSet (f : CfgField) (u v : Bool) (c : Byte) : cfgSet f v (cfgSet f u c) = cfgSet f v c := by
  apply cfg_ext
  intro g
  simp only [cfgGet_cfgSet]
  split <;> rfl

/-! ### The bus word -/

theorem portOne_getLsbD (i : Fin 32) (v : Bool) (j : Nat) : (portOne i v).getLsbD j = (v && decide (j = i.val)) := by
  have hi := i.isLt
  unfold portOne
  cases v
  · simp
  · by_cases h : j = i.val
    · subst h
      simp [hi]
    · simp only [if_true, BitVec.getLsbD_shiftLeft, BitVec.getLsbD_one, Bool.true_and, h, decide_false]
      by_cases h1 : j < i.val
      · simp [h1]
      · have : j - i.val ≠ 0 := by omega
        simp [this]

/-- A mapped line is in the mask that clears the bus (R123, R124). -/
theorem clearMask_bit (m : PinMap) (l : Line) (i : Fin 32) (h : portBit m l = some i) :
    (dataMask m ||| clkMask m).getLsbD i.val = true := by
  cases l <;> simp only [portBit, Option.some.injEq, reduceCtorEq] at h <;> subst h <;>
    simp only [dataMask, clkMask, pack, BitVec.getLsbD_or, portOne_getLsbD] <;> simp

/-- After the clear of a bus word every mapped latch is 0 and every other as before (R121, R124). -/
theorem clear_latch (m : PinMap) (x : Lines Bool) (l : Line) :
    (portLatch m (dataMask m ||| clkMask m) false x).get l =
      if (portBit m l).isSome then false else x.get l := by
  rw [portLatch_get]
  cases h : portBit m l with
  | none => simp
  | some i => simp only [clearMask_bit m l i h, if_true, Option.isSome_some]

end Sys2Proof.Machine
end

