-- ==== Sys2Proof/Laws/Steps.lean ====
section
/-! SUPPORT. What a step can do, said once: every instruction but INIT is a sequence of primitive changes, and INIT has
three outcomes. Invariants are derived from these laws instead of unfolding the machine. -/

namespace Sys2Proof.Machine

/-- The primitive changes the operations are made of. -/
inductive Prim : State → State → Prop
  | place (q : Position) (s : State) : Prim s { s with pos := q }
  | work (x : Work) (s : State) : Prim s { s with work := x }
  | apply (f : CfgField) (v : Bool) (s : State) (h : f ≠ .mode ∧ f ≠ .oe ∧ f ≠ .dir) : Prim s (s.apply f v)
  | clearDirPd (s : State) : Prim s (clearDirAndPd s)
  | push (s : State) : Prim s s.push
  | sofLine (v : Bool) (s : State) : Prim s (s.pinWrite .sofLine v)
  | srcEn (v : Bool) (s : State) : Prim s (s.pinWrite .srcEn v)
  | panelDirs (d : Dir) (s : State) : Prim s (s.pinDirs d panelFacing)
  | pulse (d : Byte) (s : State) : Prim s (pulseWord d s)
  | clear (s : State) : Prim s (s.portClear (dataMask s.params.pinmap ||| clkMask s.params.pinmap))
  | delay (e : Event) (s : State) : Prim s (s.delay e)
  | power (v : Bool) (s : State) : Prim s (s.setPower v)
  | store (b : BufId) (p : Nat) (v : Byte) (s t : State) (h : writeByte b p v s = .next t) : Prim s t
  | fullDone (s : State) : Prim s (clearPartialCount s)
  | partialDone (s : State) : Prim s (bumpPuc s)
  | block (s : State) : Prim s (s.setBlockPartial true)
  | finish (s : State) : Prim s s.endSequence

/-- A sequence of primitive changes. -/
abbrev Reach := Relation.ReflTransGen Prim

theorem reach_refl (s : State) : Reach s s := .refl

theorem reach_trans {a b c : State} (h : Reach a b) (k : Reach b c) : Reach a c := h.trans k

theorem Prim.reach {s t : State} (h : Prim s t) : Reach s t := .single h

/-- A relation that is reflexive, transitive and holds of every primitive change holds of every sequence of them. -/
theorem reach_rel {R : State → State → Prop} (refl : ∀ s, R s s) (trans : ∀ {a b c}, R a b → R b c → R a c)
    (h : ∀ {s t}, Prim s t → R s t) {s t : State} (k : Reach s t) : R s t := by
  induction k with
  | refl => exact refl _
  | tail _ p ih => exact trans ih (h p)

/-- A predicate that every primitive change keeps is kept by every sequence of them. -/
theorem reach_keeps {P : State → Prop} (h : ∀ {s t}, Prim s t → P s → P t) {s t : State} (k : Reach s t) (hs : P s) :
    P t := by
  induction k with
  | refl => exact hs
  | tail _ p ih => exact h p ih

theorem forUp_reach {body : Nat → State → Result State} (h : ∀ i s t, body i s = .next t → Reach s t) {n first : Nat}
    {s t : State} : forUp body n first s = .next t → Reach s t :=
  forUp_rel reach_refl reach_trans h

theorem andThen_reach {r : Result State} {f : State → Result State} {s t : State}
    (h : ∀ {u}, r = .next u → Reach s u) (k : ∀ {u v}, f u = .next v → Reach u v) (e : andThen r f = .next t) :
    Reach s t := by
  obtain ⟨u, hu, e⟩ := andThen_eq_next.mp e
  exact reach_trans (h hu) (k e)

/-! ### Phases -/

theorem setPhase_reach (p : Phase) (s : State) : Reach s (s.setPhase p) :=
  (Prim.place { s.pos with phase := p } s).reach

theorem inPhase_reach {p : Phase} {f : State → State} (h : ∀ s, Reach s (f s)) (s : State) : Reach s (inPhase p f s) :=
  reach_trans (reach_trans (setPhase_reach p s) (h _)) (setPhase_reach _ _)

theorem inPhaseR_reach {p : Phase} {f : State → Result State} (h : ∀ {s t}, f s = .next t → Reach s t) {s t : State}
    (e : inPhaseR p f s = .next t) : Reach s t := by
  obtain ⟨u, hu, e⟩ := andThen_eq_next.mp e
  cases e
  exact reach_trans (reach_trans (setPhase_reach p s) (h hu)) (setPhase_reach _ _)

/-! ### The operations -/

theorem powerOnSteps_reach (s : State) : Reach s (powerOnSteps s) := by
  unfold powerOnSteps
  refine reach_trans (Prim.panelDirs .output s).reach ?_
  refine reach_trans (Prim.clearDirPd _).reach ?_
  refine reach_trans (Prim.delay (.delayUnits 100) _).reach ?_
  refine reach_trans (Prim.apply .neg true _ (by decide)).reach ?_
  refine reach_trans (Prim.delay (.delayUnits 500) _).reach ?_
  refine reach_trans (Prim.apply .pos true _ (by decide)).reach ?_
  refine reach_trans (Prim.delay (.delayUnits 100) _).reach ?_
  refine reach_trans (Prim.apply .sof true _ (by decide)).reach ?_
  exact (Prim.power true _).reach

theorem powerOn_reach (s : State) : Reach s (powerOn s) := by
  unfold powerOn
  split
  · exact reach_refl s
  · exact inPhase_reach powerOnSteps_reach s

theorem powerOffSteps_reach (s : State) : Reach s (powerOffSteps s) := by
  unfold powerOffSteps
  refine reach_trans (Prim.apply .pos false s (by decide)).reach ?_
  refine reach_trans (Prim.delay (.delayUnits 10) _).reach ?_
  refine reach_trans (Prim.apply .neg false _ (by decide)).reach ?_
  refine reach_trans (Prim.delay (.delayUnits 100) _).reach ?_
  refine reach_trans (Prim.apply .pd true _ (by decide)).reach ?_
  refine reach_trans (Prim.apply .sof false _ (by decide)).reach ?_
  refine reach_trans (Prim.clear _).reach ?_
  refine reach_trans (Prim.panelDirs .input _).reach ?_
  exact (Prim.power false _).reach

theorem powerOff_reach (s : State) : Reach s (powerOff s) := by
  unfold powerOff
  split
  · exact inPhase_reach powerOffSteps_reach s
  · exact reach_refl s

theorem vscanSteps_reach (q : List VStep) (s : State) : Reach s (vscanSteps q s) := by
  induction q generalizing s with
  | nil => exact reach_refl s
  | cons v q ih =>
    refine reach_trans ?_ (ih _)
    cases v with
    | line b => exact (Prim.sofLine b s).reach
    | bit b => exact (Prim.apply .sof b s (by decide)).reach
    | wait => exact (Prim.delay (.delayUs s.params.tVsUs) s).reach

theorem vscanStart_reach (s : State) : Reach s (vscanStart s) :=
  inPhase_reach (vscanSteps_reach _) s

theorem hscanStart_reach (s : State) : Reach s (hscanStart s) := by
  refine inPhase_reach (fun t => ?_) s
  unfold hscanSteps
  refine reach_trans (Prim.srcEn false t).reach ?_
  refine reach_trans (Prim.pulse t.work.drv _).reach ?_
  exact (Prim.srcEn true _).reach

theorem colWord_reach (s : State) : Reach s (colWord s) :=
  inPhase_reach (fun t => (Prim.pulse t.work.drv t).reach) s

theorem vscanEnd_reach (s : State) : Reach s (vscanEnd s) := by
  refine inPhase_reach (fun t => ?_) s
  unfold vscanEndSteps
  refine reach_trans (Prim.apply .le true t (by decide)).reach ?_
  refine reach_trans (Prim.apply .le false _ (by decide)).reach ?_
  exact (Prim.sofLine true _).reach

/-- Loading a word writes `DRV` and nothing else (R145). -/
theorem loadWord_eq_next {d : PassDesc} {s t : State} :
    loadWord d s = .next t ↔
      ∃ v, word d s.work.kw.toNat s = .next v ∧ t = { s with work := { s.work with drv := v } } := by
  rw [loadWord, andThen_eq_next]
  constructor
  · rintro ⟨v, hv, e⟩
    cases e
    exact ⟨v, hv, rfl⟩
  · rintro ⟨v, hv, rfl⟩
    exact ⟨v, hv, rfl⟩

theorem loadWord_reach {d : PassDesc} {s t : State} (e : loadWord d s = .next t) : Reach s t := by
  obtain ⟨v, -, rfl⟩ := loadWord_eq_next.mp e
  exact (Prim.work _ s).reach

theorem atWord_reach (row col : Nat) (s : State) : Reach s (atWord row col s) :=
  reach_trans (Prim.place { s.pos with row := BitVec.ofNat 16 row, col := BitVec.ofNat 16 col } s).reach
    (Prim.work { s.work with kw := BitVec.ofNat 32 (row * s.wpr + col) } _).reach

theorem passCol_reach {d : PassDesc} {row col : Nat} {s t : State} (e : passCol d row col s = .next t) : Reach s t := by
  refine andThen_reach (fun h => reach_trans (atWord_reach row col s) (loadWord_reach h)) (fun h => ?_) e
  cases h
  exact colWord_reach _

theorem passRow_reach {d : PassDesc} {row : Nat} {s t : State} (e : passRow d row s = .next t) : Reach s t := by
  refine andThen_reach (fun h => reach_trans (atWord_reach row 0 s) (loadWord_reach h)) (fun {u} {v} h => ?_) e
  obtain ⟨x, hx, h⟩ := andThen_eq_next.mp h
  cases h
  exact reach_trans (reach_trans (hscanStart_reach u) (forUp_reach (fun _ _ _ => passCol_reach) hx)) (vscanEnd_reach x)

theorem runScan_reach {d : PassDesc} {s t : State} (e : runScan d s = .next t) : Reach s t :=
  reach_trans (vscanStart_reach s) (forUp_reach (fun _ _ _ => passRow_reach) e)

theorem settle_reach (s : State) : Reach s (settle s) :=
  inPhase_reach (fun t => (Prim.delay (.delayUs Config.tSettleUs) t).reach) s

theorem runPass_reach {d : PassDesc} {s t : State} (e : runPass d s = .next t) : Reach s t := by
  refine andThen_reach runScan_reach (fun {u} {v} h => ?_) e
  cases h
  exact reach_trans (settle_reach u) (Prim.place { (settle u).pos with passIdx := (settle u).pos.passIdx + 1 } _).reach

theorem runPasses_reach {ds : List PassDesc} {s t : State} (e : runPasses ds s = .next t) : Reach s t := by
  induction ds generalizing s with
  | nil =>
    cases e
    exact reach_refl t
  | cons d ds ih =>
    obtain ⟨u, hu, e⟩ := andThen_eq_next.mp e
    exact reach_trans (runPass_reach hu) (ih e)

theorem writeByte_reach {b : BufId} {p : Nat} {v : Byte} {s t : State} (e : writeByte b p v s = .next t) : Reach s t :=
  (Prim.store b p v s t e).reach

theorem modifyByte_reach {b : BufId} {p : Nat} {f : Byte → Byte} {s t : State} (e : modifyByte b p f s = .next t) :
    Reach s t := by
  obtain ⟨v, -, h⟩ := andThen_eq_next.mp e
  exact writeByte_reach h

theorem diffAt_reach {p : Nat} {s t : State} (e : diffAt p s = .next t) : Reach s t := by
  unfold diffAt at e
  obtain ⟨a, -, e⟩ := andThen_eq_next.mp e
  obtain ⟨b, -, e⟩ := andThen_eq_next.mp e
  obtain ⟨u, hu, e⟩ := andThen_eq_next.mp e
  obtain ⟨v, hv, e⟩ := andThen_eq_next.mp e
  cases e
  exact reach_trans (reach_trans (writeByte_reach hu) (writeByte_reach hv)) (Prim.work _ v).reach

theorem diffLoop_reach {s t : State} (e : diffLoop s = .next t) : Reach s t :=
  reach_trans (Prim.work { s.work with n := BitVec.ofNat 32 (2 * s.len) - 1 } s).reach
    (forUp_reach (fun _ _ _ => diffAt_reach) e)

theorem runDiff_reach {s t : State} (e : runDiff s = .next t) : Reach s t := by
  unfold runDiff at e
  split at e
  · cases e
  · exact inPhaseR_reach diffLoop_reach e

theorem commitAt_reach {q : Nat} {s t : State} (e : commitAt q s = .next t) : Reach s t := by
  obtain ⟨v, -, h⟩ := andThen_eq_next.mp e
  exact writeByte_reach h

theorem runCommit_reach {s t : State} (e : runCommit s = .next t) : Reach s t := by
  unfold runCommit at e
  split at e
  · cases e
  · exact inPhaseR_reach (forUp_reach fun _ _ _ => commitAt_reach) e

theorem sequence_reach {q : Seq} {body : State → Result State} (h : ∀ {s t}, body s = .next t → Reach s t) {s t : State}
    (e : sequence q body s = .next t) : Reach s t := by
  refine andThen_reach (fun k => ?_) (fun {u} {v} k => ?_) e
  · exact reach_trans (reach_trans (Prim.place { s.pos with seq := q, passIdx := 0 } s).reach (powerOn_reach _)) (h k)
  · cases k
    exact reach_trans (powerOff_reach u) (Prim.finish _).reach

theorem refreshFullMono_reach {s t : State} (e : refreshFullMono s = .next t) : Reach s t := by
  unfold refreshFullMono at e
  split at e
  · cases e
  · refine sequence_reach (fun {u} {v} k => ?_) e
    exact andThen_reach runPasses_reach (fun h => reach_trans (Prim.fullDone _).reach (runCommit_reach h)) k

theorem refreshPartial_reach {s t : State} (e : refreshPartial s = .next t) : Reach s t := by
  unfold refreshPartial at e
  split at e
  · cases e
  · split at e
    · refine sequence_reach (fun {u} {v} k => ?_) e
      refine andThen_reach runDiff_reach (fun h => ?_) k
      refine andThen_reach runPasses_reach (fun h => ?_) h
      refine andThen_reach runCommit_reach (fun h => ?_) h
      cases h
      exact (Prim.partialDone _).reach
    · cases e

theorem greySubframe_reach {k : Nat} {s t : State} (e : greySubframe k s = .next t) : Reach s t :=
  reach_trans (Prim.work { s.work with k := BitVec.ofNat 3 k } s).reach (runPass_reach e)

theorem refreshGrey_reach {s t : State} (e : refreshGrey s = .next t) : Reach s t := by
  unfold refreshGrey at e
  split at e
  · refine sequence_reach (fun {u} {v} k => ?_) e
    refine andThen_reach runPasses_reach (fun h => ?_) k
    exact andThen_reach (forUp_reach fun _ _ _ => greySubframe_reach) runPasses_reach h
  · cases e

theorem forcedFullCheck_reach (s : State) : Reach s (forcedFullCheck s) := by
  unfold forcedFullCheck
  split
  · exact (Prim.block s).reach
  · exact reach_refl s

/-- What the common precondition lets through (R160): nothing happens, or the body runs in a block that may run it. -/
theorem command_eq_next {b : Bool} {body : State → Result State} {s t : State} :
    command b body s = .next t ↔
      (s.flags.failed = true ∧ t = s) ∨
        (s.flags.failed = false ∧ (b = true → s.flags.initialised = true) ∧ body s = .next t) := by
  unfold command
  cases hf : s.flags.failed <;> cases b <;> cases hi : s.flags.initialised <;> simp [eq_comm]

theorem command_reach {b : Bool} {body : State → Result State} (h : ∀ {s t}, body s = .next t → Reach s t) {s t : State}
    (e : command b body s = .next t) : Reach s t := by
  obtain ⟨-, rfl⟩ | ⟨-, -, k⟩ := command_eq_next.mp e
  · exact reach_refl _
  · exact h k

theorem setPixelBody_reach {x y : BitVec 16} {c : Colour} {s t : State} (e : setPixelBody x y c s = .next t) :
    Reach s t := by
  unfold setPixelBody at e
  split at e
  · exact modifyByte_reach e
  · cases e
    exact reach_refl s

theorem fillBody_reach {c : Colour} {s t : State} (e : fillBody c s = .next t) : Reach s t :=
  forUp_reach (fun _ _ _ => writeByte_reach) e

theorem refreshBody_reach {s t : State} (e : refreshBody s = .next t) : Reach s t := by
  refine andThen_reach (fun h => ?_) (fun h => ?_) e
  · unfold refreshVariant at h
    split at h
    · exact refreshGrey_reach h
    · split at h
      · exact refreshPartial_reach h
      · exact refreshFullMono_reach h
  · cases h
    exact forcedFullCheck_reach _

/-! ### INIT -/

/-- The outcomes of INIT that are next states: a failed block, an unchanged geometry, a failed allocation, a new
allocation (R162). -/
inductive InitOutcome (w h : BitVec 16) (g p : Bool) (fue : BitVec 16) (s : State) : State → Prop
  | ignored (hf : s.flags.failed = true) : InitOutcome w h g p fue s s
  | kept (hf : s.flags.failed = false) (hg : geometryAdmitted w h = true) (hs : sameGeometry w h g s = true) :
      InitOutcome w h g p fue s (configure w h g p fue s)
  | failed (hf : s.flags.failed = false) (hg : geometryAdmitted w h = true) (hs : sameGeometry w h g s = false)
      (hn : s.params.fbCapacity < need w h g) :
      InitOutcome w h g p fue s (raise .allocationFailure (releaseBuffers s))
  | fresh (hf : s.flags.failed = false) (hg : geometryAdmitted w h = true) (hs : sameGeometry w h g s = false)
      (hn : need w h g ≤ s.params.fbCapacity) :
      InitOutcome w h g p fue s (configure w h g p fue (allocateBuffers w h g (releaseBuffers s)))

theorem execInit_outcome {w h : BitVec 16} {g p : Bool} {fue : BitVec 16} {s t : State}
    (e : execInit w h g p fue s = .next t) : InitOutcome w h g p fue s t := by
  obtain ⟨hf, rfl⟩ | ⟨hf, -, e⟩ := command_eq_next.mp e
  · exact .ignored hf
  · unfold initBody at e
    split at e
    · rename_i hg
      split at e
      · rename_i hs
        cases e
        exact .kept hf hg hs
      · rename_i hs
        rw [Bool.not_eq_true] at hs
        split at e
        · rename_i hn
          cases e
          exact .failed hf hg hs hn
        · rename_i hn
          cases e
          exact .fresh hf hg hs (Nat.le_of_not_lt hn)
    · cases e

/-! ### exec -/

/-- What an instruction can do when it answers a next state: an outcome of INIT, or a sequence of primitive changes. -/
theorem exec_cases {i : Instr} {s t : State} (e : exec i s = .next t) :
    (∃ w h g p fue, i = .init w h g p fue ∧ InitOutcome w h g p fue s t) ∨ Reach s t := by
  cases i with
  | init w h g p fue => exact .inl ⟨w, h, g, p, fue, rfl, execInit_outcome e⟩
  | setPixel x y c => exact .inr (command_reach setPixelBody_reach e)
  | fill c => exact .inr (command_reach fillBody_reach e)
  | clean => exact .inr (command_reach (sequence_reach runPasses_reach) e)
  | refresh => exact .inr (command_reach refreshBody_reach e)
  | passConstWhite => exact .inr (loadWord_reach (d := .const .white) e)
  | passConstBlack => exact .inr (loadWord_reach (d := .const .black) e)
  | passConstDischarge => exact .inr (loadWord_reach (d := .const .discharge) e)
  | passConstSkip => exact .inr (loadWord_reach (d := .const .skip) e)
  | passMonoLutb => exact .inr (loadWord_reach e)
  | passMonoLut2 => exact .inr (loadWord_reach e)
  | passDiff => exact .inr (loadWord_reach e)
  | passGrey k => exact .inr (loadWord_reach e)
  | idle =>
    cases e
    exact .inr (setPhase_reach _ s)
  | vscanStart =>
    cases e
    exact .inr (vscanStart_reach s)
  | hscanStart =>
    cases e
    exact .inr (hscanStart_reach s)
  | colWord =>
    cases e
    exact .inr (colWord_reach s)
  | vscanEnd =>
    cases e
    exact .inr (vscanEnd_reach s)
  | settle =>
    cases e
    exact .inr (settle_reach s)
  | cfgPush =>
    cases e
    exact .inr (inPhase_reach (fun t => (Prim.push t).reach) s)
  | powerOn =>
    cases e
    exact .inr (powerOn_reach s)
  | powerOff =>
    cases e
    exact .inr (powerOff_reach s)
  | diff => exact .inr (runDiff_reach e)
  | commit => exact .inr (runCommit_reach e)
  | pass d => exact .inr (runScan_reach e)
  | runPass d => exact .inr (runPass_reach e)
  | refreshFullMono => exact .inr (refreshFullMono_reach e)
  | refreshPartial => exact .inr (refreshPartial_reach e)
  | refreshGrey => exact .inr (refreshGrey_reach e)

/-! ### step -/

/-- A reset is taken exactly with the power off (R232). -/
theorem takeReset_eq_next {s t : State} : takeReset s = .next t ↔ s.flags.power = false ∧ t = resetEvent s := by
  unfold takeReset
  cases s.flags.power <;> simp [eq_comm]

theorem takeReset_ne_fault {s : State} {r : Fault} : takeReset s ≠ .fault r := by
  unfold takeReset
  split <;> simp

/-- What a step can do when it answers a next state: idle, the reset event with the power off, or the instruction at the head of the port. -/
theorem step_cases {s t : State} (e : step s = .next t) :
    s.params.valid = true ∧
      ((s.port = [] ∧ t = s.setPhase .idle) ∨
        (∃ rest, s.port = .reset :: rest ∧ s.flags.power = false ∧ t = resetEvent { s with port := rest }) ∨
        ∃ c i rest, s.port = .code c :: rest ∧ decode c = .ok i ∧ exec i { s with port := rest } = .next t) := by
  unfold step at e
  split at e
  · rename_i hv
    refine ⟨hv, ?_⟩
    unfold fetch at e
    split at e
    · rename_i hf
      split at hf
      · rename_i hp
        cases e
        exact .inl ⟨hp, rfl⟩
      · cases hf
      · split at hf <;> cases hf
    · rename_i u hf
      split at hf
      · cases hf
      · rename_i rest hp
        cases hf
        obtain ⟨hw, rfl⟩ := takeReset_eq_next.mp e
        exact .inr (.inl ⟨rest, hp, hw, rfl⟩)
      · split at hf <;> cases hf
    · rename_i j u hf
      split at hf
      · cases hf
      · cases hf
      · rename_i c rest hp
        split at hf
        · rename_i j' hd
          cases hf
          exact .inr (.inr ⟨c, _, rest, hp, hd, e⟩)
        · cases hf
    · cases e
  · cases e

end Sys2Proof.Machine
end

