-- ==== Sys2Proof/Laws/Words.lean ====
section
/-! SUPPORT. The laws of Word (43_waveform_encoder.md R145): when a pass has a word, and what it depends on. -/

namespace Sys2Proof.Machine

/-! ### Sizes -/

theorem len_mono {s : State} (h : s.conf.grey = false) : s.len = (s.conf.w.toNat * s.conf.h.toNat + 7) / 8 := by
  simp [State.len, bufferLength, packingFactor, h]

theorem len_grey {s : State} (h : s.conf.grey = true) : s.len = (s.conf.w.toNat * s.conf.h.toNat + 1) / 2 := by
  simp [State.len, bufferLength, packingFactor, h]

/-- The words of a pass carry four pixels each (R125). -/
theorem rows_mul_wpr (s : State) : 4 * (s.rows * s.wpr) ≤ s.conf.w.toNat * s.conf.h.toNat := by
  have h : 4 * (s.conf.w.toNat / 4) ≤ s.conf.w.toNat := Nat.mul_div_le _ _
  calc 4 * (s.rows * s.wpr) = 4 * (s.conf.w.toNat / 4) * s.conf.h.toNat := by
        simp only [State.rows, State.wpr]; ring
    _ ≤ s.conf.w.toNat * s.conf.h.toNat := Nat.mul_le_mul_right _ h

/-- A word index fits `KW` (R12). -/
theorem wordIndex_lt {s : State} {row col : Nat} (hr : row < s.rows) (hc : col < s.wpr) :
    row * s.wpr + col < s.rows * s.wpr := by
  calc row * s.wpr + col < row * s.wpr + s.wpr := by omega
    _ = (row + 1) * s.wpr := by ring
    _ ≤ s.rows * s.wpr := Nat.mul_le_mul_right _ hr

theorem rows_mul_wpr_lt (s : State) : s.rows * s.wpr < 2 ^ 32 := by
  have h1 : s.rows < 2 ^ 16 := s.conf.h.isLt
  have h2 : s.wpr < 2 ^ 16 := lt_of_le_of_lt (Nat.div_le_self _ _) s.conf.w.isLt
  calc s.rows * s.wpr < 2 ^ 16 * 2 ^ 16 := Nat.mul_lt_mul'' h1 h2
    _ = 2 ^ 32 := by norm_num

/-! ### What buffers an initialised block has -/

theorem buffersSized_admitted {s : State} (hi : s.flags.initialised = true) (hb : BuffersSized s) :
    s.conf.w.toNat % 4 = 0 ∧ 4 ≤ s.conf.w.toNat ∧ 1 ≤ s.conf.h.toNat := by
  have h := hb
  simp only [BuffersSized, hi, if_true] at h
  simpa [geometryAdmitted, and_assoc] using h.1

theorem buffersSized_buf0 {s : State} (hi : s.flags.initialised = true) (hb : BuffersSized s) :
    s.bufs.buf0.offsets = List.range s.len := by
  simp only [BuffersSized, hi, if_true] at hb
  exact hb.2.1

theorem buffersSized_mono {s : State} (hi : s.flags.initialised = true) (hb : BuffersSized s)
    (hg : s.conf.grey = false) :
    s.bufs.buf1.offsets = List.range s.len ∧ s.bufs.buf2.offsets = List.range (2 * s.len) := by
  simp only [BuffersSized, hi, if_true, hg] at hb
  simpa using hb.2.2

/-- The words per row of an initialised block are at least one (R125). -/
theorem one_le_wpr {s : State} (hi : s.flags.initialised = true) (hb : BuffersSized s) : 1 ≤ s.wpr := by
  have h := (buffersSized_admitted hi hb).2.1
  simp only [State.wpr]
  omega

/-! ### Word -/

theorem readBack_of_offsets {b : BufId} {n k : Nat} {s : State} (h : (s.bufs.get b).offsets = List.range n)
    (hk : k < n) : ∃ v, s.byteAt b (n - 1 - k) = some v ∧ readBack b n k s = .next v := by
  obtain ⟨v, hv⟩ := read_of_lt h (show n - 1 - k < n by omega)
  exact ⟨v, hv, by simp only [readBack, hk, if_true]; exact readByte_eq_next.mpr hv⟩

/-- The nibble of a word index, in an initialised monochrome block (R56). -/
theorem scanNibble_total {k : Nat} {s : State} (hi : s.flags.initialised = true) (hb : BuffersSized s)
    (hg : s.conf.grey = false) (hk : k < s.rows * s.wpr) :
    ∃ v, s.byteAt .buf1 (s.len - 1 - k / 2) = some v ∧
      scanNibble .buf1 k s = .next (if k % 2 = 0 then hiNibble v else loNibble v) := by
  have h4 := rows_mul_wpr s
  have hl := len_mono hg
  obtain ⟨v, hv, hr⟩ := readBack_of_offsets (b := .buf1) (k := k / 2) (buffersSized_mono hi hb hg).1
    (show k / 2 < s.len by omega)
  exact ⟨v, hv, by simp [scanNibble, hr]⟩

/-- Every word of a pass exists, for a descriptor of the block's pixel mode (R56, R57, R145). -/
theorem word_total {d : PassDesc} {k : Nat} {s : State} (hi : s.flags.initialised = true) (hb : BuffersSized s)
    (hd : fitsMode d s.conf.grey = true) (hk : k < s.rows * s.wpr) : ∃ v, word d k s = .next v := by
  have h4 := rows_mul_wpr s
  cases d with
  | const kind => exact ⟨_, rfl⟩
  | monoLutb =>
    have hg : s.conf.grey = false := by simpa [fitsMode] using hd
    obtain ⟨v, -, hv⟩ := scanNibble_total hi hb hg hk
    exact ⟨_, by simp only [word, hg, hv]; rfl⟩
  | monoLut2 =>
    have hg : s.conf.grey = false := by simpa [fitsMode] using hd
    obtain ⟨v, -, hv⟩ := scanNibble_total hi hb hg hk
    exact ⟨_, by simp only [word, hg, hv]; rfl⟩
  | diff =>
    have hg : s.conf.grey = false := by simpa [fitsMode] using hd
    have hl := len_mono hg
    obtain ⟨v, -, hv⟩ := readBack_of_offsets (b := .buf2) (k := k) (buffersSized_mono hi hb hg).2
      (show k < 2 * s.len by omega)
    exact ⟨v, by simp only [word, hg, hv]; rfl⟩
  | grey sub =>
    have hg : s.conf.grey = true := by simpa [fitsMode] using hd
    have hl := len_grey hg
    obtain ⟨a, -, ha⟩ := readBack_of_offsets (b := .buf0) (k := 2 * k) (buffersSized_buf0 hi hb)
      (show 2 * k < s.len by omega)
    obtain ⟨b, -, hr⟩ := readBack_of_offsets (b := .buf0) (k := 2 * k + 1) (buffersSized_buf0 hi hb)
      (show 2 * k + 1 < s.len by omega)
    exact ⟨greyDrive s.params sub a b, by simp only [word, hg, ha, hr, if_true, andThen_next]⟩

theorem readByte_congr {b : BufId} {p : Nat} {s t : State} (h : t.bufs.get b = s.bufs.get b) :
    readByte b p t = readByte b p s := by
  simp [readByte, State.byteAt, h]

theorem readBack_congr {b : BufId} {n k : Nat} {s t : State} (h : t.bufs.get b = s.bufs.get b) :
    readBack b n k t = readBack b n k s := by
  simp [readBack, readByte_congr h]

/-- Word depends on the parameters, the configuration registers and the buffers alone (R145, R151). -/
theorem word_congr {d : PassDesc} {k : Nat} {s t : State} (hp : t.params = s.params) (hc : t.conf = s.conf)
    (hb : t.bufs = s.bufs) : word d k t = word d k s := by
  have hl : t.len = s.len := by simp [State.len, hc]
  have hr : ∀ b n k, readBack b n k t = readBack b n k s := fun b n k => readBack_congr (by rw [hb])
  cases d <;> simp only [word, scanNibble, hp, hc, hl, hr]

/-- The words of the full monochrome refresh and of CLEAN depend on `BUF1` alone (R145). -/
theorem word_congr_buf1 {d : PassDesc} {k : Nat} {s t : State} (hp : t.params = s.params) (hc : t.conf = s.conf)
    (hb : t.bufs.buf1 = s.bufs.buf1) (hd : d = .monoLutb ∨ d = .monoLut2 ∨ ∃ kind, d = .const kind) :
    word d k t = word d k s := by
  have hl : t.len = s.len := by simp [State.len, hc]
  have hr : ∀ n k, readBack .buf1 n k t = readBack .buf1 n k s := fun n k => readBack_congr hb
  obtain rfl | rfl | ⟨kind, rfl⟩ := hd <;> simp only [word, scanNibble, hp, hc, hl, hr]

/-- `wordByte` is Word where Word answers. -/
theorem word_eq_wordByte {d : PassDesc} {k : Nat} {s : State} (h : ∃ v, word d k s = .next v) :
    word d k s = .next (wordByte s d k) := by
  obtain ⟨v, hv⟩ := h
  simp [wordByte, hv]

theorem wordByte_congr {d : PassDesc} {k : Nat} {s t : State} (hp : t.params = s.params) (hc : t.conf = s.conf)
    (hb : t.bufs = s.bufs) : wordByte t d k = wordByte s d k := by
  simp [wordByte, word_congr hp hc hb]

/-! ### PixelAt (R44) -/

theorem pixelAt_mono {s : State} {x y : Nat} (b : BufId) (hg : s.conf.grey = false) (hx : x < s.conf.w.toNat)
    (hy : y < s.conf.h.toNat) :
    pixelAt b s x y = (monoPixel b s x y).map fun on => if on then .on else .off := by
  simp [pixelAt, hg, hx, hy]

theorem pixelAt_grey {s : State} {x y : Nat} (b : BufId) (hg : s.conf.grey = true) (hx : x < s.conf.w.toNat)
    (hy : y < s.conf.h.toNat) : pixelAt b s x y = (greyPixel b s x y).map .level := by
  simp [pixelAt, hg, hx, hy]

theorem pixelAt_off_panel {s : State} {x y : Nat} (b : BufId) (h : s.conf.w.toNat ≤ x ∨ s.conf.h.toNat ≤ y) :
    pixelAt b s x y = none := by
  rw [pixelAt, if_neg (by omega)]

/-- PixelAt depends on the configuration registers and the bytes of its buffer alone. -/
theorem pixelAt_congr {s t : State} {a b : BufId} (hc : t.conf = s.conf) (hb : t.bufs.get b = s.bufs.get a) (x y : Nat) :
    pixelAt b t x y = pixelAt a s x y := by
  simp only [pixelAt, greyPixel, monoPixel, State.byteAt, hc, hb]

end Sys2Proof.Machine
end

