-- ==== Sys2Proof/Laws/Scan.lean ====
section
/-! SUPPORT. The laws of the scan: what each operation of a pass appends to the trace, what it keeps, and what a whole pass
and a list of passes do (42_scan_engine.md R122 to R127, 45_refresh_orchestrator.md R181, R182). -/

namespace Sys2Proof.Machine

/-- What every operation of a pass keeps: all but the pins' levels, `CFG`, the loop counters and the working registers. -/
structure ScanKeeps (s t : State) : Prop where
  params : t.params = s.params
  conf : t.conf = s.conf
  flags : t.flags = s.flags
  puc : t.puc = s.puc
  bufs : t.bufs = s.bufs
  port : t.port = s.port
  draws : t.draws = s.draws
  seq : t.pos.seq = s.pos.seq
  passIdx : t.pos.passIdx = s.pos.passIdx
  phase : t.pos.phase = s.pos.phase
  dir : t.io.dir = s.io.dir
  panelEn : t.io.latch.get .panelEn = s.io.latch.get .panelEn

theorem ScanKeeps.refl (s : State) : ScanKeeps s s :=
  ⟨rfl, rfl, rfl, rfl, rfl, rfl, rfl, rfl, rfl, rfl, rfl, rfl⟩

theorem ScanKeeps.trans {a b c : State} (h : ScanKeeps a b) (k : ScanKeeps b c) : ScanKeeps a c :=
  ⟨k.params.trans h.params, k.conf.trans h.conf, k.flags.trans h.flags, k.puc.trans h.puc, k.bufs.trans h.bufs,
    k.port.trans h.port, k.draws.trans h.draws, k.seq.trans h.seq, k.passIdx.trans h.passIdx, k.phase.trans h.phase,
    k.dir.trans h.dir, k.panelEn.trans h.panelEn⟩

/-- A pass keeps the number of rows and the words per row. -/
theorem ScanKeeps.size {s t : State} (h : ScanKeeps s t) : t.rows = s.rows ∧ t.wpr = s.wpr :=
  ⟨rows_congr h.conf, wpr_congr h.conf⟩

/-- A pass reads the same words before and after any of its operations. -/
theorem ScanKeeps.word {s t : State} (h : ScanKeeps s t) (d : PassDesc) (k : Nat) : word d k t = word d k s :=
  word_congr h.params h.conf h.bufs

/-! ### Pulses -/

@[simp] theorem clear_panelEn (m : PinMap) (k : PortWord) (v : Bool) (x : Lines Bool) :
    (portLatch m k v x).get .panelEn = x.get .panelEn := by
  rw [portLatch_get]
  rfl

/-- A bus word's two events, the levels it leaves and what it keeps (R123, R124). -/
theorem pulseWord_spec (d : Byte) (s : State) :
    (pulseWord d s).io.trace = s.io.trace ++ wordEvents s.params.pinmap d ∧
    (∀ l, (pulseWord d s).io.latch.get l = if (portBit s.params.pinmap l).isSome then false else s.io.latch.get l) ∧
    (pulseWord d s).io.srOut = s.io.srOut ∧ ScanKeeps s (pulseWord d s) := by
  refine ⟨by simp [wordEvents], fun l => ?_, by simp, ⟨by simp, by simp, by simp, by simp, by simp, by simp, by simp,
    by simp, by simp, by simp, by simp, ?_⟩⟩
  · rw [pulseWord_io, portClear_latch, clear_latch, portSet_latch, portLatch_get]
    cases portBit s.params.pinmap l <;> simp
  · simp

/-- HSCAN_START (R123). -/
theorem hscanStart_spec (s : State) :
    (hscanStart s).io.trace = s.io.trace ++ hscanEvents s.params.pinmap s.work.drv ∧
    (hscanStart s).cfg = s.cfg ∧ (hscanStart s).work = s.work ∧ (hscanStart s).pos = s.pos ∧
    ScanKeeps s (hscanStart s) := by
  refine ⟨?_, ?_, ?_, ?_, ⟨?_, ?_, ?_, ?_, ?_, ?_, ?_, ?_, ?_, ?_, ?_, ?_⟩⟩ <;>
    simp [hscanStart, inPhase, hscanSteps, hscanEvents, wordEvents]

/-- COL_WORD (R124). -/
theorem colWord_spec (s : State) :
    (colWord s).io.trace = s.io.trace ++ wordEvents s.params.pinmap s.work.drv ∧
    (colWord s).cfg = s.cfg ∧ (colWord s).work = s.work ∧ (colWord s).pos = s.pos ∧ ScanKeeps s (colWord s) := by
  refine ⟨?_, ?_, ?_, ?_, ⟨?_, ?_, ?_, ?_, ?_, ?_, ?_, ?_, ?_, ?_, ?_, ?_⟩⟩ <;> simp [colWord, inPhase, wordEvents]

/-! ### Pushes -/

/-- Changing a field and pushing (R101). -/
theorem apply_spec (f : CfgField) (v : Bool) (s : State) :
    (s.apply f v).io.trace = s.io.trace ++ pushEvents (cfgSet f v s.cfg) ∧ (s.apply f v).cfg = cfgSet f v s.cfg ∧
    (s.apply f v).work = s.work ∧ (s.apply f v).pos = s.pos ∧ (s.apply f v).io.srOut = cfgSet f v s.cfg ∧
    (∀ l ∈ panelFacing, (s.apply f v).io.latch.get l = s.io.latch.get l) ∧ ScanKeeps s (s.apply f v) := by
  refine ⟨by simp, by simp, by simp, by simp, by simp, fun l hl => ?_, ⟨by simp, by simp, by simp, by simp, by simp,
    by simp, by simp, by simp, by simp, by simp, by simp, ?_⟩⟩
  · rw [State.apply_io, push_latch]
    cases l <;> simp [panelFacing] at hl ⊢
  · rw [State.apply_io, push_latch]
    rfl

/-- VSCAN_END (R127). -/
theorem vscanEnd_spec (s : State) :
    (vscanEnd s).io.trace = s.io.trace ++ vscanEndEvents s.cfg ∧ (vscanEnd s).cfg = cfgSet .le false s.cfg ∧
    (vscanEnd s).work = s.work ∧ (vscanEnd s).pos = s.pos ∧ (vscanEnd s).io.latch.get .sofLine = true ∧
    ScanKeeps s (vscanEnd s) := by
  refine ⟨?_, ?_, ?_, ?_, ?_, ⟨?_, ?_, ?_, ?_, ?_, ?_, ?_, ?_, ?_, ?_, ?_, ?_⟩⟩ <;>
    simp [vscanEnd, inPhase, vscanEndSteps, vscanEndEvents, push_latch]

/-! ### VSCAN_START -/

/-- The micro-steps of a pattern (R122). -/
theorem vscanSteps_spec (q : List VStep) (s : State) :
    (vscanSteps q s).io.trace = s.io.trace ++ vscanEvents s.params.tVsUs q s.cfg ∧
    (vscanSteps q s).cfg = vscanCfg q s.cfg ∧ (vscanSteps q s).pos = s.pos ∧
    (vscanSteps q s).work = { s.work with dly := (vscanSteps q s).work.dly } ∧ ScanKeeps s (vscanSteps q s) := by
  induction q generalizing s with
  | nil => exact ⟨by simp [vscanSteps, vscanEvents], rfl, rfl, rfl, .refl s⟩
  | cons v q ih =>
    obtain ⟨h1, h2, h3, h4, h5⟩ := ih (vscanStep v s)
    cases v with
    | line b =>
      have k : ScanKeeps s (vscanStep (.line b) s) :=
        ⟨rfl, rfl, rfl, rfl, rfl, rfl, rfl, rfl, rfl, rfl, rfl, by simp [vscanStep]⟩
      refine ⟨?_, h2, h3, h4, k.trans h5⟩
      simp only [vscanSteps, h1]
      simp [vscanStep, vscanEvents]
    | bit b =>
      obtain ⟨a1, a2, a3, a4, -, -, k⟩ := apply_spec .sof b s
      refine ⟨?_, ?_, h3.trans a4, ?_, k.trans h5⟩
      · simp only [vscanSteps, h1]
        simp [vscanStep, vscanEvents]
      · simp only [vscanSteps, h2]
        simp [vscanStep, vscanCfg]
      · rw [vscanStep, a3] at h4
        exact h4
    | wait =>
      have k : ScanKeeps s (vscanStep .wait s) := ⟨rfl, rfl, rfl, rfl, rfl, rfl, rfl, rfl, rfl, rfl, rfl, rfl⟩
      refine ⟨?_, h2, h3, h4, k.trans h5⟩
      simp only [vscanSteps, h1]
      simp [vscanStep, vscanEvents, State.delayUs]

/-- VSCAN_START (R122). -/
theorem vscanStart_spec (s : State) :
    (vscanStart s).io.trace = s.io.trace ++ vscanEvents s.params.tVsUs s.params.vscanStartSeq s.cfg ∧
    (vscanStart s).cfg = vscanCfg s.params.vscanStartSeq s.cfg ∧ (vscanStart s).pos = s.pos ∧
    (vscanStart s).work = { s.work with dly := (vscanStart s).work.dly } ∧ ScanKeeps s (vscanStart s) := by
  obtain ⟨h1, h2, h3, h4, h5⟩ := vscanSteps_spec s.params.vscanStartSeq (s.setPhase .vscanStart)
  have h6 : (vscanStart s).pos = s.pos := by
    simp [vscanStart, inPhase, h3]
  exact ⟨h1, h2, h6, h4, ⟨h5.params, h5.conf, h5.flags, h5.puc, h5.bufs, h5.port, h5.draws, by rw [h6], by rw [h6],
    by rw [h6], h5.dir, h5.panelEn⟩⟩

/-- A pattern writes `SOF` and no other field (R122). -/
theorem vscanCfg_get (q : List VStep) (c : Byte) (f : CfgField) :
    cfgGet f (vscanCfg q c) = if f = .sof then (lastBit q).getD (cfgGet .sof c) else cfgGet f c := by
  induction q generalizing c with
  | nil => by_cases h : f = .sof <;> simp [vscanCfg, lastBit, h]
  | cons v q ih =>
    cases v with
    | line b => simp only [vscanCfg, lastBit, ih]
    | wait => simp only [vscanCfg, lastBit, ih]
    | bit b =>
      simp only [vscanCfg, lastBit, ih, cfgGet_cfgSet]
      by_cases h : f = .sof
      · cases lastBit q <;> simp [h]
      · simp [h]

/-- A valid pattern ends with `SOF` = 1 (R122). -/
theorem lastBit_valid {p : Config} (h : p.valid = true) : lastBit p.vscanStartSeq = some true := by
  simp only [Config.valid, vscanSeqValid, Bool.and_eq_true, decide_eq_true_eq] at h
  exact h.1.2.2

/-- A valid pattern entered with `SOF` = 1 restores `CFG` (R122, R126). -/
theorem vscanCfg_restored {p : Config} (h : p.valid = true) {c : Byte} (hc : cfgGet .sof c = true) :
    vscanCfg p.vscanStartSeq c = c := by
  apply cfg_ext
  intro f
  rw [vscanCfg_get, lastBit_valid h]
  split
  · rename_i hf
    simp [hf, hc]
  · rfl

/-- The number of a pattern's events does not depend on `CFG`. -/
@[simp] theorem vscanEvents_length (n : Nat) (q : List VStep) (c : Byte) :
    (vscanEvents n q c).length = vscanCount q := by
  induction q generalizing c with
  | nil => rfl
  | cons v q ih => cases v <;> simp [vscanEvents, vscanCount, ih] <;> omega

/-! ### Rows and passes -/

/-- `KW` holds the word index (R12). -/
theorem atWord_kw {row col : Nat} {s : State} (hr : row < s.rows) (hc : col < s.wpr) :
    (atWord row col s).work.kw.toNat = row * s.wpr + col := by
  have h := lt_trans (wordIndex_lt hr hc) (rows_mul_wpr_lt s)
  simp only [atWord, BitVec.toNat_ofNat]
  exact Nat.mod_eq_of_lt h

theorem atWord_keeps (row col : Nat) (s : State) : ScanKeeps s (atWord row col s) :=
  ⟨rfl, rfl, rfl, rfl, rfl, rfl, rfl, rfl, rfl, rfl, rfl, rfl⟩

/-- One word of the row loop (R126). -/
theorem loadAt_spec {d : PassDesc} {row col : Nat} {s : State} {v : Byte} (hr : row < s.rows) (hc : col < s.wpr)
    (hv : word d (row * s.wpr + col) s = .next v) :
    ∃ t, loadWord d (atWord row col s) = .next t ∧ t.io = s.io ∧ t.cfg = s.cfg ∧ t.work.drv = v ∧ ScanKeeps s t := by
  refine ⟨{ atWord row col s with work := { (atWord row col s).work with drv := v } }, ?_, rfl, rfl, rfl,
    ⟨rfl, rfl, rfl, rfl, rfl, rfl, rfl, rfl, rfl, rfl, rfl, rfl⟩⟩
  rw [loadWord, atWord_kw hr hc, (atWord_keeps row col s).word, hv]
  rfl

theorem passCol_spec {d : PassDesc} {row col : Nat} {s : State} {v : Byte} (hr : row < s.rows) (hc : col < s.wpr)
    (hv : word d (row * s.wpr + col) s = .next v) :
    ∃ t, passCol d row col s = .next t ∧ t.io.trace = s.io.trace ++ wordEvents s.params.pinmap v ∧ t.cfg = s.cfg ∧
      ScanKeeps s t := by
  obtain ⟨u, hu, h1, h2, h3, h4⟩ := loadAt_spec hr hc hv
  obtain ⟨k1, k2, -, -, k3⟩ := colWord_spec u
  refine ⟨colWord u, by rw [passCol, hu]; rfl, ?_, k2.trans h2, h4.trans k3⟩
  rw [k1, h1, h3, h4.params]

/-- The row loop (R126): the words 1 to `n` of a row. -/
theorem passCols_spec {d : PassDesc} {row n : Nat} {s : State} {w : Nat → Byte} (hr : row < s.rows) (hn : n < s.wpr)
    (hw : ∀ j < s.wpr, word d (row * s.wpr + j) s = .next (w j)) :
    ∃ t, forUp (passCol d row) n 1 s = .next t ∧
      t.io.trace = s.io.trace ++ (List.range n).flatMap (fun j => wordEvents s.params.pinmap (w (j + 1))) ∧
      t.cfg = s.cfg ∧ ScanKeeps s t := by
  obtain ⟨t, ht, h1, h2, h3⟩ := forUp_total (body := passCol d row) (n := n) (first := 1) (s := s)
    (P := fun i t => t.io.trace = s.io.trace ++
      (List.range (i - 1)).flatMap (fun j => wordEvents s.params.pinmap (w (j + 1))) ∧ t.cfg = s.cfg ∧ ScanKeeps s t)
    (fun i t h1 h2 ⟨p1, p2, p3⟩ => by
      obtain ⟨u, hu, q1, q2, q3⟩ := passCol_spec (d := d) (row := row) (col := i) (s := t) (v := w i)
        (by rw [p3.size.1]; exact hr) (by rw [p3.size.2]; omega)
        (by rw [p3.size.2, p3.word]; exact hw i (by omega))
      refine ⟨u, hu, ?_, q2.trans p2, p3.trans q3⟩
      obtain ⟨j, rfl⟩ : ∃ j, i = j + 1 := ⟨i - 1, by omega⟩
      rw [q1, p1, p3.params]
      simp [List.range_succ, List.flatMap_append])
    ⟨by simp, rfl, .refl s⟩
  exact ⟨t, ht, by simpa using h1, h2, h3⟩

/-- One row of a pass (R126). -/
theorem passRow_spec {d : PassDesc} {row : Nat} {s : State} {w : Nat → Byte} (hr : row < s.rows) (h1 : 1 ≤ s.wpr)
    (hw : ∀ j < s.wpr, word d (row * s.wpr + j) s = .next (w j)) :
    ∃ t, passRow d row s = .next t ∧ t.io.trace = s.io.trace ++ rowEvents s.params.pinmap s.cfg w s.wpr ∧
      t.cfg = cfgSet .le false s.cfg ∧ ScanKeeps s t := by
  obtain ⟨a, ha, a1, a2, a3, a4⟩ := loadAt_spec (col := 0) hr (by omega) (hw 0 (by omega))
  obtain ⟨b1, b2, -, -, b3⟩ := hscanStart_spec a
  have hk := a4.trans b3
  obtain ⟨c, hc, c1, c2, c3⟩ := passCols_spec (d := d) (row := row) (n := s.wpr - 1) (s := hscanStart a) (w := w)
    (by rw [hk.size.1]; exact hr) (by rw [hk.size.2]; omega)
    (by intro j hj; rw [hk.size.2] at hj ⊢; rw [hk.word]; exact hw j hj)
  obtain ⟨e1, e2, -, -, -, e3⟩ := vscanEnd_spec c
  have hcfg : c.cfg = s.cfg := c2.trans (b2.trans a2)
  refine ⟨vscanEnd c, ?_, ?_, by rw [e2, hcfg], (hk.trans c3).trans e3⟩
  · rw [passRow, ha, andThen_next, hc]
    rfl
  · rw [e1, c1, b1, a1, a3, hcfg, hk.params, a4.params, rowEvents]
    simp only [List.append_assoc]

/-- A pass (R126), entered with `LE` = 0 and a pattern that restores `CFG`. -/
theorem runScan_spec {d : PassDesc} {s : State} {w : Nat → Byte} (h1 : 1 ≤ s.wpr) (hle : cfgGet .le s.cfg = false)
    (hv : vscanCfg s.params.vscanStartSeq s.cfg = s.cfg)
    (hw : ∀ k < s.rows * s.wpr, word d k s = .next (w k)) :
    ∃ t, runScan d s = .next t ∧ t.io.trace = s.io.trace ++ passEvents s.params s.cfg w s.rows s.wpr ∧
      t.cfg = s.cfg ∧ ScanKeeps s t := by
  obtain ⟨v1, v2, -, -, v3⟩ := vscanStart_spec s
  obtain ⟨t, ht, t1, t2, t3⟩ := forUp_total (body := passRow d) (n := s.rows) (first := 0) (s := vscanStart s)
    (P := fun i t => t.io.trace = s.io.trace ++ (vscanEvents s.params.tVsUs s.params.vscanStartSeq s.cfg ++
      (List.range i).flatMap (fun r => rowEvents s.params.pinmap s.cfg (fun j => w (r * s.wpr + j)) s.wpr)) ∧
      t.cfg = s.cfg ∧ ScanKeeps s t)
    (fun i t _ h ⟨p1, p2, p3⟩ => by
      obtain ⟨u, hu, q1, q2, q3⟩ := passRow_spec (d := d) (row := i) (s := t) (w := fun j => w (i * s.wpr + j))
        (by rw [p3.size.1]; omega) (by rw [p3.size.2]; exact h1)
        (by
          intro j hj
          rw [p3.size.2] at hj ⊢
          rw [p3.word]
          exact hw _ (wordIndex_lt (by omega) hj))
      refine ⟨u, hu, ?_, ?_, p3.trans q3⟩
      · rw [q1, p1, p2, p3.params, p3.size.2]
        simp [List.range_succ, List.flatMap_append]
      · rw [q2, p2]
        exact cfgSet_self hle)
    ⟨by simp [v1], by rw [v2, hv], v3⟩
  refine ⟨t, ht, ?_, t2, t3⟩
  rw [t1, passEvents]
  simp

/-- The events of a row and of a pass, counted (R126). -/
theorem rowEvents_length (m : PinMap) (c : Byte) (w : Nat → Byte) {wpr : Nat} (h : 1 ≤ wpr) :
    (rowEvents m c w wpr).length = 2 * wpr + 55 := by
  simp [rowEvents, hscanEvents, wordEvents, vscanEndEvents, List.length_flatMap]
  omega

theorem passEvents_length (p : Config) (c : Byte) (w : Nat → Byte) (h : Nat) {wpr : Nat} (h1 : 1 ≤ wpr) :
    (passEvents p c w h wpr).length = passCount p h wpr := by
  simp [passEvents, passCount, List.length_flatMap, rowEvents_length _ _ _ h1]

/-- The loop counters apart, what a pass may leave in `CFG`: `SOF` from the pattern, `LE` = 0 if there is a row (R126). -/
theorem runScan_keeps {d : PassDesc} {s t : State} (e : runScan d s = .next t) :
    ScanKeeps s t ∧ ∀ f, f ≠ .sof → f ≠ .le → cfgGet f t.cfg = cfgGet f s.cfg := by
  have hload : ∀ {r c : Nat} {a b : State}, loadWord d (atWord r c a) = .next b → ScanKeeps a b ∧ b.cfg = a.cfg := by
    intro r c a b h
    obtain ⟨v, -, rfl⟩ := loadWord_eq_next.mp h
    exact ⟨⟨rfl, rfl, rfl, rfl, rfl, rfl, rfl, rfl, rfl, rfl, rfl, rfl⟩, rfl⟩
  obtain ⟨-, v2, -, -, v3⟩ := vscanStart_spec s
  have hrow := forUp_rel (R := fun a b => ScanKeeps a b ∧ ∀ f, f ≠ .sof → f ≠ .le → cfgGet f b.cfg = cfgGet f a.cfg)
    (fun a => ⟨.refl a, fun _ _ _ => rfl⟩)
    (by
      rintro a b c ⟨h1, h2⟩ ⟨k1, k2⟩
      exact ⟨h1.trans k1, fun f f1 f2 => (k2 f f1 f2).trans (h2 f f1 f2)⟩) (body := passRow d) (by
      intro i a b h
      obtain ⟨u, hu, h⟩ := andThen_eq_next.mp h
      obtain ⟨x, hx, h⟩ := andThen_eq_next.mp h
      cases h
      have hcols := forUp_rel (R := fun a b => ScanKeeps a b ∧ b.cfg = a.cfg) (fun a => ⟨.refl a, rfl⟩)
        (fun h k => ⟨h.1.trans k.1, k.2.trans h.2⟩) (body := passCol d i) (by
          intro j a b h
          obtain ⟨u, hu, h⟩ := andThen_eq_next.mp h
          cases h
          obtain ⟨-, k2, -, -, k3⟩ := colWord_spec u
          exact ⟨(hload hu).1.trans k3, k2.trans (hload hu).2⟩) hx
      obtain ⟨-, b2, -, -, b3⟩ := hscanStart_spec u
      obtain ⟨-, e2, -, -, -, e3⟩ := vscanEnd_spec x
      refine ⟨(((hload hu).1.trans b3).trans hcols.1).trans e3, fun f _ f2 => ?_⟩
      rw [e2, hcols.2, b2, (hload hu).2, cfgGet_cfgSet, if_neg f2]) e
  refine ⟨v3.trans hrow.1, fun f f1 f2 => ?_⟩
  rw [hrow.2 f f1 f2, v2, vscanCfg_get, if_neg f1]

/-- A pass completes when its words exist. -/
theorem runScan_total {d : PassDesc} {s : State} (h1 : 1 ≤ s.wpr) (hw : ∀ k < s.rows * s.wpr, ∃ v, word d k s = .next v) :
    ∃ t, runScan d s = .next t ∧ t.io.trace.length = s.io.trace.length + passCount s.params s.rows s.wpr := by
  obtain ⟨v1, -, -, -, v3⟩ := vscanStart_spec s
  have hw' : ∀ k < s.rows * s.wpr, word d k s = .next (wordByte s d k) := fun k hk => word_eq_wordByte (hw k hk)
  obtain ⟨t, ht, t1, -⟩ := forUp_total (body := passRow d) (n := s.rows) (first := 0) (s := vscanStart s)
    (P := fun i t => t.io.trace.length = s.io.trace.length + (vscanCount s.params.vscanStartSeq +
      i * (2 * s.wpr + 55)) ∧ ScanKeeps s t)
    (fun i t _ h ⟨p1, p3⟩ => by
      obtain ⟨u, hu, q1, -, q3⟩ := passRow_spec (d := d) (row := i) (s := t)
        (w := fun j => wordByte s d (i * s.wpr + j)) (by rw [p3.size.1]; omega) (by rw [p3.size.2]; exact h1)
        (by
          intro j hj
          rw [p3.size.2] at hj ⊢
          rw [p3.word]
          exact hw' _ (wordIndex_lt (by omega) hj))
      refine ⟨u, hu, ?_, p3.trans q3⟩
      rw [q1, List.length_append, p1, rowEvents_length _ _ _ (by rw [p3.size.2]; exact h1), p3.size.2]
      ring)
    ⟨by simp [v1], v3⟩
  exact ⟨t, ht, by rw [t1, passCount]; ring⟩

/-! ### RUN_PASS -/

/-- RUN_PASS: a pass, its settle delay, and the count (R182). -/
theorem runPass_spec {d : PassDesc} {s : State} {w : Nat → Byte} (h1 : 1 ≤ s.wpr) (hle : cfgGet .le s.cfg = false)
    (hv : vscanCfg s.params.vscanStartSeq s.cfg = s.cfg)
    (hw : ∀ k < s.rows * s.wpr, word d k s = .next (w k)) :
    ∃ t, runPass d s = .next t ∧
      t.io.trace = s.io.trace ++ (passEvents s.params s.cfg w s.rows s.wpr ++ [.delayUs 230]) ∧
      t.cfg = s.cfg ∧ t.params = s.params ∧ t.conf = s.conf ∧ t.flags = s.flags ∧ t.puc = s.puc ∧ t.bufs = s.bufs ∧
      t.port = s.port ∧ t.draws = s.draws ∧ t.io.dir = s.io.dir := by
  obtain ⟨t, ht, t1, t2, t3⟩ := runScan_spec h1 hle hv hw
  refine ⟨bumpPassIdx (settle t), by rw [runPass, ht]; rfl, ?_, t2, t3.params, t3.conf, t3.flags, t3.puc, t3.bufs,
    t3.port, t3.draws, t3.dir⟩
  rw [← List.append_assoc, ← t1]
  simp [settle, inPhase, State.delayUs, Config.tSettleUs]

/-- What any RUN_PASS keeps (R182). -/
theorem runPass_keeps {d : PassDesc} {s t : State} (e : runPass d s = .next t) :
    t.params = s.params ∧ t.conf = s.conf ∧ t.flags = s.flags ∧ t.puc = s.puc ∧ t.bufs = s.bufs ∧ t.port = s.port ∧
      t.draws = s.draws ∧ t.pos.seq = s.pos.seq ∧ t.io.dir = s.io.dir ∧
      t.io.latch.get .panelEn = s.io.latch.get .panelEn ∧
      ∀ f, f ≠ .sof → f ≠ .le → cfgGet f t.cfg = cfgGet f s.cfg := by
  obtain ⟨u, hu, e⟩ := andThen_eq_next.mp e
  cases e
  obtain ⟨k, h⟩ := runScan_keeps hu
  exact ⟨k.params, k.conf, k.flags, k.puc, k.bufs, k.port, k.draws, k.seq, k.dir, k.panelEn, h⟩

/-- A list of passes (R182): each with its settle delay, in order. -/
theorem runPasses_spec {ds : List PassDesc} {w : PassDesc → Nat → Byte} {s : State} (h1 : 1 ≤ s.wpr)
    (hle : cfgGet .le s.cfg = false) (hv : vscanCfg s.params.vscanStartSeq s.cfg = s.cfg)
    (hw : ∀ d ∈ ds, ∀ k < s.rows * s.wpr, word d k s = .next (w d k)) :
    ∃ t, runPasses ds s = .next t ∧
      t.io.trace = s.io.trace ++
        ds.flatMap (fun d => passEvents s.params s.cfg (w d) s.rows s.wpr ++ [.delayUs 230]) ∧
      t.cfg = s.cfg ∧ t.params = s.params ∧ t.conf = s.conf ∧ t.flags = s.flags ∧ t.puc = s.puc ∧ t.bufs = s.bufs ∧
      t.port = s.port ∧ t.draws = s.draws ∧ t.io.dir = s.io.dir := by
  induction ds generalizing s with
  | nil => exact ⟨s, rfl, by simp, rfl, rfl, rfl, rfl, rfl, rfl, rfl, rfl, rfl⟩
  | cons d ds ih =>
    obtain ⟨u, hu, u1, u2, u3, u4, u5, u6, u7, u8, u9, u10⟩ := runPass_spec h1 hle hv (hw d List.mem_cons_self)
    have hrw : u.rows = s.rows ∧ u.wpr = s.wpr := ⟨rows_congr u4, wpr_congr u4⟩
    obtain ⟨t, ht, t1, t2, t3, t4, t5, t6, t7, t8, t9, t10⟩ := ih (s := u) (by rw [hrw.2]; exact h1)
      (by rw [u2]; exact hle) (by rw [u2, u3]; exact hv)
      (by
        intro d' hd' k hk
        rw [hrw.1, hrw.2] at hk
        rw [word_congr u3 u4 u7]
        exact hw d' (List.mem_cons_of_mem _ hd') k hk)
    refine ⟨t, by rw [runPasses, hu]; exact ht, ?_, t2.trans u2, t3.trans u3, t4.trans u4, t5.trans u5, t6.trans u6,
      t7.trans u7, t8.trans u8, t9.trans u9, t10.trans u10⟩
    rw [t1, u1, u2, u3, hrw.1, hrw.2]
    simp

/-- A list of passes completes when every word exists. -/
theorem runPasses_total {ds : List PassDesc} {s : State} (h1 : 1 ≤ s.wpr)
    (hw : ∀ d ∈ ds, ∀ k < s.rows * s.wpr, ∃ v, word d k s = .next v) : ∃ t, runPasses ds s = .next t := by
  induction ds generalizing s with
  | nil => exact ⟨s, rfl⟩
  | cons d ds ih =>
    obtain ⟨u, hu, -⟩ := runScan_total h1 (hw d List.mem_cons_self)
    have hp : runPass d s = .next (bumpPassIdx (settle u)) := by rw [runPass, hu]; rfl
    obtain ⟨k1, k2, -, -, k3, -⟩ := runPass_keeps hp
    obtain ⟨t, ht⟩ := ih (s := bumpPassIdx (settle u)) (by rw [wpr_congr k2]; exact h1) (by
      intro d' hd' k hk
      rw [rows_congr k2, wpr_congr k2] at hk
      rw [word_congr k1 k2 k3]
      exact hw d' (List.mem_cons_of_mem _ hd') k hk)
    exact ⟨t, by rw [runPasses, hp]; exact ht⟩

/-- What any list of passes keeps. -/
theorem runPasses_keeps {ds : List PassDesc} {s t : State} (e : runPasses ds s = .next t) :
    t.params = s.params ∧ t.conf = s.conf ∧ t.flags = s.flags ∧ t.puc = s.puc ∧ t.bufs = s.bufs ∧ t.port = s.port ∧
      t.draws = s.draws ∧ t.pos.seq = s.pos.seq ∧ t.io.dir = s.io.dir ∧
      t.io.latch.get .panelEn = s.io.latch.get .panelEn ∧
      ∀ f, f ≠ .sof → f ≠ .le → cfgGet f t.cfg = cfgGet f s.cfg := by
  induction ds generalizing s with
  | nil =>
    cases e
    exact ⟨rfl, rfl, rfl, rfl, rfl, rfl, rfl, rfl, rfl, rfl, fun _ _ _ => rfl⟩
  | cons d ds ih =>
    obtain ⟨u, hu, e⟩ := andThen_eq_next.mp e
    obtain ⟨a1, a2, a3, a4, a5, a6, a7, a8, a9, a10, a11⟩ := runPass_keeps hu
    obtain ⟨b1, b2, b3, b4, b5, b6, b7, b8, b9, b10, b11⟩ := ih e
    exact ⟨b1.trans a1, b2.trans a2, b3.trans a3, b4.trans a4, b5.trans a5, b6.trans a6, b7.trans a7, b8.trans a8,
      b9.trans a9, b10.trans a10, fun f f1 f2 => (b11 f f1 f2).trans (a11 f f1 f2)⟩

end Sys2Proof.Machine
end

