-- ==== Sys2Proof/Laws/Power.lean ====
section
/-! SUPPORT. The laws of the power steps and of a sequence (41_power_sequencer.md R110 to R112, 45 R183 to R188). -/

namespace Sys2Proof.Machine

/-- The steps U0 to U4 (R110, R111). -/
theorem powerOnSteps_spec (s : State) :
    (powerOnSteps s).io.trace = s.io.trace ++ powerOnEvents s.cfg ∧ (powerOnSteps s).cfg = onCfg4 s.cfg ∧
    (∀ l, (powerOnSteps s).io.dir.get l = if l ∈ panelFacing then .output else s.io.dir.get l) ∧
    (∀ l ∉ [Line.cfgClk, .cfgData, .cfgStr], (powerOnSteps s).io.latch.get l = s.io.latch.get l) ∧
    (powerOnSteps s).io.srOut = onCfg4 s.cfg ∧
    powerOnSteps s = { s with
      io := (powerOnSteps s).io, cfg := (powerOnSteps s).cfg, flags := { s.flags with power := true }
      work := { s.work with dly := 0 } } := by
  obtain ⟨d1, d2, d3, -, -⟩ := forLines_pinDir .output panelFacing s.io
  refine ⟨?_, ?_, fun l => ?_, fun l hl => ?_, ?_, ?_⟩
  · simp [powerOnSteps, powerOnEvents, onCfg1, onCfg2, onCfg3, onCfg4, d1]
  · simp [powerOnSteps, onCfg1, onCfg2, onCfg3, onCfg4]
  · simp [powerOnSteps, d2]
  · simp only [List.mem_cons, List.not_mem_nil, or_false, not_or] at hl
    simp [powerOnSteps, push_latch, hl.1, hl.2.1, hl.2.2, d3]
  · simp [powerOnSteps, onCfg1, onCfg2, onCfg3, onCfg4]
  · apply state_ext <;> simp [powerOnSteps]

/-- POWER_ON from off, inside a sequence or alone (R111). -/
theorem powerOn_spec {s : State} (h : s.flags.power = false) :
    (powerOn s).io.trace = s.io.trace ++ powerOnEvents s.cfg ∧ (powerOn s).cfg = onCfg4 s.cfg ∧
    (∀ l, (powerOn s).io.dir.get l = if l ∈ panelFacing then .output else s.io.dir.get l) ∧
    (∀ l ∉ [Line.cfgClk, .cfgData, .cfgStr], (powerOn s).io.latch.get l = s.io.latch.get l) ∧
    (powerOn s).io.srOut = onCfg4 s.cfg ∧
    powerOn s = { s with
      io := (powerOn s).io, cfg := (powerOn s).cfg, flags := { s.flags with power := true }
      work := { s.work with dly := 0 } } := by
  have e : powerOn s = (powerOnSteps (s.setPhase .powerOn)).setPhase s.pos.phase := by simp [powerOn, h, inPhase]
  obtain ⟨h1, h2, h3, h4, h5, h6⟩ := powerOnSteps_spec (s.setPhase .powerOn)
  rw [e]
  refine ⟨h1, h2, h3, h4, h5, ?_⟩
  rw [h6]
  rfl

/-- The steps D1 to D6 (R110, R112). -/
theorem powerOffSteps_spec (s : State) :
    (powerOffSteps s).io.trace = s.io.trace ++ powerOffEvents s.params.pinmap s.cfg ∧
    (powerOffSteps s).cfg = offCfg4 s.cfg ∧
    (∀ l, (powerOffSteps s).io.dir.get l = if l ∈ panelFacing then .input else s.io.dir.get l) ∧
    (∀ l ∉ [Line.cfgClk, .cfgData, .cfgStr], (powerOffSteps s).io.latch.get l =
      if (portBit s.params.pinmap l).isSome then false else s.io.latch.get l) ∧
    (powerOffSteps s).io.srOut = offCfg4 s.cfg ∧
    powerOffSteps s = { s with
      io := (powerOffSteps s).io, cfg := (powerOffSteps s).cfg, flags := { s.flags with power := false }
      work := { s.work with dly := 0 } } := by
  have d := fun io => forLines_pinDir .input panelFacing io
  refine ⟨?_, ?_, fun l => ?_, fun l hl => ?_, ?_, ?_⟩
  · simp [powerOffSteps, powerOffEvents, offCfg1, offCfg2, offCfg3, offCfg4, (d _).1]
  · simp [powerOffSteps, offCfg1, offCfg2, offCfg3, offCfg4]
  · simp [powerOffSteps, (d _).2.1]
  · simp only [List.mem_cons, List.not_mem_nil, or_false, not_or] at hl
    simp [powerOffSteps, (d _).2.2.1, clear_latch, push_latch, hl.1, hl.2.1, hl.2.2]
  · simp [powerOffSteps, offCfg1, offCfg2, offCfg3, offCfg4, (d _).2.2.2.2]
  · apply state_ext <;> simp [powerOffSteps]

/-- POWER_OFF from on, inside a sequence or alone (R112). -/
theorem powerOff_spec {s : State} (h : s.flags.power = true) :
    (powerOff s).io.trace = s.io.trace ++ powerOffEvents s.params.pinmap s.cfg ∧ (powerOff s).cfg = offCfg4 s.cfg ∧
    (∀ l, (powerOff s).io.dir.get l = if l ∈ panelFacing then .input else s.io.dir.get l) ∧
    (∀ l ∉ [Line.cfgClk, .cfgData, .cfgStr], (powerOff s).io.latch.get l =
      if (portBit s.params.pinmap l).isSome then false else s.io.latch.get l) ∧
    (powerOff s).io.srOut = offCfg4 s.cfg ∧
    powerOff s = { s with
      io := (powerOff s).io, cfg := (powerOff s).cfg, flags := { s.flags with power := false }
      work := { s.work with dly := 0 } } := by
  have e : powerOff s = (powerOffSteps (s.setPhase .powerOff)).setPhase s.pos.phase := by simp [powerOff, h, inPhase]
  obtain ⟨h1, h2, h3, h4, h5, h6⟩ := powerOffSteps_spec (s.setPhase .powerOff)
  rw [e]
  refine ⟨h1, h2, h3, h4, h5, ?_⟩
  rw [h6]
  rfl

@[simp] theorem powerOnEvents_length (c : Byte) : (powerOnEvents c).length = 118 := by
  simp [powerOnEvents, panelFacing]

@[simp] theorem powerOffEvents_length (m : PinMap) (c : Byte) : (powerOffEvents m c).length = 118 := by
  simp [powerOffEvents, panelFacing]

/-- What the two power operations keep in any state (R116). -/
theorem powerOn_keeps (s : State) :
    (powerOn s).params = s.params ∧ (powerOn s).conf = s.conf ∧ (powerOn s).puc = s.puc ∧
    (powerOn s).bufs = s.bufs ∧ (powerOn s).port = s.port ∧ (powerOn s).draws = s.draws ∧
    (powerOn s).pos = s.pos ∧ (powerOn s).flags = { s.flags with power := true } := by
  cases h : s.flags.power with
  | false =>
    obtain ⟨-, -, -, -, -, e⟩ := powerOn_spec h
    rw [e]
    exact ⟨rfl, rfl, rfl, rfl, rfl, rfl, rfl, rfl⟩
  | true =>
    have e : powerOn s = s := by simp [powerOn, h, raise]
    rw [e, ← h]
    exact ⟨rfl, rfl, rfl, rfl, rfl, rfl, rfl, rfl⟩

theorem powerOff_keeps (s : State) :
    (powerOff s).params = s.params ∧ (powerOff s).conf = s.conf ∧ (powerOff s).puc = s.puc ∧
    (powerOff s).bufs = s.bufs ∧ (powerOff s).port = s.port ∧ (powerOff s).draws = s.draws ∧
    (powerOff s).pos = s.pos ∧ (powerOff s).flags = { s.flags with power := false } := by
  cases h : s.flags.power with
  | true =>
    obtain ⟨-, -, -, -, -, e⟩ := powerOff_spec h
    rw [e]
    exact ⟨rfl, rfl, rfl, rfl, rfl, rfl, rfl, rfl⟩
  | false =>
    have e : powerOff s = s := by simp [powerOff, h, raise]
    rw [e, ← h]
    exact ⟨rfl, rfl, rfl, rfl, rfl, rfl, rfl, rfl⟩

/-- After POWER_ON a valid pattern restores `CFG`, and `LE` is as before (R111, R122). -/
theorem onCfg4_get (c : Byte) (f : CfgField) :
    cfgGet f (onCfg4 c) =
      if f = .sof ∨ f = .pos ∨ f = .neg then true else if f = .pd ∨ f = .dir then false else cfgGet f c := by
  simp only [onCfg4, onCfg3, onCfg2, onCfg1, cfgGet_cfgSet]
  cases f <;> simp

theorem offCfg4_get (c : Byte) (f : CfgField) :
    cfgGet f (offCfg4 c) =
      if f = .sof ∨ f = .pos ∨ f = .neg then false else if f = .pd then true else cfgGet f c := by
  simp only [offCfg4, offCfg3, offCfg2, offCfg1, cfgGet_cfgSet]
  cases f <;> simp

/-- A sequence (R183 to R188): where it starts, what its body leaves, and where it ends. -/
theorem sequence_eq_next {q : Seq} {body : State → Result State} {s t : State} :
    sequence q body s = .next t ↔
      ∃ u, body (powerOn (beginSequence q s)) = .next u ∧ t = (powerOff u).endSequence := by
  rw [sequence, andThen_eq_next]
  constructor
  · rintro ⟨u, hu, e⟩
    cases e
    exact ⟨u, hu, rfl⟩
  · rintro ⟨u, hu, rfl⟩
    exact ⟨u, hu, rfl⟩

/-- The events of a sequence, counted (R183 to R188). -/
theorem sequenceEvents_length (p : Config) (c : Byte) (ds : List PassDesc) (w : PassDesc → Nat → Byte) (h : Nat)
    {wpr : Nat} (h1 : 1 ≤ wpr) :
    (sequenceEvents p c ds w h wpr).length = 118 + ds.length * (passCount p h wpr + 1) + 118 := by
  simp [sequenceEvents, List.length_flatMap, passEvents_length _ _ _ _ h1, Nat.add_assoc]

end Sys2Proof.Machine
end

