-- ==== Sys2Proof/Laws/Buffers.lean ====
section
/-! SUPPORT. The laws of the loops over a buffer: FILL, DIFF and COMMIT (44_framebuffer.md R167 to R169). -/

namespace Sys2Proof.Machine

/-! ### Buffers of a known length -/

/-- Two buffers with the same offsets from 0 to `n - 1` and the same bytes there are the same list. -/
theorem memory_ext_range {m k : Memory} {n : Nat} (hm : m.offsets = List.range n) (hk : k.offsets = List.range n)
    (h : ∀ p < n, Memory.read m p = Memory.read k p) : m = k := by
  refine memory_ext (wf_of_offsets_range hm) (wf_of_offsets_range hk) fun p => ?_
  by_cases hp : p < n
  · exact h p hp
  · have h1 : Memory.read m p = none := by
      rw [← Option.not_isSome_iff_eq_none, read_isSome_iff, hm, List.mem_range]
      exact hp
    have h2 : Memory.read k p = none := by
      rw [← Option.not_isSome_iff_eq_none, read_isSome_iff, hk, List.mem_range]
      exact hp
    rw [h1, h2]

@[simp] theorem offsets_map (m : Memory) (f : Host.Cell → Byte) :
    Memory.offsets (m.map fun c => (c.1, f c)) = m.offsets := by
  simp [Memory.offsets, Function.comp_def]

/-- A buffer with one value everywhere. -/
theorem read_const (m : Memory) (v : Byte) {p : Nat} (h : p ∈ m.offsets) :
    Memory.read (m.map fun c => (c.1, v)) p = some v := by
  induction m with
  | nil => simp at h
  | cons c m ih =>
    obtain ⟨a, u⟩ := c
    simp only [List.map_cons, Memory.read]
    by_cases ha : a = p
    · simp [ha]
    · rw [if_neg ha]
      refine ih ?_
      simpa [Ne.symm ha] using h

theorem set_get_self (b : Buffers) (i : BufId) : b.set i (b.get i) = b := by
  cases i <;> rfl

theorem set_set (b : Buffers) (i : BufId) (m k : Memory) : (b.set i m).set i k = b.set i k := by
  cases i <;> rfl

/-! ### One loop that writes a buffer byte after byte -/

/-- A loop over the offsets of one buffer whose turns write that buffer only completes, keeps the offsets, and leaves at
each offset what its turn wrote. -/
theorem writeLoop {b : BufId} {n : Nat} {f : Nat → Byte} {body : Nat → State → Result State} {s : State}
    (hb : (s.bufs.get b).offsets = List.range n)
    (h : ∀ q t m, q < n → t = { s with bufs := s.bufs.set b m } → m.offsets = List.range n →
      (∀ p, q ≤ p → Memory.read m p = (s.bufs.get b).read p) →
      body q t = .next { s with bufs := s.bufs.set b (m.write q (f q)) }) :
    ∃ m, forUp body n 0 s = .next { s with bufs := s.bufs.set b m } ∧ m.offsets = List.range n ∧
      ∀ p < n, Memory.read m p = some (f p) := by
  obtain ⟨t, ht, m, rfl, h1, h2, -⟩ := forUp_total (body := body) (n := n) (first := 0) (s := s)
    (P := fun i t => ∃ m, t = { s with bufs := s.bufs.set b m } ∧ m.offsets = List.range n ∧
      (∀ p < i, Memory.read m p = some (f p)) ∧ ∀ p, i ≤ p → Memory.read m p = (s.bufs.get b).read p)
    (fun i t _ hi => by
      rintro ⟨m, rfl, h1, h2, h3⟩
      refine ⟨_, h i _ m (by omega) rfl h1 h3, _, rfl, by simp [h1], fun p hp => ?_, fun p hp => ?_⟩
      · by_cases hpi : p = i
        · subst hpi
          exact read_write_self (by rw [h1]; exact List.mem_range.mpr (by omega)) _
        · rw [read_write_ne hpi]
          exact h2 p (by omega)
      · rw [read_write_ne (by omega)]
        exact h3 p (by omega))
    ⟨s.bufs.get b, by rw [set_get_self], hb, by omega, fun _ _ => rfl⟩
  exact ⟨m, ht, h1, by simpa using h2⟩

/-- The loop of FILL: one value in every byte of a buffer (R167). -/
theorem fillLoop {b : BufId} {n : Nat} {v : Byte} {s : State} {f : State → Byte}
    (hf : ∀ m, f { s with bufs := s.bufs.set b m } = v) (hb : (s.bufs.get b).offsets = List.range n) :
    forUp (fun q t => writeByte b q (f t) t) n 0 s =
      .next { s with bufs := s.bufs.set b ((s.bufs.get b).map fun c => (c.1, v)) } := by
  obtain ⟨m, hm, h1, h2⟩ := writeLoop (b := b) (f := fun _ => v) (body := fun q t => writeByte b q (f t) t) hb (by
    rintro q t m hq rfl hm -
    rw [hf]
    rw [writeByte_of_mem (by simpa [hm] using hq)]
    simp [set_set])
  rw [hm]
  congr 3
  refine memory_ext_range h1 (by simpa using hb) fun p hp => ?_
  rw [h2 p hp, read_const _ _ (by rw [hb]; exact List.mem_range.mpr hp)]

/-- The loop of COMMIT: `BUF0` becomes `BUF1` (R169). -/
theorem commitLoop_spec {s : State} (h0 : s.bufs.buf0.offsets = List.range s.len)
    (h1 : s.bufs.buf1.offsets = List.range s.len) :
    commitLoop s = .next { s with bufs := { s.bufs with buf0 := s.bufs.buf1 } } := by
  obtain ⟨m, hm, k1, k2⟩ := writeLoop (b := .buf0) (n := s.len) (f := fun q => (s.bufs.buf1.read q).getD 0)
    (body := commitAt) (s := s) h0 (by
      rintro q t m hq rfl hm -
      obtain ⟨v, hv⟩ := read_of_lt h1 hq
      have hr : readByte .buf1 q { s with bufs := s.bufs.set .buf0 m } = .next v := readByte_eq_next.mpr hv
      simp only [commitAt, hr, andThen_next, hv, Option.getD_some]
      rw [writeByte_of_mem (by simpa [hm] using hq)]
      simp [set_set])
  rw [commitLoop, hm]
  have : m = s.bufs.buf1 := memory_ext_range k1 h1 fun p hp => by
    obtain ⟨v, hv⟩ := read_of_lt h1 hp
    rw [k2 p hp, hv]
    rfl
  rw [this]
  rfl

/-- COMMIT of an initialised monochrome block (R169). -/
theorem runCommit_spec {s : State} (hg : s.conf.grey = false) (h0 : s.bufs.buf0.offsets = List.range s.len)
    (h1 : s.bufs.buf1.offsets = List.range s.len) :
    runCommit s = .next { s with bufs := { s.bufs with buf0 := s.bufs.buf1 } } := by
  have := commitLoop_spec (s := s.setPhase .commit) h0 h1
  simp only [runCommit, hg, inPhaseR, this]
  rfl

/-! ### DIFF -/

/-- The mask of the pixels changed from white and that of the pixels changed from black (R168). -/
def fromWhite (a b : Byte) : Byte := (a ^^^ b) &&& ~~~b
def fromBlack (a b : Byte) : Byte := (a ^^^ b) &&& b

/-- One position of DIFF (R168). -/
theorem diffAt_spec {p n : Nat} {s : State} {a b : Byte} (ha : s.byteAt .buf0 p = some a)
    (hb : s.byteAt .buf1 p = some b) (h2 : s.bufs.buf2.offsets = List.range (2 * n)) (hp : p < n) :
    ∃ m x, diffAt p s = .next { s with bufs := { s.bufs with buf2 := m }, work := x } ∧
      m.offsets = List.range (2 * n) ∧
      (∀ q, Memory.read m q =
        if q = 2 * p + 1 then some (diffByte s.params (hiNibble (fromWhite a b)) (hiNibble (fromBlack a b)))
        else if q = 2 * p then some (diffByte s.params (loNibble (fromWhite a b)) (loNibble (fromBlack a b)))
        else s.bufs.buf2.read q) ∧
      x = { s.work with pos := x.pos, n := x.n, tw := x.tw, tb := x.tb } := by
  have m1 : 2 * p + 1 ∈ s.bufs.buf2.offsets := by
    rw [h2, List.mem_range]
    omega
  have m2 : 2 * p ∈ s.bufs.buf2.offsets := by
    rw [h2, List.mem_range]
    omega
  refine ⟨(s.bufs.buf2.write (2 * p + 1) (diffByte s.params (hiNibble (fromWhite a b)) (hiNibble (fromBlack a b)))).write
      (2 * p) (diffByte s.params (loNibble (fromWhite a b)) (loNibble (fromBlack a b))),
    { s.work with
      pos := BitVec.ofNat 32 p, n := BitVec.ofNat 32 (2 * p) - 1, tw := fromWhite a b, tb := fromBlack a b },
    ?_, by simp [h2], fun q => ?_, rfl⟩
  · simp only [diffAt, readByte_eq_next.mpr ha, readByte_eq_next.mpr hb, andThen_next]
    rw [writeByte_of_mem (b := .buf2) m1, andThen_next, writeByte_of_mem (b := .buf2)
      (by rw [buffers_get_set, if_pos rfl, offsets_write]; exact m2)]
    rfl
  · rw [read_write, read_write]
    simp only [offsets_write, m1, m2, and_true]
    by_cases q1 : q = 2 * p + 1
    · simp [q1]
    · by_cases q2 : q = 2 * p <;> simp [q1, q2]

/-- The loop of DIFF (R168): it completes, writes every byte of `BUF2` from the masks, and nothing else but its working
registers. -/
theorem diffLoop_spec {s : State} (h0 : s.bufs.buf0.offsets = List.range s.len)
    (h1 : s.bufs.buf1.offsets = List.range s.len) (h2 : s.bufs.buf2.offsets = List.range (2 * s.len)) :
    ∃ m x, diffLoop s = .next { s with bufs := { s.bufs with buf2 := m }, work := x } ∧
      m.offsets = List.range (2 * s.len) ∧
      (∀ p a b, p < s.len → s.byteAt .buf0 p = some a → s.byteAt .buf1 p = some b →
        Memory.read m (2 * p + 1) = some (diffByte s.params (hiNibble (fromWhite a b)) (hiNibble (fromBlack a b))) ∧
        Memory.read m (2 * p) = some (diffByte s.params (loNibble (fromWhite a b)) (loNibble (fromBlack a b)))) ∧
      x = { s.work with pos := x.pos, n := x.n, tw := x.tw, tb := x.tb } := by
  obtain ⟨t, ht, m, x, rfl, k1, k2, k3⟩ := forUp_total (body := fun j t => diffAt (s.len - 1 - j) t) (n := s.len)
    (first := 0) (s := { s with work := { s.work with n := BitVec.ofNat 32 (2 * s.len) - 1 } })
    (P := fun i t => ∃ m x, t = { s with bufs := { s.bufs with buf2 := m }, work := x } ∧
      m.offsets = List.range (2 * s.len) ∧
      (∀ p a b, s.len - i ≤ p → p < s.len → s.byteAt .buf0 p = some a → s.byteAt .buf1 p = some b →
        Memory.read m (2 * p + 1) = some (diffByte s.params (hiNibble (fromWhite a b)) (hiNibble (fromBlack a b))) ∧
        Memory.read m (2 * p) = some (diffByte s.params (loNibble (fromWhite a b)) (loNibble (fromBlack a b)))) ∧
      x = { s.work with pos := x.pos, n := x.n, tw := x.tw, tb := x.tb })
    (fun i t _ hi => by
      rintro ⟨m, x, rfl, k1, k2, k3⟩
      obtain ⟨a, ha⟩ := read_of_lt h0 (show s.len - 1 - i < s.len by omega)
      obtain ⟨b, hb⟩ := read_of_lt h1 (show s.len - 1 - i < s.len by omega)
      obtain ⟨m', x', e, j1, j2, j3⟩ := diffAt_spec (p := s.len - 1 - i) (n := s.len)
        (s := { s with bufs := { s.bufs with buf2 := m }, work := x }) (a := a) (b := b) ha hb k1 (by omega)
      refine ⟨_, e, m', x', rfl, j1, fun p a' b' hp1 hp2 ha' hb' => ?_, ?_⟩
      · by_cases hp : p = s.len - 1 - i
        · subst hp
          have e1 : a' = a := by
            have : s.byteAt .buf0 (s.len - 1 - i) = some a := ha
            simpa [ha'] using this
          have e2 : b' = b := by
            have : s.byteAt .buf1 (s.len - 1 - i) = some b := hb
            simpa [hb'] using this
          subst e1 e2
          rw [j2, j2]
          simp
        · rw [j2, j2]
          have := k2 p a' b' (by omega) hp2 ha' hb'
          have n1 : ¬ (2 * p + 1 = 2 * (s.len - 1 - i) + 1) := by omega
          have n2 : ¬ (2 * p + 1 = 2 * (s.len - 1 - i)) := by omega
          have n3 : ¬ (2 * p = 2 * (s.len - 1 - i) + 1) := by omega
          have n4 : ¬ (2 * p = 2 * (s.len - 1 - i)) := by omega
          simp only [n1, n2, n3, n4, if_false]
          exact this
      · rw [j3, k3])
    ⟨s.bufs.buf2, _, rfl, h2, fun p a b hp1 hp2 => absurd hp1 (by omega), rfl⟩
  exact ⟨m, x, ht, k1, fun p a b hp => k2 p a b (by omega) hp, k3⟩

/-- DIFF of an initialised monochrome block (R168). -/
theorem runDiff_spec {s : State} (hg : s.conf.grey = false) (h0 : s.bufs.buf0.offsets = List.range s.len)
    (h1 : s.bufs.buf1.offsets = List.range s.len) (h2 : s.bufs.buf2.offsets = List.range (2 * s.len)) :
    ∃ m x, runDiff s = .next { s with bufs := { s.bufs with buf2 := m }, work := x } ∧
      m.offsets = List.range (2 * s.len) ∧
      (∀ p a b, p < s.len → s.byteAt .buf0 p = some a → s.byteAt .buf1 p = some b →
        Memory.read m (2 * p + 1) = some (diffByte s.params (hiNibble (fromWhite a b)) (hiNibble (fromBlack a b))) ∧
        Memory.read m (2 * p) = some (diffByte s.params (loNibble (fromWhite a b)) (loNibble (fromBlack a b)))) ∧
      x = { s.work with pos := x.pos, n := x.n, tw := x.tw, tb := x.tb } := by
  obtain ⟨m, x, e, h⟩ := diffLoop_spec (s := s.setPhase .diff) h0 h1 h2
  refine ⟨m, x, ?_, h⟩
  simp only [runDiff, hg, inPhaseR, e]
  rfl

end Sys2Proof.Machine
end

