-- ==== Sys2Proof/Laws/Encoding.lean ====
section
/-! SUPPORT. The bits of the encoded commands, and what it is that a word matches a row of R62. -/

namespace Sys2Proof.Machine

/-- The word of an INIT (R61). -/
def initWord (w h : BitVec 16) (g p : Bool) (fue : BitVec 16) : CommandWord :=
  0x1#4 ++ 0#2 ++ BitVec.ofBool g ++ BitVec.ofBool p ++ w ++ h ++ 0#8 ++ fue

/-- Its bits (R61, R63). -/
theorem initWord_bit (w h : BitVec 16) (g p : Bool) (fue : BitVec 16) (i : Nat) (hi : i < 64) :
   (initWord w h g p fue).getLsbD i =
     if i < 16 then fue.getLsbD i else if i < 24 then false else if i < 40 then h.getLsbD (i - 24)
     else if i < 56 then w.getLsbD (i-40) else if i < 57 then p else if i < 58 then g else decide (i = 60) := by
  unfold initWord
  simp only [BitVec.getLsbD_append]
  interval_cases i <;> simp

/-- The word of a SET_PIXEL (R61). -/
def pixelWord (x y : BitVec 16) (c : Colour) : CommandWord :=
  0x2#4 ++ 0#3 ++ BitVec.ofBool c.on ++ x ++ y ++ colourBits c

/-- Its bits (R61, R63). -/
theorem pixelWord_bit (x y : BitVec 16) (c : Colour) (i : Nat) (hi : i < 64) :
   (pixelWord x y c).getLsbD i =
     if i < 8 then c.b.getLsbD i else if i < 16 then c.gr.getLsbD (i-8) else if i < 24 then c.r.getLsbD (i - 16)
     else if i < 40 then y.getLsbD (i-24) else if i < 56 then x.getLsbD (i-40) else if i < 57 then c.on else decide
       (i = 61) := by
  unfold pixelWord colourBits
  simp only [BitVec.getLsbD_append]
  interval_cases i <;> simp

/-- The word of a FILL (R61). -/
def fillWord (c : Colour) : CommandWord :=
  0x3#4 ++ 0#3 ++ BitVec.ofBool c.on ++ 0#32 ++ colourBits c

/-- Its bits (R61, R63). -/
theorem fillWord_bit (c : Colour) (i : Nat) (hi : i < 64) :
   (fillWord c).getLsbD i =
     if i < 8 then c.b.getLsbD i else if i < 16 then c.gr.getLsbD (i-8) else if i < 24 then c.r.getLsbD (i - 16)
     else if i < 56 then false else if i < 57 then c.on else decide (i = 60 ∨ i = 61) := by
  unfold fillWord colourBits
  simp only [BitVec.getLsbD_append]
  interval_cases i <;> simp

/-- A word matches a row exactly when each of its bits does (R62). -/
theorem spells_iff (cmd mask mtch : CommandWord) :
    spells cmd mask mtch = true ↔ ∀ i < 64, (cmd.getLsbD i && mask.getLsbD i) = mtch.getLsbD i := by
  unfold spells
  rw [decide_eq_true_eq]
  constructor
  · rintro h i -
    rw [← h, BitVec.getLsbD_and]
  · intro h
    apply BitVec.eq_of_getLsbD_eq
    intro i hi
    rw [BitVec.getLsbD_and]
    exact h i hi

/-- One bit that differs is enough for a word not to match a row (R62). -/
theorem not_spells {cmd mask mtch : CommandWord} (i : Nat) (h : (cmd.getLsbD i && mask.getLsbD i) ≠ mtch.getLsbD i) :
    ¬ spells cmd mask mtch = true := by
  rw [spells_iff]
  intro k
  by_cases hi : i < 64
  · exact h (k i hi)
  · apply h
    rw [BitVec.getLsbD_of_ge _ _ (by omega), BitVec.getLsbD_of_ge mtch _ (by omega)]
    rfl

end Sys2Proof.Machine
end

