-- ==== Sys2Proof/Laws/Kept.lean ====
section
/-! SUPPORT. What every sequence of primitive changes keeps, and when a sequence completes. -/

namespace Sys2Proof.Machine

theorem prim_kept {s t : State} (h : Prim s t) :
    t.params = s.params ∧ t.conf = s.conf ∧ t.port = s.port ∧ t.flags.initialised = s.flags.initialised ∧
      t.flags.failed = s.flags.failed ∧ ∀ b, (t.bufs.get b).offsets = (s.bufs.get b).offsets := by
  cases h with
  | store b p v _ _ h =>
    have k := offsets_writeByte h
    obtain ⟨_, rfl⟩ := writeByte_eq_next.mp h
    exact ⟨rfl, rfl, rfl, rfl, rfl, k⟩
  | _ => simp [clearDirAndPd, pulseWord, State.portSet, State.portClear, clearPartialCount, bumpPuc]

/-- Every instruction but INIT keeps the parameters, the configuration registers, the inputs, `INITIALISED`, `FAILED`
and the offsets of every buffer (R14, R15, R23, R151). -/
theorem reach_kept {s t : State} (h : Reach s t) :
    t.params = s.params ∧ t.conf = s.conf ∧ t.port = s.port ∧ t.flags.initialised = s.flags.initialised ∧
      t.flags.failed = s.flags.failed ∧ ∀ b, (t.bufs.get b).offsets = (s.bufs.get b).offsets := by
  refine reach_rel (R := fun s t => t.params = s.params ∧ t.conf = s.conf ∧ t.port = s.port ∧
    t.flags.initialised = s.flags.initialised ∧ t.flags.failed = s.flags.failed ∧
    ∀ b, (t.bufs.get b).offsets = (s.bufs.get b).offsets) (fun s => by simp) ?_ prim_kept h
  rintro a b c ⟨h1, h2, h3, h4, h5, h6⟩ ⟨k1, k2, k3, k4, k5, k6⟩
  exact ⟨k1.trans h1, k2.trans h2, k3.trans h3, k4.trans h4, k5.trans h5, fun b => (k6 b).trans (h6 b)⟩

theorem eq_nil_of_offsets {m : Memory} (h : m.offsets = []) : m = [] := by
  cases m <;> simp_all

/-- Whether the buffers are sized depends on the configuration registers, `INITIALISED` and the offsets alone (R23). -/
theorem buffersSized_congr {s t : State} (h1 : t.conf = s.conf) (h2 : t.flags.initialised = s.flags.initialised)
    (h3 : ∀ b, (t.bufs.get b).offsets = (s.bufs.get b).offsets) (hs : BuffersSized s) : BuffersSized t := by
  unfold BuffersSized at hs ⊢
  rw [h1, h2, len_congr h1]
  have a0 := h3 .buf0
  have a1 := h3 .buf1
  have a2 := h3 .buf2
  simp only [Buffers.get] at a0 a1 a2
  split
  · rename_i hi
    rw [if_pos hi] at hs
    refine ⟨hs.1, by rw [a0]; exact hs.2.1, ?_⟩
    split
    · rename_i hg
      rw [if_pos hg] at hs
      obtain ⟨-, -, e1, e2⟩ := hs
      rw [e1] at a1
      rw [e2] at a2
      exact ⟨eq_nil_of_offsets a1, eq_nil_of_offsets a2⟩
    · rename_i hg
      rw [if_neg hg] at hs
      rw [a1, a2]
      exact hs.2.2
  · rename_i hi
    rw [if_neg hi] at hs
    rw [hs] at a0 a1 a2
    apply buffers_ext
    intro i
    cases i
    · exact eq_nil_of_offsets a0
    · exact eq_nil_of_offsets a1
    · exact eq_nil_of_offsets a2

theorem reach_sized {s t : State} (h : Reach s t) (hs : BuffersSized s) : BuffersSized t :=
  buffersSized_congr (reach_kept h).2.1 (reach_kept h).2.2.2.1 (reach_kept h).2.2.2.2.2 hs

/-- What the body of a sequence starts from: the power is on and the rest is as before, but for the pins, `CFG`, the
position and `DLY` (R183 to R188). -/
theorem begin_kept (q : Seq) (s : State) :
    (powerOn (beginSequence q s)).params = s.params ∧ (powerOn (beginSequence q s)).conf = s.conf ∧
      (powerOn (beginSequence q s)).puc = s.puc ∧ (powerOn (beginSequence q s)).bufs = s.bufs ∧
      (powerOn (beginSequence q s)).port = s.port ∧
      (powerOn (beginSequence q s)).flags = { s.flags with power := true } := by
  obtain ⟨h1, h2, h3, h4, h5, -, -, h8⟩ := powerOn_keeps (beginSequence q s)
  exact ⟨h1, h2, h3, h4, h5, h8⟩

/-- What the end of a sequence keeps and leaves (R183 to R188, R191). -/
theorem end_kept (s : State) :
    (powerOff s).endSequence.params = s.params ∧ (powerOff s).endSequence.conf = s.conf ∧
      (powerOff s).endSequence.puc = s.puc ∧ (powerOff s).endSequence.bufs = s.bufs ∧
      (powerOff s).endSequence.port = s.port ∧ (powerOff s).endSequence.pos = .idle ∧
      (powerOff s).endSequence.flags = { s.flags with power := false } := by
  obtain ⟨h1, h2, h3, h4, h5, -, -, h8⟩ := powerOff_keeps s
  exact ⟨h1, h2, h3, h4, h5, rfl, h8⟩

/-- The descriptors of the full monochrome refresh and of the partial one fit the monochrome mode (R183, R184). -/
theorem fullMonoPasses_fit {p : Config} {d : PassDesc} (h : d ∈ fullMonoPasses p) : fitsMode d false = true := by
  simp only [fullMonoPasses, List.mem_append, List.mem_map, List.mem_cons, List.not_mem_nil, or_false] at h
  obtain ⟨k, -, rfl⟩ | rfl | rfl | rfl | rfl | rfl := h <;> rfl

theorem partialPasses_fit {d : PassDesc} (h : d ∈ partialPasses) : fitsMode d false = true := by
  revert d
  decide

theorem constPasses_fit {l : List PassKind} {d : PassDesc} (h : d ∈ l.map PassDesc.const) (g : Bool) :
    fitsMode d g = true := by
  obtain ⟨k, -, rfl⟩ := List.mem_map.mp h
  rfl

/-- A list of passes that fit the pixel mode completes in an initialised block (R145). -/
theorem runPasses_of_fit {ds : List PassDesc} {s : State} (hi : s.flags.initialised = true) (hb : BuffersSized s)
    (h : ∀ d ∈ ds, fitsMode d s.conf.grey = true) : ∃ t, runPasses ds s = .next t :=
  runPasses_total (one_le_wpr hi hb) fun d hd _ hk => word_total hi hb (h d hd) hk

end Sys2Proof.Machine
end

