-- ==== Sys2Proof/Laws/PerInstr.lean ====
section
/-! SUPPORT. One statement for all instructions, about their encoding: family `Coding`. -/

namespace Sys2Proof.Laws

open Sys2Proof.Machine

/-- Which encoding space an instruction's code lies in: a command word matches its row of R62, a descriptor is one of
R74, a phase code is one of R76, and the composite operations have no code. -/
def Coding.Statement (i : Instr) : Prop :=
  match encode i with
  | some (.command w) => hostCommands i ∧ ∃ row ∈ commandRows, w &&& row.2 = row.1
  | some (.descriptor d) => descriptors i ∧ (decodeDesc d).isSome = true
  | some (.phase c) => (∃ p, i = instrOfPhase p) ∧ (decodePhase c).isSome = true
  | none => (∃ d, i = .pass d) ∨ (∃ d, i = .runPass d) ∨ i = .refreshFullMono ∨ i = .refreshPartial ∨ i = .refreshGrey

/-- A word matches a row when each of its bits does. -/
theorem Coding.matches_of_bits {w m k : CommandWord} (h : ∀ i < 64, (w.getLsbD i && m.getLsbD i) = k.getLsbD i) :
    w &&& m = k := by
  have := (spells_iff w m k).mpr h
  simpa [spells] using this

theorem Coding.init (w h : BitVec 16) (g p : Bool) (fue : BitVec 16) : Coding.Statement (.init w h g p fue) :=
  ⟨.inl ⟨w, h, g, p, fue, rfl⟩, (0x1000000000000000, 0xFC00000000FF0000), by simp [commandRows], by
    apply Coding.matches_of_bits
    intro i hi
    refine (congrArg (· && _) (initWord_bit w h g p fue i hi)).trans ?_
    interval_cases i <;> simp⟩

theorem Coding.setPixel (x y : BitVec 16) (c : Colour) : Coding.Statement (.setPixel x y c) :=
  ⟨.inr (.inl ⟨x, y, c, rfl⟩), (0x2000000000000000, 0xFE00000000000000), by simp [commandRows], by
    apply Coding.matches_of_bits
    intro i hi
    refine (congrArg (· && _) (pixelWord_bit x y c i hi)).trans ?_
    interval_cases i <;> simp⟩

theorem Coding.fill (c : Colour) : Coding.Statement (.fill c) :=
  ⟨.inr (.inr (.inl ⟨c, rfl⟩)), (0x3000000000000000, 0xFEFFFFFFFF000000), by simp [commandRows], by
    apply Coding.matches_of_bits
    intro i hi
    refine (congrArg (· && _) (fillWord_bit c i hi)).trans ?_
    interval_cases i <;> simp⟩

theorem Coding.clean : Coding.Statement (.clean) :=
  ⟨.inr (.inr (.inr (.inl rfl))), (0x4000000000000000, 0xFFFFFFFFFFFFFFFF), by simp [commandRows], rfl⟩

theorem Coding.refresh : Coding.Statement (.refresh) :=
  ⟨.inr (.inr (.inr (.inr rfl))), (0x5000000000000000, 0xFFFFFFFFFFFFFFFF), by simp [commandRows], rfl⟩

theorem Coding.passConstWhite : Coding.Statement (.passConstWhite) :=
  ⟨⟨.const .white, rfl⟩, rfl⟩

theorem Coding.passConstBlack : Coding.Statement (.passConstBlack) :=
  ⟨⟨.const .black, rfl⟩, rfl⟩

theorem Coding.passConstDischarge : Coding.Statement (.passConstDischarge) :=
  ⟨⟨.const .discharge, rfl⟩, rfl⟩

theorem Coding.passConstSkip : Coding.Statement (.passConstSkip) :=
  ⟨⟨.const .skip, rfl⟩, rfl⟩

theorem Coding.passMonoLutb : Coding.Statement (.passMonoLutb) :=
  ⟨⟨.monoLutb, rfl⟩, rfl⟩

theorem Coding.passMonoLut2 : Coding.Statement (.passMonoLut2) :=
  ⟨⟨.monoLut2, rfl⟩, rfl⟩

theorem Coding.passDiff : Coding.Statement (.passDiff) :=
  ⟨⟨.diff, rfl⟩, rfl⟩

theorem Coding.passGrey (k : BitVec 3) : Coding.Statement (.passGrey k) :=
  ⟨⟨.grey k, rfl⟩, by revert k; decide⟩

theorem Coding.idle : Coding.Statement (.idle) :=
  ⟨⟨.idle, rfl⟩, rfl⟩

theorem Coding.vscanStart : Coding.Statement (.vscanStart) :=
  ⟨⟨.vscanStart, rfl⟩, rfl⟩

theorem Coding.hscanStart : Coding.Statement (.hscanStart) :=
  ⟨⟨.hscanStart, rfl⟩, rfl⟩

theorem Coding.colWord : Coding.Statement (.colWord) :=
  ⟨⟨.rowClock, rfl⟩, rfl⟩

theorem Coding.vscanEnd : Coding.Statement (.vscanEnd) :=
  ⟨⟨.vscanEnd, rfl⟩, rfl⟩

theorem Coding.settle : Coding.Statement (.settle) :=
  ⟨⟨.settle, rfl⟩, rfl⟩

theorem Coding.cfgPush : Coding.Statement (.cfgPush) :=
  ⟨⟨.cfgPush, rfl⟩, rfl⟩

theorem Coding.powerOn : Coding.Statement (.powerOn) :=
  ⟨⟨.powerOn, rfl⟩, rfl⟩

theorem Coding.powerOff : Coding.Statement (.powerOff) :=
  ⟨⟨.powerOff, rfl⟩, rfl⟩

theorem Coding.diff : Coding.Statement (.diff) :=
  ⟨⟨.diff, rfl⟩, rfl⟩

theorem Coding.commit : Coding.Statement (.commit) :=
  ⟨⟨.commit, rfl⟩, rfl⟩

theorem Coding.pass (d : PassDesc) : Coding.Statement (.pass d) :=
  .inl ⟨d, rfl⟩

theorem Coding.runPass (d : PassDesc) : Coding.Statement (.runPass d) :=
  .inr (.inl ⟨d, rfl⟩)

theorem Coding.refreshFullMono : Coding.Statement (.refreshFullMono) :=
  .inr (.inr (.inl rfl))

theorem Coding.refreshPartial : Coding.Statement (.refreshPartial) :=
  .inr (.inr (.inr (.inl rfl)))

theorem Coding.refreshGrey : Coding.Statement (.refreshGrey) :=
  .inr (.inr (.inr (.inr rfl)))

end Sys2Proof.Laws
end

