-- ==== Sys2Proof/Laws/Sequences.lean ====
section
/-! SUPPORT. The laws of DIFF, COMMIT, the refresh sequences and REFRESH: what each keeps, what it makes, and that it
  completes
(44_framebuffer.md R168, R169, 45_refresh_orchestrator.md R180 to R191). -/

namespace Sys2Proof.Machine

/-- What COMMIT changes: bytes of `BUF0` below `LEN` (R169). -/
theorem runCommit_frame {s t : State} (e : runCommit s = .next t) : s.conf.grey = false ∧ t =
    { s with bufs := t.bufs } ∧
    ∀ b q, (b = .buf0 → s.len ≤ q) → t.byteAt b q = s.byteAt b q := by
  unfold runCommit at e
  split at e
  · cases e
  rename_i hg
  rw [Bool.not_eq_true] at hg
  obtain ⟨u, hu, e⟩ := andThen_eq_next.mp e
  cases e
  have key := forUp_rel_within (R := fun a b => b = { a with bufs := b.bufs } ∧ (a.len = s.len →
      ∀ c q, (c = .buf0 → s.len ≤ q) → b.byteAt c q = a.byteAt c q)) (body := commitAt)
      (fun a => ⟨rfl, fun _ _ _ _ => rfl⟩)
      (by
        rintro a b c ⟨h1, h2⟩ ⟨k1, k2⟩
        have hl : b.len = a.len := by rw [h1]; rfl
        refine ⟨by rw [k1, h1], fun ha x q hx => ?_⟩
        rw [k2 (hl.trans ha) x q hx, h2 ha x q hx])
      (by
        rintro i a b h1 h2 - h
        obtain ⟨v, hv, h⟩ := andThen_eq_next.mp h
        have := byteAt_write h
        obtain ⟨_, rfl⟩ := writeByte_eq_next.mp h
        refine ⟨rfl, fun ha x q hx => ?_⟩
        rw [this, if_neg]
        rintro ⟨rfl, rfl⟩
        have := hx rfl
        have hl : (s.setPhase Phase.commit).len = s.len := rfl
        omega) hu
  obtain ⟨k1, k2⟩ := key
  refine ⟨hg, ?_, ?_⟩
  · rw [k1]; rfl
  · intro b q hb
    exact k2 rfl b q hb

/-- What DIFF changes: bytes of `BUF2` below `2 * LEN`, and its working registers (R168). -/
theorem runDiff_frame {s t : State} (e : runDiff s = .next t) : s.conf.grey = false ∧
    t = { s with bufs := t.bufs, work := { s.work with
        pos := t.work.pos, n := t.work.n, tw := t.work.tw, tb := t.work.tb } } ∧
    ∀ b q, (b = .buf2 → 2 * s.len ≤ q) → t.byteAt b q = s.byteAt b q := by
  unfold runDiff at e
  split at e
  · cases e
  rename_i hg
  rw [Bool.not_eq_true] at hg
  obtain ⟨u, hu, e⟩ := andThen_eq_next.mp e
  cases e
  have key := forUp_rel_within (R := fun a b => b = { a with bufs := b.bufs, work := { a.work with
        pos := b.work.pos, n := b.work.n, tw := b.work.tw, tb := b.work.tb } } ∧ (a.len = s.len →
      ∀ c q, (c = .buf2 → 2 * s.len ≤ q) → b.byteAt c q = a.byteAt c q))
      (fun a => ⟨rfl, fun _ _ _ _ => rfl⟩)
      (by
        rintro a b c ⟨h1, h2⟩ ⟨k1, k2⟩
        have hl : b.len = a.len := by rw [h1]; rfl
        refine ⟨by rw [k1, h1], fun ha x q hx => ?_⟩
        rw [k2 (hl.trans ha) x q hx, h2 ha x q hx])
      (by
        rintro i a b h1 h2 - h
        obtain ⟨x, -, h⟩ := andThen_eq_next.mp h
        obtain ⟨y, -, h⟩ := andThen_eq_next.mp h
        obtain ⟨c, hc, h⟩ := andThen_eq_next.mp h
        obtain ⟨d, hd, h⟩ := andThen_eq_next.mp h
        have w1 := byteAt_write hc
        have w2 := byteAt_write hd
        obtain ⟨_, rfl⟩ := writeByte_eq_next.mp hc
        obtain ⟨_, rfl⟩ := writeByte_eq_next.mp hd
        cases h
        refine ⟨rfl, fun ha x q hx => ?_⟩
        have hl : (s.setPhase Phase.diff).len = s.len := rfl
        refine (w2 x q).trans ?_
        rw [if_neg, w1, if_neg]
        · rintro ⟨rfl, rfl⟩
          have := hx rfl
          omega
        · rintro ⟨rfl, rfl⟩
          have := hx rfl
          omega) hu
  obtain ⟨k1, k2⟩ := key
  refine ⟨hg, ?_, ?_⟩
  · rw [k1]; rfl
  · intro b q hb
    exact k2 rfl b q hb

/-- What every sequence keeps. -/
structure SequenceKeeps (s t : State) : Prop where
  params : t.params = s.params
  conf : t.conf = s.conf
  port : t.port = s.port

/-- What REFRESH_FULL_MONO keeps and leaves (R183). -/
theorem refreshFullMono_keeps {s t : State} (e : refreshFullMono s = .next t) : s.conf.grey = false ∧ SequenceKeeps s
    t ∧
    t.puc = 0 ∧ t.flags = { s.flags with blockPartial := false, power := false } ∧ t.pos = .idle ∧
    ∀ b q, (b = .buf0 → s.len ≤ q) → t.byteAt b q = s.byteAt b q := by
  unfold refreshFullMono at e
  split at e
  · cases e
  rename_i hg
  rw [Bool.not_eq_true] at hg
  obtain ⟨u, hu, rfl⟩ := sequence_eq_next.mp e
  obtain ⟨v, hv, hu⟩ := andThen_eq_next.mp hu
  obtain ⟨b1, b2, b3, b4, b5, b6⟩ := begin_kept .fullMono s
  obtain ⟨r1, r2, r3, r4, r5, r6, -⟩ := runPasses_keeps hv
  obtain ⟨-, c1, c2⟩ := runCommit_frame hu
  obtain ⟨e1, e2, e3, e4, e5, e6, e7⟩ := end_kept u
  have hu1 : u.conf = s.conf := by rw [c1]; simp [clearPartialCount, r2, b2]
  refine ⟨hg, ⟨?_, ?_, ?_⟩, ?_, ?_, e6, ?_⟩
  · rw [e1, c1]; simp [clearPartialCount, r1, b1]
  · rw [e2, hu1]
  · rw [e5, c1]; simp [clearPartialCount, r6, b5]
  · rw [e3, c1]; simp [clearPartialCount]
  · rw [e7, c1]; simp [clearPartialCount, r3, b6]
  · intro b q hb
    rw [byteAt_congr e4, c2 b q (by intro h; have := hb h; rw
      [len_congr (s := s) (by simp [clearPartialCount, r2, b2])]; exact this)]
    apply byteAt_congr
    simp [clearPartialCount, r5, b4]

/-- What REFRESH_PARTIAL keeps and leaves (R184). -/
theorem refreshPartial_keeps {s t : State} (e : refreshPartial s = .next t) : s.conf.grey = false ∧ partialAllowed s =
    true ∧ SequenceKeeps s t ∧
    t.puc = s.puc + 1 ∧ t.flags = { s.flags with power := false } ∧ t.pos = .idle ∧
    ∀ b q, (b = .buf0 → s.len ≤ q) → (b = .buf2 → 2 * s.len ≤ q) → t.byteAt b q = s.byteAt b q := by
  unfold refreshPartial at e
  split at e
  · cases e
  rename_i hg
  rw [Bool.not_eq_true] at hg
  split at e
  swap
  · cases e
  rename_i hp
  obtain ⟨u, hu, rfl⟩ := sequence_eq_next.mp e
  obtain ⟨v, hv, hu⟩ := andThen_eq_next.mp hu
  obtain ⟨w, hw, hu⟩ := andThen_eq_next.mp hu
  obtain ⟨x, hx, hu⟩ := andThen_eq_next.mp hu
  cases hu
  obtain ⟨b1, b2, b3, b4, b5, b6⟩ := begin_kept .partialMono s
  obtain ⟨-, d1, d2⟩ := runDiff_frame hv
  obtain ⟨r1, r2, r3, r4, r5, r6, -⟩ := runPasses_keeps hw
  obtain ⟨-, c1, c2⟩ := runCommit_frame hx
  obtain ⟨e1, e2, e3, e4, e5, e6, e7⟩ := end_kept (bumpPuc x)
  have hv1 : v.conf = s.conf := by rw [d1]; exact b2
  have hw1 : w.conf = s.conf := by rw [r2, hv1]
  refine ⟨hg, hp, ⟨?_, ?_, ?_⟩, ?_, ?_, e6, ?_⟩
  · rw [e1]; simp only [bumpPuc]; rw [c1]; simp only; rw [r1, d1]; exact b1
  · rw [e2]; simp only [bumpPuc]; rw [c1]; exact hw1
  · rw [e5]; simp only [bumpPuc]; rw [c1]; simp only; rw [r6, d1]; exact b5
  · rw [e3]; simp only [bumpPuc]; rw [c1]; simp only; rw [r4, d1]; simp only; rw [b3]
  · rw [e7]; simp only [bumpPuc]; rw [c1]; simp only; rw [r3, d1]; simp only; rw [b6]
  · intro b q h0 h2
    rw [byteAt_congr e4]
    show x.byteAt b q = _
    rw [c2 b q (by intro h; have := h0 h; rw [len_congr hw1]; exact this), byteAt_congr r5,
      d2 b q (by intro h; have := h2 h; rw [len_congr b2]; exact this), byteAt_congr b4]

/-- What the subframes keep (R149). -/
theorem greySubframes_keeps {n : Nat} {s t : State} (e : forUp greySubframe n 0 s = .next t) :
    t.params = s.params ∧ t.conf = s.conf ∧ t.flags = s.flags ∧ t.puc = s.puc ∧ t.bufs = s.bufs ∧ t.port = s.port ∧
      t.io.dir = s.io.dir ∧
      t.io.latch.get .panelEn = s.io.latch.get .panelEn ∧
      ∀ f, f ≠ .sof → f ≠ .le → cfgGet f t.cfg = cfgGet f s.cfg := by
  refine forUp_rel (R := fun s t => t.params = s.params ∧ t.conf = s.conf ∧ t.flags = s.flags ∧ t.puc = s.puc ∧ t.bufs
    = s.bufs ∧ t.port = s.port ∧
      t.io.dir = s.io.dir ∧
      t.io.latch.get .panelEn = s.io.latch.get .panelEn ∧
      ∀ f, f ≠ .sof → f ≠ .le → cfgGet f t.cfg = cfgGet f s.cfg) ?_ ?_ ?_ e
  · intro s; simp
  · rintro a b c ⟨a1, a2, a3, a4, a5, a6, a7, a8, a9⟩ ⟨b1, b2, b3, b4, b5, b6, b7, b8, b9⟩
    exact ⟨b1.trans a1, b2.trans a2, b3.trans a3, b4.trans a4, b5.trans a5, b6.trans a6, b7.trans a7, b8.trans a8, fun
      f f1 f2 => (b9 f f1 f2).trans (a9 f f1 f2)⟩
  · intro i a b h
    obtain ⟨h1, h2, h3, h4, h5, h6, h7, h8, h9, h10, h11⟩ := runPass_keeps h
    exact ⟨h1, h2, h3, h4, h5, h6, h9, h10, h11⟩

/-- What REFRESH_GREY keeps and leaves (R185). -/
theorem refreshGrey_keeps {s t : State} (e : refreshGrey s = .next t) : s.conf.grey = true ∧ SequenceKeeps s t ∧
    t.puc = s.puc ∧ t.flags = { s.flags with power := false } ∧ t.pos = .idle ∧ t.bufs = s.bufs := by
  unfold refreshGrey at e
  split at e
  swap
  · cases e
  rename_i hg
  obtain ⟨u, hu, rfl⟩ := sequence_eq_next.mp e
  obtain ⟨v, hv, hu⟩ := andThen_eq_next.mp hu
  obtain ⟨w, hw, hu⟩ := andThen_eq_next.mp hu
  obtain ⟨b1, b2, b3, b4, b5, b6⟩ := begin_kept .fullGrey s
  obtain ⟨r1, r2, r3, r4, r5, r6, -⟩ := runPasses_keeps hv
  obtain ⟨d1, d2, d3, d4, d5, d6, -⟩ := greySubframes_keeps hw
  obtain ⟨c1, c2, c3, c4, c5, c6, -⟩ := runPasses_keeps hu
  obtain ⟨e1, e2, e3, e4, e5, e6, e7⟩ := end_kept u
  refine ⟨hg, ⟨?_, ?_, ?_⟩, ?_, ?_, e6, ?_⟩
  · rw [e1, c1, d1, r1, b1]
  · rw [e2, c2, d2, r2, b2]
  · rw [e5, c6, d6, r6, b5]
  · rw [e3, c4, d4, r4, b3]
  · rw [e7, c3, d3, r3, b6]
  · rw [e4, c5, d5, r5, b4]

/-- What CLEAN keeps and leaves (R188). -/
theorem cleanBody_keeps {s t : State} (e : cleanBody s = .next t) : SequenceKeeps s t ∧
    t.puc = s.puc ∧ t.flags = { s.flags with power := false } ∧ t.pos = .idle ∧ t.bufs = s.bufs := by
  obtain ⟨u, hu, rfl⟩ := sequence_eq_next.mp e
  obtain ⟨b1, b2, b3, b4, b5, b6⟩ := begin_kept .clean s
  obtain ⟨r1, r2, r3, r4, r5, r6, -⟩ := runPasses_keeps hu
  obtain ⟨e1, e2, e3, e4, e5, e6, e7⟩ := end_kept u
  refine ⟨⟨?_, ?_, ?_⟩, ?_, ?_, e6, ?_⟩
  · rw [e1, r1, b1]
  · rw [e2, r2, b2]
  · rw [e5, r6, b5]
  · rw [e3, r4, b3]
  · rw [e7, r3, b6]
  · rw [e4, r5, b4]

/-- REFRESH runs one of three sequences and then the forced-full check (R180, R189). -/
theorem refreshBody_cases {s t : State} (e : refreshBody s = .next t) :
    ∃ u, t = forcedFullCheck u ∧ ((s.conf.grey = true ∧ refreshGrey s = .next u) ∨
      (s.conf.grey = false ∧ partialAllowed s = true ∧ refreshPartial s = .next u) ∨
      (s.conf.grey = false ∧ partialAllowed s = false ∧ refreshFullMono s = .next u)) := by
  obtain ⟨u, hu, e⟩ := andThen_eq_next.mp e
  cases e
  refine ⟨u, rfl, ?_⟩
  unfold refreshVariant at hu
  split at hu
  · left; exact ⟨‹_›, hu⟩
  rename_i hg
  rw [Bool.not_eq_true] at hg
  split at hu
  · right; left; exact ⟨hg, ‹_›, hu⟩
  · rename_i hp
    rw [Bool.not_eq_true] at hp
    right; right; exact ⟨hg, hp, hu⟩

/-- What the forced-full check keeps and leaves (R189). -/
theorem forcedFullCheck_keeps (u : State) : SequenceKeeps u (forcedFullCheck u) ∧ (forcedFullCheck u).puc = u.puc ∧
    (forcedFullCheck u).bufs = u.bufs ∧
   (forcedFullCheck u).pos = u.pos ∧ (forcedFullCheck u).cfg = u.cfg ∧ (forcedFullCheck u).io = u.io ∧
   (forcedFullCheck u).flags = { u.flags with blockPartial := u.flags.blockPartial || fullIsDue u } := by
  unfold forcedFullCheck
  split
  · rename_i h; refine ⟨⟨by simp, by simp, by simp⟩, by simp, by simp, by simp, by simp, by simp, by simp [h]⟩
  · rename_i h; refine ⟨⟨by simp, by simp, by simp⟩, by simp, by simp, by simp, by simp, by simp, by simp [h]⟩

/-- Every word of a pass that fits the pixel mode is `wordByte` (R145). -/
theorem word_of_fit {s : State} {d : PassDesc} (hi : s.flags.initialised = true) (hb : BuffersSized s)
    (hd : fitsMode d s.conf.grey = true) : ∀ k < s.rows * s.wpr, word d k s = .next (wordByte s d k) :=
  fun _ hk => word_eq_wordByte (word_total hi hb hd hk)

/-- The events of a sequence, from those of its body (R183 to R188). -/
theorem sequence_spec {q : Seq} {body : State → Result State} {s : State} {X : List Event} (hp : s.flags.power = false)
    {u : State} (hu : body (powerOn (beginSequence q s)) = .next u)
    (h1 : u.io.trace = (powerOn (beginSequence q s)).io.trace ++ X) (h2 : u.cfg = onCfg4 s.cfg)
      (h3 : u.params = s.params)
    (h4 : u.flags.power = true) :
    ∃ t, sequence q body s = .next t ∧ t.io.trace = s.io.trace ++
      (powerOnEvents s.cfg ++ X ++ powerOffEvents s.params.pinmap (onCfg4 s.cfg)) ∧
      t.bufs = u.bufs ∧ t.puc = u.puc ∧ t.flags = { u.flags with power := false } ∧ t.conf = u.conf ∧ t.pos = .idle :=
        by
  obtain ⟨a1, a2, -, -, -, a6⟩ := powerOn_spec (s := beginSequence q s) hp
  obtain ⟨b1, b2, -, -, -, b6⟩ := powerOff_spec h4
  have e1 : (beginSequence q s).io = s.io := rfl
  have e2 : (beginSequence q s).cfg = s.cfg := rfl
  obtain ⟨c1, c2, c3, c4, c5, c6, c7⟩ := end_kept u
  refine ⟨_, sequence_eq_next.mpr ⟨u, hu, rfl⟩, ?_, c4, c3, c7, c2, rfl⟩
  rw [State.endSequence_io, b1, h1, a1, e1, e2, h2, h3]
  simp

/-- A valid pattern restores the value POWER_ON leaves (R122). -/
theorem vscanCfg_onCfg4 {s : State} (hv : s.params.valid = true) : vscanCfg s.params.vscanStartSeq (onCfg4 s.cfg) =
    onCfg4 s.cfg :=
  vscanCfg_restored hv (by rw [onCfg4_get]; simp)

/-- POWER_ON leaves `LE` as it was (R111). -/
theorem le_onCfg4 {s : State} (h : cfgGet .le s.cfg = false) : cfgGet .le (onCfg4 s.cfg) = false := by
  rw [onCfg4_get]; simpa using h

/-- `PRELUDE_MONO` has eight passes (R183). -/
theorem preludeMono_length {p : Config} (h : p.valid = true) : p.preludeMono.length = 8 := by
  simp only [Config.valid, Bool.and_eq_true, decide_eq_true_eq] at h
  tauto

/-- A list of passes within a sequence, sending the words of a state `w` with the same buffers (R126, R182). -/
theorem runPasses_in_sequence {ds : List PassDesc} {s v : State} (hv : s.params.valid = true)
    (hi : s.flags.initialised = true)
    (hb : BuffersSized s) (hd : ∀ d ∈ ds, fitsMode d s.conf.grey = true) (hl : cfgGet .le s.cfg = false)
    (w : State)
    (h1 : v.params = s.params) (h2 : v.conf = s.conf) (h3 : v.bufs = w.bufs) (h4 : v.cfg = onCfg4 s.cfg)
      (hw1 : w.params = s.params) (hw2 : w.conf = s.conf)
    (hw3 : BuffersSized w) (hw4 : w.flags.initialised = true) :
    ∃ u, runPasses ds v = .next u ∧ u.io.trace = v.io.trace ++ ds.flatMap
      (fun d => passEvents s.params (onCfg4 s.cfg) (wordByte w d) s.rows s.wpr ++ [.delayUs 230]) ∧
      u.cfg = onCfg4 s.cfg ∧ u.params = s.params ∧ u.conf = s.conf ∧ u.flags = v.flags ∧ u.puc = v.puc ∧ u.bufs =
        v.bufs ∧
      u.port = v.port := by
  have hw := one_le_wpr hi hb
  obtain ⟨u, hu, k1, k2, k3, k4, k5, k6, k7, k8, -⟩ := runPasses_spec (ds := ds) (s := v)
    (w := fun d k => wordByte w d k) (by rw [wpr_congr h2]; exact hw)
    (by rw [h4]; exact le_onCfg4 hl) (by rw [h4, h1]; exact vscanCfg_onCfg4 hv) (by
      intro d hd' k hk
      rw [rows_congr h2, wpr_congr h2] at hk
      rw [word_congr (s := w) (by rw [h1, hw1]) (by rw [h2, hw2]) h3]
      exact word_of_fit hw4 hw3 (by rw [hw2]; exact hd d hd') k (by rw [rows_congr hw2, wpr_congr hw2]; exact hk))
  refine ⟨u, hu, ?_, by rw [k2, h4], by rw [k3, h1], by rw [k4, h2], k5, k6, k7, k8⟩
  rw [k1, h1, h4, rows_congr h2, wpr_congr h2]

/-- The subframes within a greyscale sequence (R149). -/
theorem greySubframes_spec (n first : Nat) (v : State) (hn : first + n ≤ 8) : ∀ {s : State}, s.params.valid = true →
    s.flags.initialised = true →
    BuffersSized s → s.conf.grey = true → cfgGet .le s.cfg = false → v.params = s.params → v.conf = s.conf → v.bufs =
      s.bufs → v.cfg = onCfg4 s.cfg →
    ∃ u, forUp greySubframe n first v = .next u ∧ u.io.trace = v.io.trace ++
      ((List.range' first n).map fun k => PassDesc.grey (BitVec.ofNat 3 k)).flatMap
      (fun d => passEvents s.params (onCfg4 s.cfg) (wordByte s d) s.rows s.wpr ++ [.delayUs 230]) ∧
      u.cfg = onCfg4 s.cfg ∧ u.params = s.params ∧ u.conf = s.conf ∧ u.flags = v.flags ∧ u.puc = v.puc ∧ u.bufs =
        v.bufs := by
  induction n generalizing first v with
  | zero => intro s hv hi hb hg hl h1 h2 h3 h4; exact ⟨v, rfl, by simp, h4, h1, h2, rfl, rfl, rfl⟩
  | succ n ih =>
    intro s hv hi hb hg hl h1 h2 h3 h4
    obtain ⟨u, hu, k1, k2, k3, k4, k5, k6, k7, k8⟩ := runPasses_in_sequence (ds := [.grey (BitVec.ofNat 3 first)])
      (s := s) (v := { v with work := { v.work with k := BitVec.ofNat 3 first } }) hv hi hb
      (by simp [fitsMode, hg]) hl s h1 h2 h3 h4 rfl rfl hb hi
    obtain ⟨t, ht, t1, t2, t3, t4, t5, t6, t7⟩ := ih (first + 1) u (by omega) (s := s) hv hi hb hg hl k3 k4
      (by rw [k7]; exact h3) k2
    refine ⟨t, ?_, ?_, t2, t3, t4, by rw [t5, k5], by rw [t6, k6], by rw [t7, k7]⟩
    · rw [forUp_succ]
      have : greySubframe first v = .next u := by
        simp only [runPasses] at hu
        obtain ⟨u', hu', e⟩ := andThen_eq_next.mp hu
        cases e
        exact hu'
      rw [this]; exact ht
    · rw [t1, k1]
      simp [List.range'_succ]

/-- Sized buffers are sized in any state with the same configuration registers and buffers (R23). -/
theorem buffersSized_of_eq {s v : State} (hb : BuffersSized s) (h1 : v.conf = s.conf) (h2 : v.bufs = s.bufs)
    (h3 : v.flags.initialised = s.flags.initialised) : BuffersSized v :=
  buffersSized_congr h1 h3 (by rw [h2]; simp) hb

/-- A sequence completes when its body does. -/
theorem sequence_total {q : Seq} {body : State → Result State} {s : State}
    (h : ∃ u, body (powerOn (beginSequence q s)) = .next u) :
    ∃ t, sequence q body s = .next t := by
  obtain ⟨u, hu⟩ := h
  exact ⟨_, sequence_eq_next.mpr ⟨u, hu, rfl⟩⟩

/-- REFRESH_FULL_MONO completes (R183). -/
theorem refreshFullMono_total {s : State} (hi : s.flags.initialised = true) (hb : BuffersSized s)
    (hg : s.conf.grey = false) :
    ∃ t, refreshFullMono s = .next t := by
  obtain ⟨b1, b2, b3, b4, b5, b6⟩ := begin_kept .fullMono s
  obtain ⟨u, hu⟩ := runPasses_of_fit (ds := fullMonoPasses (powerOn (beginSequence .fullMono s)).params)
    (s := powerOn (beginSequence .fullMono s)) (by rw [b6]; exact hi)
    (buffersSized_of_eq hb b2 b4 (by rw [b6])) (by intro d hd; rw [b2, hg]; exact fullMonoPasses_fit hd)
  obtain ⟨k1, k2, k3, k4, k5, k6, -⟩ := runPasses_keeps hu
  have hc : (clearPartialCount u).conf = s.conf := by simp [k2, b2]
  have hbf : (clearPartialCount u).bufs = s.bufs := by simp [k5, b4]
  have := runCommit_spec (s := clearPartialCount u) (by rw [hc, hg])
    (by rw [len_congr hc, hbf]; exact buffersSized_buf0 hi hb)
    (by rw [len_congr hc, hbf]; exact (buffersSized_mono hi hb hg).1)
  rw [refreshFullMono, if_neg (by simp [hg])]
  exact sequence_total ⟨_, by simp only [hu, andThen_next]; exact this⟩

/-- REFRESH_PARTIAL completes (R184). -/
theorem refreshPartial_total {s : State} (hi : s.flags.initialised = true) (hb : BuffersSized s)
    (hg : s.conf.grey = false) (hp : partialAllowed s = true) :
    ∃ t, refreshPartial s = .next t := by
  obtain ⟨b1, b2, b3, b4, b5, b6⟩ := begin_kept .partialMono s
  have hb' := buffersSized_of_eq hb b2 b4 (by rw [b6])
  have hi' : (powerOn (beginSequence .partialMono s)).flags.initialised = true := by rw [b6]; exact hi
  have hg' : (powerOn (beginSequence .partialMono s)).conf.grey = false := by rw [b2]; exact hg
  obtain ⟨m, x, e, d1, d2, d3⟩ := runDiff_spec hg' (buffersSized_buf0 hi' hb') (buffersSized_mono hi' hb' hg').1
    (buffersSized_mono hi' hb' hg').2
  generalize hv : powerOn (beginSequence .partialMono s) = v at *
  have hbu : BuffersSized { v with bufs := { v.bufs with buf2 := m }, work := x } := by
    refine buffersSized_congr (s := v) rfl rfl ?_ hb'
    intro b; cases b <;> simp [Buffers.get]
    rw [d1, (buffersSized_mono hi' hb' hg').2]
  obtain ⟨u, hu⟩ := runPasses_of_fit (ds := partialPasses) (s :=
    { v with bufs := { v.bufs with buf2 := m }, work := x }) hi' hbu
     (by intro d hd; simp only; rw [hg']; exact partialPasses_fit hd)
  obtain ⟨k1, k2, k3, k4, k5, k6, -⟩ := runPasses_keeps hu
  have hu0 := buffersSized_buf0 (s := { v with bufs := { v.bufs with buf2 := m }, work := x }) hi' hbu
  have := runCommit_spec (s := u) (by rw [k2, hg']) (by rw [len_congr k2, k5]; exact hu0)
    (by rw [len_congr k2, k5]; exact (buffersSized_mono (s := { v with bufs := { v.bufs with buf2 := m }, work := x })
      hi' hbu hg').1)
  rw [refreshPartial, if_neg (by simp [hg]), if_pos hp]
  refine sequence_total ⟨bumpPuc { u with bufs := { u.bufs with buf0 := u.bufs.buf1 } }, ?_⟩
  rw [hv]; simp only [e, andThen_next, hu, this]

/-- The subframes complete (R149). -/
theorem greySubframes_total (n first : Nat) (v : State) (hi : v.flags.initialised = true) (hb : BuffersSized v)
    (hg : v.conf.grey = true) :
    ∃ u, forUp greySubframe n first v = .next u := by
  obtain ⟨t, ht, -⟩ := forUp_total (body := greySubframe) (n := n) (first := first) (s := v)
    (P := fun _ t => t.flags.initialised = true ∧ BuffersSized t ∧ t.conf.grey = true)
    (by
      rintro i t h1 h2 ⟨hi, hb, hg⟩
      obtain ⟨u, hu⟩ := runPasses_of_fit (ds := [.grey (BitVec.ofNat 3 i)])
        (s := { t with work := { t.work with k := BitVec.ofNat 3 i } }) hi hb (by simp [fitsMode, hg])
      simp only [runPasses] at hu
      obtain ⟨u', hu', e⟩ := andThen_eq_next.mp hu
      cases e
      obtain ⟨k1, k2, k3, k4, k5, k6, -⟩ := runPass_keeps hu'
      exact ⟨u, hu', by rw [k3]; exact hi, buffersSized_of_eq hb k2 k5 (by rw [k3]), by rw [k2]; exact hg⟩) ⟨hi, hb, hg⟩
  exact ⟨t, ht⟩

/-- REFRESH_GREY completes (R185). -/
theorem refreshGrey_total {s : State} (hi : s.flags.initialised = true) (hb : BuffersSized s)
    (hg : s.conf.grey = true) :
    ∃ t, refreshGrey s = .next t := by
  obtain ⟨b1, b2, b3, b4, b5, b6⟩ := begin_kept .fullGrey s
  have hb' := buffersSized_of_eq hb b2 b4 (by rw [b6])
  have hi' : (powerOn (beginSequence .fullGrey s)).flags.initialised = true := by rw [b6]; exact hi
  have hg' : (powerOn (beginSequence .fullGrey s)).conf.grey = true := by rw [b2]; exact hg
  generalize hv : powerOn (beginSequence .fullGrey s) = v at *
  obtain ⟨u, hu⟩ := runPasses_of_fit (ds := v.params.preludeGrey.map .const) (s := v) hi' hb'
    (fun d hd => constPasses_fit hd _)
  obtain ⟨k1, k2, k3, k4, k5, k6, -⟩ := runPasses_keeps hu
  obtain ⟨x, hx⟩ := greySubframes_total 8 0 u (by rw [k3]; exact hi') (buffersSized_of_eq hb' k2 k5 (by rw [k3]))
    (by rw [k2]; exact hg')
  obtain ⟨l1, l2, l3, l4, l5, -⟩ := greySubframes_keeps hx
  obtain ⟨y, hy⟩ := runPasses_of_fit (ds := [.const .discharge, .const .skip]) (s := x) (by rw [l3, k3]; exact hi')
    (buffersSized_of_eq hb' (l2.trans k2) (l5.trans k5) (by rw [l3, k3])) (by simp [fitsMode])
  rw [refreshGrey, if_pos hg]
  exact sequence_total ⟨_, by rw [hv]; simp only [hu, andThen_next, hx]; exact hy⟩

/-- CLEAN completes (R188). -/
theorem cleanBody_total {s : State} (hi : s.flags.initialised = true) (hb : BuffersSized s) : ∃ t, cleanBody s = .next
    t := by
  obtain ⟨b1, b2, b3, b4, b5, b6⟩ := begin_kept .clean s
  have hb' := buffersSized_of_eq hb b2 b4 (by rw [b6])
  have hi' : (powerOn (beginSequence .clean s)).flags.initialised = true := by rw [b6]; exact hi
  generalize hv : powerOn (beginSequence .clean s) = v at *
  obtain ⟨u, hu⟩ := runPasses_of_fit (ds := v.params.cleanSeq.map .const) (s := v) hi' hb'
    (fun d hd => constPasses_fit hd _)
  exact ⟨_, sequence_eq_next.mpr ⟨_, by rw [hv]; exact hu, rfl⟩⟩

end Sys2Proof.Machine
end

