-- ==== Sys2Proof/Laws/Swap.lean ====
section
/-! SUPPORT. The scan and the power operations commute with a change of buffers that keeps the words sent
  (R145, R151). -/

namespace Sys2Proof.Machine

/-- `s` with other buffers. -/
def withBuffers (b : Buffers) (s : State) : State := { s with bufs := b }

/-- An outcome with other buffers. -/
def mapBuffers (b : Buffers) : Result State → Result State
  | .next s => .next (withBuffers b s)
  | .fault e => .fault e
  | .refused e => .refused e

/-- Changing the buffers from `b` to `b'` keeps the words of a descriptor. -/
def SameWords (d : PassDesc) (b b' : Buffers) : Prop := ∀ k s, s.bufs = b → word d k (withBuffers b' s) = word d k s

/-- Loading a word. -/
theorem loadWord_withBuffers {d : PassDesc} {b b' : Buffers} (h : SameWords d b b') {r c : Nat} {s : State}
    (hs : s.bufs = b) :
    loadWord d (atWord r c (withBuffers b' s)) = mapBuffers b' (loadWord d (atWord r c s)) := by
  have e : word d (atWord r c (withBuffers b' s)).work.kw.toNat (atWord r c (withBuffers b' s)) = word d
    (atWord r c s).work.kw.toNat (atWord r c s) := h _ (atWord r c s) (by simpa using hs)
  rw [loadWord, e, loadWord]
  cases word d (atWord r c s).work.kw.toNat (atWord r c s) <;> rfl

/-- The micro-steps. -/
theorem vscanSteps_withBuffers (b' : Buffers) (q : List VStep) (s : State) : vscanSteps q (withBuffers b' s) =
    withBuffers b' (vscanSteps q s) := by
  induction q generalizing s with
  | nil => rfl
  | cons v q ih =>
    rw [vscanSteps, vscanSteps, ← ih]
    congr 1
    cases v <;> apply state_ext <;> simp [vscanStep, withBuffers]

/-- VSCAN_START. -/
theorem vscanStart_withBuffers (b' : Buffers) (s : State) : vscanStart (withBuffers b' s) = withBuffers b'
    (vscanStart s) := by
  have := vscanSteps_withBuffers b' s.params.vscanStartSeq (s.setPhase .vscanStart)
  show (vscanSteps s.params.vscanStartSeq (withBuffers b' (s.setPhase .vscanStart))).setPhase s.pos.phase = _
  rw [this]; rfl

/-- VSCAN_END. -/
theorem vscanEnd_withBuffers (b' : Buffers) (s : State) : vscanEnd (withBuffers b' s) = withBuffers b' (vscanEnd s) :=
    by
  apply state_ext <;> simp [vscanEnd, inPhase, vscanEndSteps, withBuffers]

/-- One row of a pass. -/
theorem passRow_withBuffers {d : PassDesc} {b b' : Buffers} (h : SameWords d b b') (r : Nat) {s : State}
    (hs : s.bufs = b) :
    passRow d r (withBuffers b' s) = mapBuffers b' (passRow d r s) := by
  have cols : ∀ n c (s : State), s.bufs = b → forUp (passCol d r) n c (withBuffers b' s) = mapBuffers b'
    (forUp (passCol d r) n c s) := by
    intro n
    induction n with
    | zero => intro c s hs; rfl
    | succ n ih =>
      intro c s hs
      rw [forUp_succ, forUp_succ]
      have e : passCol d r c (withBuffers b' s) = mapBuffers b' (passCol d r c s) := by
        rw [passCol, loadWord_withBuffers h hs, passCol]
        cases loadWord d (atWord r c s) <;> rfl
      rw [e]
      cases hp : passCol d r c s with
      | next t =>
        simp only [mapBuffers, andThen_next]
        apply ih
        obtain ⟨u, hu, hp⟩ := andThen_eq_next.mp hp
        cases hp
        obtain ⟨v, -, rfl⟩ := loadWord_eq_next.mp hu
        rw [(colWord_spec _).2.2.2.2.bufs]; simpa using hs
      | fault _ => rfl
      | refused _ => rfl
  rw [passRow, loadWord_withBuffers h hs, passRow]
  cases hl : loadWord d (atWord r 0 s) with
  | next t =>
    simp only [mapBuffers, andThen_next]
    obtain ⟨v, -, rfl⟩ := loadWord_eq_next.mp hl
    have e1 : ∀ t : State, hscanStart (withBuffers b' t) = withBuffers b' (hscanStart t) := fun t => rfl
    rw [e1, cols _ _ _ (by rw [(hscanStart_spec _).2.2.2.2.bufs]; simpa using hs)]
    have : (withBuffers b' s).wpr = s.wpr := rfl
    rw [this]
    cases forUp (passCol d r) (s.wpr - 1) 1 (hscanStart _) with
    | next t => simp only [mapBuffers, andThen_next, vscanEnd_withBuffers]
    | fault _ => rfl
    | refused _ => rfl
  | fault _ => rfl
  | refused _ => rfl

/-- A pass. -/
theorem runScan_withBuffers {d : PassDesc} {b b' : Buffers} (h : SameWords d b b') {s : State} (hs : s.bufs = b) :
    runScan d (withBuffers b' s) = mapBuffers b' (runScan d s) := by
  have rows : ∀ n c (s : State), s.bufs = b → forUp (passRow d) n c (withBuffers b' s) = mapBuffers b'
    (forUp (passRow d) n c s) := by
    intro n
    induction n with
    | zero => intro c s hs; rfl
    | succ n ih =>
      intro c s hs
      rw [forUp_succ, forUp_succ, passRow_withBuffers h c hs]
      cases hp : passRow d c s with
      | next t =>
        simp only [mapBuffers, andThen_next]
        apply ih
        have := forUp_rel (R := fun a b => b.bufs = a.bufs) (fun _ => rfl) (fun h k => k.trans h) (body := passRow d)
          (n := 1) (first := c) (s := s) (t := t) (by
          intro i a b h
          obtain ⟨u, hu, h⟩ := andThen_eq_next.mp h
          obtain ⟨x, hx, h⟩ := andThen_eq_next.mp h
          cases h
          rw [(vscanEnd_spec x).2.2.2.2.2.bufs]
          have := forUp_rel (R := fun a b => b.bufs = a.bufs) (fun _ => rfl) (fun h k => k.trans h) (by
            intro i a b h
            obtain ⟨u, hu, h⟩ := andThen_eq_next.mp h
            cases h
            obtain ⟨v, -, rfl⟩ := loadWord_eq_next.mp hu
            rw [(colWord_spec _).2.2.2.2.bufs]; rfl) hx
          rw [this, (hscanStart_spec _).2.2.2.2.bufs]
          obtain ⟨v, -, rfl⟩ := loadWord_eq_next.mp hu
          rfl) (by rw [forUp_succ, hp]; rfl)
        rw [this, hs]
      | fault _ => rfl
      | refused _ => rfl
  rw [runScan, runScan, vscanStart_withBuffers]
  exact rows _ _ _ (by rw [(vscanStart_spec s).2.2.2.2.bufs, hs])

/-- A list of passes. -/
theorem runPasses_withBuffers {ds : List PassDesc} {b b' : Buffers} (h : ∀ d ∈ ds, SameWords d b b') {s : State}
    (hs : s.bufs = b) :
    runPasses ds (withBuffers b' s) = mapBuffers b' (runPasses ds s) := by
  induction ds generalizing s with
  | nil => rfl
  | cons d ds ih =>
    rw [runPasses, runPasses, runPass, runPass, runScan_withBuffers (h d List.mem_cons_self) hs]
    cases hp : runScan d s with
    | next t =>
      simp only [mapBuffers, andThen_next]
      have e1 : bumpPassIdx (settle (withBuffers b' t)) = withBuffers b' (bumpPassIdx (settle t)) := rfl
      rw [e1]
      apply ih (fun d hd => h d (List.mem_cons_of_mem _ hd))
      have := (runScan_keeps hp).1.bufs
      simp [settle, inPhase, this, hs]
    | fault _ => rfl
    | refused _ => rfl

/-- The start of a sequence. -/
theorem powerOn_withBuffers (b' : Buffers) (q : Seq) (s : State) : powerOn (beginSequence q (withBuffers b' s)) =
    withBuffers b' (powerOn (beginSequence q s)) := by
  cases hp : s.flags.power with
  | true => simp [powerOn, hp, raise, withBuffers]; rfl
  | false =>
   have h2 : (beginSequence q s).flags.power = false := hp
   have h1 : (beginSequence q (withBuffers b' s)).flags.power = false := hp
   rw [powerOn, powerOn, if_neg (by rw [h1]; simp), if_neg (by rw [h2]; simp)]
   apply state_ext <;> simp [inPhase, powerOnSteps, withBuffers]

/-- The pins after POWER_OFF depend on the pins, `CFG`, the pin map and `POWER` alone (R112). -/
theorem powerOff_io_congr {s s' : State} (h : s'.io = s.io) (hc : s'.cfg = s.cfg) (hp : s'.params = s.params)
    (hf : s'.flags.power = s.flags.power) : (powerOff s').io = (powerOff s).io := by
  cases hpw : s.flags.power with
  | false => simp [powerOff, hpw, hf, raise, h]
  | true => simp [powerOff, hpw, hf, inPhase, powerOffSteps, h, hc, hp]

/-- COMMIT does not touch the pins (R169). -/
theorem runCommit_keeps {s t : State} (h : runCommit s = .next t) : t.io = s.io ∧ t.cfg = s.cfg ∧ t.params =
    s.params ∧ t.flags = s.flags := by
  obtain ⟨-, k, -⟩ := runCommit_frame h
  rw [k]; exact ⟨rfl, rfl, rfl, rfl⟩

end Sys2Proof.Machine
end

