-- ==== Sys2Proof/Tests/Slice0.lean ====
section
/-! SUPPORT. Tests of one step each, with values from 95_test_vectors.md, and a witness for every statement that has
hypotheses. -/

namespace Sys2Proof.Tests

open Sys2Proof Sys2Proof.Machine

-- One theorem at a time: each `decide +kernel` that waits for the kernel holds a thread of its own.
set_option Elab.async false

/-! ### States and checks -/

/-- Reset with REF and one pending input. -/
def withInput (i : Input) : State := { State.reset with port := [i] }

/-- 8 by 2 monochrome, `FUE` = 2, `BUF0 = FF FF`, `BUF1 = FF EF`, at a command boundary (V50). -/
def mono : State :=
  { State.reset with
    conf := { w := 8, h := 2, grey := false, partialEn := true, fue := 2 }
    flags := { initialised := true, failed := false, power := false, blockPartial := true }
    bufs :=
      { buf0 := [(0, 0xFF), (1, 0xFF)]
        buf1 := [(0, 0xFF), (1, 0xEF)]
        buf2 := [(0, 0x00), (1, 0x40), (2, 0x00), (3, 0x02)] }
    io := { Io.reset with srOut := 0x02 } }

/-- The same after a full refresh: partial refresh is not blocked. -/
def monoPartial : State := { mono with flags := { mono.flags with blockPartial := false } }

/-- The same with committed and pending equal. -/
def monoEqual : State := { mono with bufs := { mono.bufs with buf0 := mono.bufs.buf1 } }

/-- 4 by 2 greyscale, `BUF0 = 74 77 07 17` (V35, P2). -/
def grey : State :=
  { State.reset with
    conf := { w := 4, h := 2, grey := true, partialEn := false, fue := 0 }
    flags := { initialised := true, failed := false, power := false, blockPartial := true }
    bufs := { buf0 := [(0, 0x74), (1, 0x77), (2, 0x07), (3, 0x17)], buf1 := [], buf2 := [] }
    io := { Io.reset with srOut := 0x02 } }

/-- The power on, as POWER_ON leaves it (V11). -/
def powered (s : State) : State :=
  { s with
    cfg := 0x1C
    flags := { s.flags with power := true }
    io := { s.io with dir := .all .output, srOut := 0x1C } }

/-- The word index, the drive byte and the position of a word. -/
def atKw (kw : BitVec 32) (s : State) : State := { s with work := { s.work with kw := kw } }

def withDrv (d : Byte) (s : State) : State := { s with work := { s.work with drv := d } }

/-- A failed block (R201). -/
def failed : State :=
  { State.reset with flags := { initialised := false, failed := true, power := false, blockPartial := false } }

/-- 4 by 1 monochrome, the smallest panel, with partial refresh allowed. -/
def small : State :=
  { mono with
    conf := { w := 4, h := 1, grey := false, partialEn := true, fue := 1 }
    flags := { mono.flags with blockPartial := false }
    bufs := { buf0 := [(0, 0xFF)], buf1 := [(0, 0xEF)], buf2 := [(0, 0), (1, 0)] } }

/-- The outcome is a next state and `f` holds of it. -/
def check (r : Result State) (f : State → Bool) : Bool :=
  match r with
  | .next t => f t
  | .fault _ => false
  | .refused _ => false

theorem exists_of_check {r : Result State} (h : check r (fun _ => true) = true) : ∃ t, r = .next t := by
  cases r with
  | next t => exact ⟨t, rfl⟩
  | fault _ => cases h
  | refused _ => cases h

/-- The refusal of a step, if it is one. -/
def refusal (r : Result State) : Option Refusal :=
  match r with
  | .next _ => none
  | .fault _ => none
  | .refused e => some e

/-- The fault of a step, if it is one. -/
def faultOf (r : Result State) : Option Fault :=
  match r with
  | .next _ => none
  | .fault e => some e
  | .refused _ => none

/-- The events of a step from a state with an empty trace. -/
def events (r : Result State) : List Event :=
  match r with
  | .next t => t.io.trace
  | .fault _ => []
  | .refused _ => []

/-- The words a trace puts on the bus, the clock bit (bit 8 in REF) taken off (V20). -/
def busWords (l : List Event) : List PortWord :=
  l.filterMap fun e =>
    match e with
    | .portSet m => some (m &&& 0xFF)
    | .portClear _ => none
    | .pinConfigure _ => none
    | .pinDir _ _ => none
    | .pinWrite _ _ => none
    | .delayUnits _ => none
    | .delayUs _ => none

/-! ### Well-formedness (V03) and the parameters (R6) -/

/-- V03. -/
theorem test_wf_refuses_width_not_a_multiple_of_four : Instr.wellFormed (.init 6 2 false true 2) = false := by
  decide +kernel

/-- V03. -/
theorem test_wf_refuses_width_zero : Instr.wellFormed (.init 0 8 false true 2) = false := by
  decide +kernel

/-- V03. -/
theorem test_wf_refuses_height_zero : Instr.wellFormed (.init 8 0 false true 2) = false := by
  decide +kernel

/-- V03, R172. -/
theorem test_wf_admits_the_smallest_panel :
    Instr.wellFormed (.init 4 1 false true 2) = true ∧
    Instr.wellFormed (.setPixel (-1) 0 ⟨0, 0, 0, true⟩) = true := by
  decide +kernel

/-- REF meets the constraints of R6. -/
theorem test_ref_is_valid : Config.ref.valid = true := by
  decide +kernel

/-- `PRELUDE_MONO` has eight passes, none of them SKIP (R183). -/
theorem test_config_prelude_mono : ({ Config.ref with preludeMono := [.white] } : Config).valid = false ∧
    ({ Config.ref with preludeMono := [.white, .black, .discharge, .white, .black, .discharge, .white, .skip] } :
      Config).valid = false := by
  decide +kernel

/-- R185. -/
theorem test_config_prelude_grey :
    ({ Config.ref with preludeGrey := [.skip] } : Config).valid = false ∧
    ({ Config.ref with preludeGrey := [] } : Config).valid = true := by
  decide +kernel

/-- R20, R188. -/
theorem test_config_pass_lists_fit_passIdx :
    ({ Config.ref with preludeGrey := List.replicate 246 .white } : Config).valid = false ∧
    ({ Config.ref with cleanSeq := List.replicate 256 .white } : Config).valid = false ∧
    ({ Config.ref with cleanSeq := List.replicate 255 .skip } : Config).valid = true := by
  decide +kernel

/-- R77: the map is injective. -/
theorem test_config_pinmap :
    ({ Config.ref with pinmap := { Config.ref.pinmap with clk := 7 } } : Config).valid = false := by
  decide +kernel

/-- R6. -/
theorem test_config_positive :
    ({ Config.ref with cyclesPerUnit := 0 } : Config).valid = false ∧
    ({ Config.ref with tVsUs := 0 } : Config).valid = false := by
  decide +kernel

/-- R122 (b), (c). -/
theorem test_config_vscan :
    ({ Config.ref with vscanStartSeq := [.bit false, .line false, .line true] } : Config).valid = false ∧
    ({ Config.ref with vscanStartSeq := [.line false, .line true, .bit true] } : Config).valid = false ∧
    ({ Config.ref with vscanStartSeq := [.bit false, .line true, .bit true] } : Config).valid = false := by
  decide +kernel

/-- R6, R231. -/
theorem test_config_cfgReset :
    ({ Config.ref with cfgReset := 0x00 } : Config).valid = false ∧
    ({ Config.ref with cfgReset := 0x06 } : Config).valid = false ∧
    ({ Config.ref with cfgReset := 0x0A } : Config).valid = false ∧
    ({ Config.ref with cfgReset := 0x12 } : Config).valid = false ∧
    ({ Config.ref with cfgReset := 0xC2 } : Config).valid = true := by
  decide +kernel

/-- R75, R204. -/
theorem test_config_invalid_is_refused :
    refusal (step (State.resetWith { Config.ref with tVsUs := 0 })) = some .invalidConfiguration := by
  decide +kernel

/-! ### Decoding: words written out from R61 to R65, R74, R76 (V01, V02) -/

/-- V01. -/
theorem test_decode_init : (decode (.command 0x110320025800000A)).toOption = some (.init 800 600 false true 10) := by
  decide +kernel

/-- V01. -/
theorem test_decode_init_grey :
    (decode (.command 0x1203200258000000)).toOption = some (.init 800 600 true false 0) := by
  decide +kernel

/-- V01. -/
theorem test_decode_setPixel :
    (decode (.command 0x2100070001000000)).toOption = some (.setPixel 7 1 ⟨0, 0, 0, true⟩) := by
  decide +kernel

/-- V01. -/
theorem test_decode_setPixel_signed :
    (decode (.command 0x2100008000000000)).toOption = some (.setPixel 0 (-32768) ⟨0, 0, 0, true⟩) := by
  decide +kernel

/-- V01. -/
theorem test_decode_fill : (decode (.command 0x3000000000808080)).toOption = some (.fill ⟨128, 128, 128, false⟩) := by
  decide +kernel

/-- V01. -/
theorem test_decode_clean : (decode (.command 0x4000000000000000)).toOption = some (.clean) := by
  decide +kernel

/-- V01. -/
theorem test_decode_refresh : (decode (.command 0x5000000000000000)).toOption = some (.refresh) := by
  decide +kernel

/-- R74. -/
theorem test_decode_passConstWhite : (decode (.descriptor 0b00000000)).toOption = some (.passConstWhite) := by
  decide +kernel

/-- R74. -/
theorem test_decode_passConstBlack : (decode (.descriptor 0b00000001)).toOption = some (.passConstBlack) := by
  decide +kernel

/-- R74. -/
theorem test_decode_passConstDischarge : (decode (.descriptor 0b00000010)).toOption = some (.passConstDischarge) := by
  decide +kernel

/-- R74. -/
theorem test_decode_passConstSkip : (decode (.descriptor 0b00000011)).toOption = some (.passConstSkip) := by
  decide +kernel

/-- R74. -/
theorem test_decode_passMonoLutb : (decode (.descriptor 0b01000000)).toOption = some (.passMonoLutb) := by
  decide +kernel

/-- R74. -/
theorem test_decode_passMonoLut2 : (decode (.descriptor 0b01000001)).toOption = some (.passMonoLut2) := by
  decide +kernel

/-- R74. -/
theorem test_decode_passDiff : (decode (.descriptor 0b10000000)).toOption = some (.passDiff) := by
  decide +kernel

/-- R74. -/
theorem test_decode_passGrey : (decode (.descriptor 0b11011000)).toOption = some (.passGrey 3) := by
  decide +kernel

/-- R76. -/
theorem test_decode_idle : (decode (.phase 0b00000)).toOption = some (.idle) := by
  decide +kernel

/-- R76. -/
theorem test_decode_vscanStart : (decode (.phase 0b00001)).toOption = some (.vscanStart) := by
  decide +kernel

/-- R76. -/
theorem test_decode_hscanStart : (decode (.phase 0b00010)).toOption = some (.hscanStart) := by
  decide +kernel

/-- R76. -/
theorem test_decode_colWord : (decode (.phase 0b00011)).toOption = some (.colWord) := by
  decide +kernel

/-- R76. -/
theorem test_decode_vscanEnd : (decode (.phase 0b00100)).toOption = some (.vscanEnd) := by
  decide +kernel

/-- R76. -/
theorem test_decode_settle : (decode (.phase 0b00101)).toOption = some (.settle) := by
  decide +kernel

/-- R76. -/
theorem test_decode_cfgPush : (decode (.phase 0b01000)).toOption = some (.cfgPush) := by
  decide +kernel

/-- R76. -/
theorem test_decode_powerOn : (decode (.phase 0b01001)).toOption = some (.powerOn) := by
  decide +kernel

/-- R76. -/
theorem test_decode_powerOff : (decode (.phase 0b01010)).toOption = some (.powerOff) := by
  decide +kernel

/-- R76. -/
theorem test_decode_diff : (decode (.phase 0b01100)).toOption = some (.diff) := by
  decide +kernel

/-- R76. -/
theorem test_decode_commit : (decode (.phase 0b01101)).toOption = some (.commit) := by
  decide +kernel

/-- V02: reserved operations and reserved bits. -/
theorem test_decode_refuses_reserved_words :
    ([0x0000000000000000, 0x6000000000000000, 0xF000000000000000, 0x5000000000000001, 0x1100080002010002,
      0x3100000100000000, 0x2200000000000000] : List CommandWord).all
      (fun w => (decode (.command w)).toOption.isNone) = true := by
  decide +kernel

/-- R75, R76: a reserved `sel`, a reserved `k`, and the unused codes. -/
theorem test_decode_refuses_reserved_codes :
    (∀ d ∈ [(0x04 : Byte), 0x08, 0x42, 0x48, 0x81, 0x88, 0xC1], (decode (.descriptor d)).toOption = none) ∧
    ∀ c ∈ [(0x06 : BitVec 5), 0x07, 0x0B, 0x0E, 0x1F], (decode (.phase c)).toOption = none := by
  decide +kernel

theorem test_tableWord :
    decodeTableWord 64 0x4000000000000000 = some .clean ∧ decodeTableWord 8 0x41 = some .passMonoLut2 ∧
      decodeTableWord 8 0x0C = some .diff ∧ decodeTableWord 5 0x01 = some .vscanStart ∧ decodeTableWord 0 0 = none := by
  decide +kernel

/-! ### One step of each instruction -/

/-- V42. -/
theorem test_step_runs_the_placed_word :
    check (step (mono.withFetchWord 64 0x3000000000FFFFFF)) (fun t => decide
      (t.bufs.buf1 = [(0, 0xFF), (1, 0xFF)] ∧ t.port = [])) = true := by
  decide +kernel

/-- V40, V04. -/
theorem test_init_events :
    events (step (State.reset.withFetchWord 64 0x1100080002000002)) = initEvents 0x02 ∧
    (initEvents 0x02).length = 57 ∧
    check (step (State.reset.withFetchWord 64 0x1100080002000002))
      (fun t => decide (t.status = 0x9 ∧ t.conf = ⟨8, 2, false, true, 2⟩ ∧ t.bufs.buf2.offsets = [0, 1, 2, 3])) =
      true := by
  decide +kernel

/-- P5, V03. -/
theorem test_init_fails :
    check (exec (.init 2048 2048 false true 2) mono) (fun t => decide
      (t.status = 0xA ∧ t.bufs.buf0 = [] ∧ t.conf.w = 8)) = true ∧
    refusal (exec (.init 6 2 false true 2) State.reset) = some .geometryNotAdmitted := by
  decide +kernel

/-- V41. -/
theorem test_setPixel_mono :
    check (exec (.setPixel 0 0 ⟨0, 0, 0, true⟩) mono) (fun t => decide (t.bufs.buf1 = [(0, 0x7F), (1, 0xEF)])) = true ∧
    check (exec (.setPixel 3 1 ⟨255, 255, 255, false⟩) mono) (fun t => decide (t.bufs.buf1 = [(0, 0xFF), (1, 0xFF)]))
      = true := by
  decide +kernel

/-- V41. -/
theorem test_setPixel_grey :
    check (exec (.setPixel 0 0 ⟨32, 32, 32, false⟩) { grey with bufs :=
      { grey.bufs with buf0 := [(0, 0xFC), (1, 0), (2, 0), (3, 0)] } }) (fun t => decide (t.bufs.buf0 =
      [(0, 0x1C), (1, 0), (2, 0), (3, 0)])) = true ∧
    check (exec (.setPixel 2 1 ⟨255, 0, 0, false⟩) grey) (fun t => decide
      (t.bufs.buf0 = [(0, 0x74), (1, 0x77), (2, 0x07), (3, 0x17)])) = true := by
  decide +kernel

/-- V42. -/
theorem test_fill_grey :
    check (exec (.fill ⟨128, 128, 128, false⟩) grey) (fun t => decide
      (t.bufs.buf0 = [(0, 0x44), (1, 0x44), (2, 0x44), (3, 0x44)])) = true := by
  decide +kernel

/-- V42. -/
theorem test_fill_mono :
    check (exec (.fill ⟨0, 0, 0, true⟩) mono) (fun t => decide
      (t.bufs.buf1 = [(0, 0), (1, 0)] ∧ t.bufs.buf0 = mono.bufs.buf0)) = true := by
  decide +kernel

/-- R44: pending and committed image of one pixel, off the panel, and two grey levels (V35). -/
theorem test_pixelAt :
    (pixelAt .buf1 mono 3 1, pixelAt .buf0 mono 3 1, pixelAt .buf1 mono 8 0) = (some .on, some .off, none) ∧
    (pixelAt .buf0 grey 0 0, pixelAt .buf0 grey 1 0, pixelAt .buf1 grey 0 0) =
      (some (.level 7), some (.level 4), none) := by
  decide +kernel

/-- R232: a reset after a POWER_ON stepped alone is refused. -/
theorem test_reset_with_power_on_refused :
    refusal (step { powered mono with port := [.reset] }) = some .resetWithPowerOn ∧
    check (step { mono with port := [.reset] }) (fun t => decide (t.status = 0 ∧ t.bufs.buf1 = [])) = true := by
  decide +kernel

/-- V43. -/
theorem test_greyOf :
    (greyOf ⟨31, 31, 31, false⟩, greyOf ⟨128, 128, 128, false⟩, greyOf ⟨0, 255, 0, false⟩, greyOf
      ⟨255, 255, 0, false⟩) = (0, 4, 5, 7) := by
  decide +kernel

/-- P4, V6x. -/
theorem test_clean :
    check (exec .clean mono) (fun t => decide (t.io.trace.length = 1298 ∧ t.status = 0x9 ∧ t.cfg = 0x02 ∧ t.bufs =
      mono.bufs)) = true := by
  decide +kernel

/-- P1, step 4. -/
theorem test_refresh_full :
    check (exec .refresh mono) (fun t => decide (t.io.trace.length = 2537 ∧ t.status = 0x1 ∧ t.bufs.buf0 =
      [(0, 0xFF), (1, 0xEF)])) = true := by
  decide +kernel

/-- V04, V6x. -/
theorem test_refresh_partial :
    check (exec .refresh { monoPartial with puc := 1 }) (fun t => decide (t.io.trace.length = 1652 ∧ t.status = 0x29))
      = true := by
  decide +kernel

/-- V45. -/
theorem test_refresh_refused_before_init :
    refusal (exec .refresh State.reset) = some .notInitialised ∧
    check (exec .refresh failed) (fun t => decide (t = failed)) = true := by
  decide +kernel

/-- R30, V12: after POWER_ON the lines present their latches; after POWER_OFF they are high-impedance. -/
theorem test_level :
    check (exec .powerOn (mono.pinWrite .sofLine true)) (fun t => decide
      (t.io.level .sofLine = some true ∧ t.io.level .d0 = some false)) = true ∧
    check (exec .powerOff ((powered mono).pinWrite .sofLine true)) (fun t => decide
      (t.io.level .sofLine = none ∧ t.io.latch.get .sofLine = true)) = true := by
  decide +kernel

/-- V33. -/
theorem test_passConstWhite :
    check (exec .passConstWhite (withDrv 0x33 grey)) (fun t => decide (t.work.drv = 0xAA)) = true := by
  decide +kernel

/-- V33. -/
theorem test_passConstBlack :
    check (exec .passConstBlack (withDrv 0x33 grey)) (fun t => decide (t.work.drv = 0x55)) = true := by
  decide +kernel

/-- V33. -/
theorem test_passConstDischarge :
    check (exec .passConstDischarge (withDrv 0x33 grey)) (fun t => decide (t.work.drv = 0x00)) = true := by
  decide +kernel

/-- V33. -/
theorem test_passConstSkip :
    check (exec .passConstSkip (withDrv 0x33 grey)) (fun t => decide (t.work.drv = 0xFF)) = true := by
  decide +kernel

/-- V30, V31. -/
theorem test_passMonoLutb :
    check (exec (.passMonoLutb) (atKw 0 mono)) (fun t => decide (t.work.drv = 0xA9)) = true ∧
    check (exec (.passMonoLutb) (atKw 3 mono)) (fun t => decide (t.work.drv = 0xAA)) = true := by
  decide +kernel

/-- V32. -/
theorem test_passMonoLut2 :
    check (exec (.passMonoLut2) (atKw 0 mono)) (fun t => decide (t.work.drv = 0xFD)) = true ∧
    check (exec (.passMonoLut2) (atKw 1 mono)) (fun t => decide (t.work.drv = 0xFF)) = true := by
  decide +kernel

/-- V34. -/
theorem test_passDiff :
    check (exec (.passDiff) (atKw 0 mono)) (fun t => decide (t.work.drv = 0x02)) = true ∧
    check (exec (.passDiff) (atKw 2 mono)) (fun t => decide (t.work.drv = 0x40)) = true := by
  decide +kernel

/-- V35. -/
theorem test_passGrey :
    check (exec (.passGrey 0) (atKw 0 grey)) (fun t => decide (t.work.drv = 0xA2)) = true ∧
    check (exec (.passGrey 4) (atKw 1 grey)) (fun t => decide (t.work.drv = 0xA8)) = true := by
  decide +kernel

/-- V36. -/
theorem test_passGrey_ignores_bit_3 :
    check (exec (.passGrey 3) { grey with conf := { grey.conf with h := 1 }, bufs :=
      { grey.bufs with buf0 := [(0, 0xFC), (1, 0x8B)] } }) (fun t => decide (t.work.drv = 0x0A)) = true := by
  decide +kernel

/-- The precondition of R145; the padding nibble past `H * WPR` (log entry 14). -/
theorem test_word_past_the_end :
    faultOf (exec .passMonoLutb (atKw 4 mono)) = some (.scanPastEnd .buf1 2) ∧
    refusal (exec .passDiff grey) = some .wrongPixelMode ∧
    check (exec .passMonoLutb (atKw 1 small)) (fun t => decide (t.work.drv = 0xAA)) = true := by
  decide +kernel

/-- R20. -/
theorem test_idle : check (exec .idle (mono.setPhase .settle)) (fun t => decide (t = mono)) = true := by
  decide +kernel

/-- V13. -/
theorem test_vscanStart :
    events (exec .vscanStart (powered mono)) = pushEvents 0x0C ++
      [.delayUs 5, .pinWrite .sofLine false, .delayUs 5, .pinWrite .sofLine true, .delayUs 5] ++ pushEvents 0x1C ++
      [.delayUs 5] := by
  decide +kernel

/-- V15. -/
theorem test_hscanStart :
    events (exec .hscanStart (withDrv 0xA5 (powered mono))) =
      [.pinWrite .srcEn false, .portSet 0x1A5, .portClear 0x1FF, .pinWrite .srcEn true] := by
  decide +kernel

/-- V15. -/
theorem test_colWord :
    events (exec .colWord (withDrv 0x55 (powered mono))) = [.portSet 0x155, .portClear 0x1FF] ∧
    check (exec .colWord (withDrv 0xFF (powered mono))) (fun t => t.io.latch.get .d7 == false && t.io.latch.get .clk
      == false) = true := by
  decide +kernel

/-- V14. -/
theorem test_vscanEnd :
    events (exec .vscanEnd (powered mono)) = pushEvents 0x1D ++ pushEvents 0x1C ++ [.pinWrite .sofLine true] := by
  decide +kernel

/-- R181. -/
theorem test_settle : events (exec .settle mono) = [.delayUs 230] := by
  decide +kernel

/-- V10. -/
theorem test_cfgPush : events (exec .cfgPush mono) = [.pinWrite .cfgStr false,
    .pinWrite .cfgClk false, .pinWrite .cfgData false, .pinWrite .cfgClk true,
    .pinWrite .cfgClk false, .pinWrite .cfgData false, .pinWrite .cfgClk true,
    .pinWrite .cfgClk false, .pinWrite .cfgData false, .pinWrite .cfgClk true,
    .pinWrite .cfgClk false, .pinWrite .cfgData false, .pinWrite .cfgClk true,
    .pinWrite .cfgClk false, .pinWrite .cfgData false, .pinWrite .cfgClk true,
    .pinWrite .cfgClk false, .pinWrite .cfgData false, .pinWrite .cfgClk true,
    .pinWrite .cfgClk false, .pinWrite .cfgData true, .pinWrite .cfgClk true,
    .pinWrite .cfgClk false, .pinWrite .cfgData false, .pinWrite .cfgClk true, .pinWrite .cfgStr true] := by
  decide +kernel

/-- V10, R33. -/
theorem test_cfgPush_external_register :
    check (exec .cfgPush { mono with cfg := 0x1D }) (fun t => t.io.srOut == 0x1D && t.io.latch.get .cfgData) = true :=
      by
  decide +kernel

/-- V11. -/
theorem test_powerOn :
    events (exec .powerOn mono) = panelFacing.map (fun l => Event.pinDir l .output) ++ pushEvents 0x00 ++
    [.delayUnits 100] ++ pushEvents 0x08 ++ [.delayUnits 500] ++ pushEvents 0x0C ++ [.delayUnits 100] ++ pushEvents
      0x1C ∧
    check (exec .powerOn mono) (fun t => t.cfg == 0x1C && t.flags.power) = true := by
  decide +kernel

/-- V11. -/
theorem test_powerOn_keeps_mode_and_oe :
    check (exec .powerOn { mono with cfg := 0xC2 }) (fun t => t.cfg == 0xDC) = true ∧
    check (exec .powerOn (powered mono)) (fun t => decide (t = powered mono)) = true := by
  decide +kernel

/-- V12. -/
theorem test_powerOff :
    events (exec .powerOff (powered mono)) = pushEvents 0x18 ++ [.delayUnits 10] ++ pushEvents 0x10 ++
      [.delayUnits 100] ++
    pushEvents 0x12 ++ pushEvents 0x02 ++ [.portClear 0x1FF] ++ panelFacing.map (fun l => Event.pinDir l .input) ∧
    check (exec .powerOff (powered mono)) (fun t => t.cfg == 0x02 && !t.flags.power) = true := by
  decide +kernel

/-- V12. -/
theorem test_powerOff_reentry : check (exec .powerOff mono) (fun t => decide (t = mono)) = true := by
  decide +kernel

/-- V50. -/
theorem test_diff :
    check (exec .diff mono) (fun t => decide (t.bufs.buf2 = [(0, 0x00), (1, 0x00), (2, 0x00), (3, 0x01)])) = true := by
  decide +kernel

/-- V53. -/
theorem test_diff_both_directions :
    check (exec .diff { mono with bufs := { mono.bufs with buf0 := [(0, 0xA5), (1, 0xFF)], buf1 :=
      [(0, 0x3C), (1, 0xFF)] } }) (fun t => decide (t.bufs.buf2 = [(0, 0x81), (1, 0x42), (2, 0x00),
      (3, 0x00)])) = true := by
  decide +kernel

/-- V54. -/
theorem test_commit :
    check (exec .commit mono) (fun t => decide (t.bufs.buf0 = [(0, 0xFF), (1, 0xEF)] ∧ t.bufs.buf1 = mono.bufs.buf1 ∧
      t.io = mono.io)) = true := by
  decide +kernel

/-- V20. -/
theorem test_pass : busWords (events (exec (.pass .monoLutb) (powered mono))) = [0xA9, 0xAA, 0xAA, 0xAA] ∧
    (events (exec (.pass .monoLutb) (powered mono))).length = 176 ∧
    (events (exec (.pass .monoLutb) (powered mono))).drop 58 =
      [.pinWrite .srcEn false, .portSet 0x1A9, .portClear 0x1FF, .pinWrite .srcEn true, .portSet 0x1AA, .portClear
        0x1FF] ++
      pushEvents 0x1D ++ pushEvents 0x1C ++ [.pinWrite .sofLine true] ++
      [.pinWrite .srcEn false, .portSet 0x1AA, .portClear 0x1FF, .pinWrite .srcEn true, .portSet 0x1AA, .portClear
        0x1FF] ++
      pushEvents 0x1D ++ pushEvents 0x1C ++ [.pinWrite .sofLine true] := by
  decide +kernel

/-- V20: no COL_WORD, the padding nibble is not scanned. -/
theorem test_pass_smallest :
    (events (exec (.pass .monoLutb) (powered small))).length = 115 ∧
    busWords (events (exec (.pass .monoLutb) (powered small))) = [0xA9] := by
  decide +kernel

/-- P2, V35. -/
theorem test_runPass :
    check (exec (.runPass (.grey 3)) (powered grey)) (fun t => decide (t.io.trace.length = 173 ∧ t.pos.passIdx = 1) &&
      decide (busWords t.io.trace = [0x22, 0xAA])) = true := by
  decide +kernel

/-- P1, step 4. -/
theorem test_refreshFullMono : busWords (events (exec .refreshFullMono mono)) =
    [0xAA, 0xAA, 0xAA, 0xAA, 0x55, 0x55, 0x55, 0x55, 0, 0, 0, 0, 0xAA, 0xAA, 0xAA, 0xAA, 0x55, 0x55, 0x55, 0x55, 0, 0,
      0, 0,
      0xAA, 0xAA, 0xAA, 0xAA, 0x55, 0x55, 0x55, 0x55, 0xA9, 0xAA, 0xAA, 0xAA, 0xA9, 0xAA, 0xAA, 0xAA, 0xA9, 0xAA,
        0xAA, 0xAA,
      0xFD, 0xFF, 0xFF, 0xFF, 0, 0, 0, 0] := by
  decide +kernel

/-- P1, step 7. -/
theorem test_refreshPartial :
    busWords (events (exec .refreshPartial { monoPartial with bufs :=
      { monoPartial.bufs with buf0 := [(0, 0xFF), (1, 0xEF)], buf1 := [(0, 0x7F), (1, 0xFF)] } })) =
    [0x02, 0x00, 0x40, 0x00, 0x02, 0x00, 0x40, 0x00, 0x02, 0x00, 0x40, 0x00, 0x02, 0x00, 0x40, 0x00, 0x02, 0x00, 0x40,
      0x00,
      0, 0, 0, 0, 0, 0, 0, 0, 0xFF, 0xFF, 0xFF, 0xFF] := by
  decide +kernel

/-- The precondition of R184. -/
theorem test_refreshPartial_refused : refusal (exec .refreshPartial mono) = some .partialNotAllowed := by
  decide +kernel

/-- P2, step 6. -/
theorem test_refreshGrey : busWords (events (exec .refreshGrey grey)) =
    [0xAA, 0xAA, 0x55, 0x55, 0, 0, 0xAA, 0xAA, 0x55, 0x55, 0, 0, 0xAA, 0xAA, 0x55, 0x55, 0xA2, 0xAA, 0x22, 0xAA, 0x22,
      0xAA,
      0x22, 0xAA, 0x22, 0xA8, 0x22, 0xA8, 0x22, 0xA8, 0, 0, 0, 0, 0xFF, 0xFF] ∧
    (events (exec .refreshGrey grey)).length = 3350 := by
  decide +kernel

/-! ### Witnesses: states and operands that meet the hypotheses of the statements -/

theorem witness_encode : encode (.init 8 2 false true 2) = some (.command 0x1100080002000002) := by
  decide +kernel

theorem witness_decode : decode (.command 0x1100080002000002) = .ok (.init 8 2 false true 2) := by
  rfl

/-- UnmatchedCommandWordIsRefused: REFRESH with a reserved bit set (V02). -/
theorem witness_unmatched :
    (withInput (.code (.command 0x5000000000000001))).params.valid = true ∧
      (withInput (.code (.command 0x5000000000000001))).port = [.code (.command 0x5000000000000001)] ∧
      ∀ row ∈ commandRows, (0x5000000000000001 : CommandWord) &&& row.2 ≠ row.1 := by
  refine ⟨by decide +kernel, rfl, fun row h => ?_⟩
  simp only [commandRows, List.mem_cons, List.not_mem_nil, or_false] at h
  obtain rfl | rfl | rfl | rfl | rfl := h <;> decide +kernel

/-- StepRunsTheDecodedInstruction: a command word, a pass descriptor and a `PHASE` code. -/
theorem witness_stepRuns :
    (∀ i, (withInput i).params.valid = true ∧ (withInput i).port = [i]) ∧
      decode (.command 0x1100080002000002) = .ok (.init 8 2 false true 2) ∧
      decode (.descriptor 0x41) = .ok .passMonoLut2 ∧ decode (.phase 0x08) = .ok .cfgPush :=
  ⟨fun _ => ⟨test_ref_is_valid, rfl⟩, rfl, rfl, rfl⟩

/-- StepIdlesWithoutInput. -/
theorem witness_stepIdles : State.reset.params.valid = true ∧ State.reset.port = [] := by
  decide +kernel

/-- ResetEventGivesResetValues: with `POWER` = OFF and with `POWER` = ON. -/
theorem witness_resetEvent :
    (withInput .reset).params.valid = true ∧ (withInput .reset).port = [.reset] ∧
      (withInput .reset).flags.power = false ∧ { powered mono with port := [.reset] }.params.valid = true ∧ (powered mono).flags.power = true := by
  decide +kernel

/-- ResetMeetsTheInvariants with `LE` = 0 and with `LE` = 1 in `CFG_RESET`, and the first part of CommandBoundaryKept. -/
theorem witness_resetWith :
    Config.ref.valid = true ∧ cfgGet .le Config.ref.cfgReset = false ∧
      ({ Config.ref with cfgReset := 0x03 } : Config).valid = true := by
  decide +kernel

/-- The second part of CommandBoundaryKept: an initialised block about to take a FILL. -/
def monoFill : State := mono.withFetchWord 64 0x3000000000FFFFFF

theorem witness_hostBoundary : HostBoundary monoFill ∧ ∃ t, step monoFill = .next t := by
  refine ⟨?_, exists_of_check (by decide +kernel)⟩
  unfold HostBoundary AtBoundary
  decide +kernel

/-- The invariants of one state: BuffersKeepTheirSizes, MemoryStaysCanonical, ParametersNeverWritten,
ShiftRegisterMirrorsCfg, DataAndClockLowBetweenWords, PartialCountNeverExceedsFue, HostStepsNeverFault. -/
theorem witness_invariants :
    BuffersSized monoFill ∧ monoFill.bufs.wf = true ∧ MirrorHeld monoFill ∧ monoFill.flags.initialised = true ∧
      DataLinesLow monoFill ∧ CounterBounded monoFill ∧ 0 < monoFill.conf.fue.toNat ∧ monoFill.hostDriven = true ∧
      ∃ t, step monoFill = .next t := by
  refine ⟨?_, ?_, ?_, ?_, ?_, ?_, ?_, ?_, exists_of_check (by decide +kernel)⟩
  · unfold BuffersSized
    decide +kernel
  · decide +kernel
  · unfold MirrorHeld
    decide +kernel
  · decide +kernel
  · unfold DataLinesLow
    decide +kernel
  · unfold CounterBounded
    decide +kernel
  · decide +kernel
  · decide +kernel

/-- The counter at its bound: `PUC = FUE` with the flag set meets `CounterBounded`, and without it does not. -/
theorem witness_counterBounded :
    CounterBounded { mono with puc := 2 } ∧ ¬ CounterBounded { monoPartial with puc := 2 } ∧
      ¬ CounterBounded { mono with puc := 3 } := by
  unfold CounterBounded
  decide +kernel

/-- ModeAndOutputEnableNeverWritten, OnlyInitWritesConfiguration, TraceOnlyGrows, SequenceFrame for REFRESH. -/
theorem witness_exec_powerOn : ∃ t, exec .powerOn mono = .next t :=
  exists_of_check (by decide +kernel)

/-- FailureLeftOnlyByReset: a failed block takes a command, or a reset. -/
theorem witness_failed :
    failed.flags.failed = true ∧ (∃ t, step (failed.withFetchWord 64 0x5000000000000000) = .next t) ∧
      ∃ t, step { failed with port := [.reset] } = .next t :=
  ⟨by decide +kernel, exists_of_check (by decide +kernel), exists_of_check (by decide +kernel)⟩

/-- CommonPrecondition: failed, and neither failed nor initialised. -/
theorem witness_commonPrecondition :
    hostCommands .refresh ∧ failed.flags.failed = true ∧ State.reset.flags.failed = false ∧
      State.reset.flags.initialised = false ∧ ∀ w h g p fue, Instr.refresh ≠ .init w h g p fue :=
  ⟨.inr (.inr (.inr (.inr rfl))), by decide +kernel, by decide +kernel, by decide +kernel, by simp⟩

/-- InitAllocatesAndConfigures: the smallest panel from reset, another geometry, and a need equal to the capacity
  (P5). -/
theorem witness_initAllocates :
    State.reset.flags.failed = false ∧ State.reset.flags.initialised = false ∧
      (4 : BitVec 16).toNat % 4 = 0 ∧ 4 ≤ (4 : BitVec 16).toNat ∧ 1 ≤ (1 : BitVec 16).toNat ∧
      need 4 1 false ≤ State.reset.params.fbCapacity ∧ need 1024 512 false = State.reset.params.fbCapacity ∧
      mono.flags.failed = false ∧ ¬(mono.conf.w = 8 ∧ mono.conf.h = 2 ∧ mono.conf.grey = true) ∧
      need 8 2 true ≤ mono.params.fbCapacity := by
  decide +kernel

/-- InitSameGeometryKeepsBuffers. -/
theorem witness_initSame :
    mono.flags.failed = false ∧ (8 : BitVec 16).toNat % 4 = 0 ∧ 4 ≤ (8 : BitVec 16).toNat ∧ 1 ≤ (2 : BitVec 16).toNat ∧
      mono.flags.initialised = true ∧ mono.conf.w = 8 ∧ mono.conf.h = 2 ∧ mono.conf.grey = false := by
  decide +kernel

/-- AllocationFailureEntry: the first row of P5 that fails. -/
theorem witness_allocationFailure :
    mono.flags.failed = false ∧ (1024 : BitVec 16).toNat % 4 = 0 ∧ 4 ≤ (1024 : BitVec 16).toNat ∧
      1 ≤ (516 : BitVec 16).toNat ∧
      ¬(mono.flags.initialised = true ∧ mono.conf.w = 1024 ∧ mono.conf.h = 516 ∧ mono.conf.grey = false) ∧
      mono.params.fbCapacity < need 1024 516 false ∧ hostCommands .clean :=
  ⟨by decide +kernel, by decide +kernel, by decide +kernel, by decide +kernel, by decide +kernel, by decide +kernel,
    .inr (.inr (.inr (.inl rfl)))⟩

/-- InitRefusesOtherGeometries: each side of the equivalence. -/
theorem witness_initRefuses :
    mono.flags.failed = false ∧ ¬((6 : BitVec 16).toNat % 4 = 0 ∧ 4 ≤ (6 : BitVec 16).toNat ∧ 1 ≤
      (2 : BitVec 16).toNat) ∧
      ((4 : BitVec 16).toNat % 4 = 0 ∧ 4 ≤ (4 : BitVec 16).toNat ∧ 1 ≤ (1 : BitVec 16).toNat) := by
  decide +kernel

/-- A ready monochrome block: FillWritesEveryByte, FilledImageReadsBack, CommitCopiesPending, RefreshDispatch (full). -/
theorem mono_ready : Ready mono ∧ BuffersSized mono ∧ mono.conf.grey = false := by
  unfold Ready BuffersSized
  decide +kernel

/-- A ready greyscale block: FillWritesEveryByte, FilledImageReadsBack, RefreshDispatch (greyscale). -/
theorem grey_ready : Ready grey ∧ BuffersSized grey ∧ grey.conf.grey = true := by
  unfold Ready BuffersSized
  decide +kernel

/-- SetPixelWritesItsByte and SetPixelReadsBack: the first and the last pixel, in both modes, another pixel, and the grey
levels of two colours (R166's examples), which FillWritesEveryByte and FilledImageReadsBack take too. -/
theorem witness_setPixel :
    (Ready mono ∧ BuffersSized mono ∧ mono.conf.grey = false) ∧
    (Ready grey ∧ BuffersSized grey ∧ grey.conf.grey = true) ∧
      0 ≤ (0 : BitVec 16).toInt ∧ (0 : BitVec 16).toInt < mono.conf.w.toNat ∧ (7 : BitVec 16).toInt < mono.conf.w.toNat ∧
      (1 : BitVec 16).toInt < mono.conf.h.toNat ∧
      (15 : Nat) = (1 : BitVec 16).toInt.toNat * mono.conf.w.toNat + (7 : BitVec 16).toInt.toNat ∧
      (3 : BitVec 16).toInt < grey.conf.w.toNat ∧ (1 : BitVec 16).toInt < grey.conf.h.toNat ∧
      (7 : Nat) = (1 : BitVec 16).toInt.toNat * grey.conf.w.toNat + (3 : BitVec 16).toInt.toNat ∧
      6 < mono.conf.w.toNat ∧ ¬(6 = (7 : BitVec 16).toInt.toNat ∧ 1 = (1 : BitVec 16).toInt.toNat) ∧
      (1 : Nat) = (2126 * (255 : Byte).toNat + 7152 * (0 : Byte).toNat + 722 * (0 : Byte).toNat) / 10000 / 32 ∧
      (7 : Nat) = (2126 * (224 : Byte).toNat + 7152 * (224 : Byte).toNat + 722 * (224 : Byte).toNat) / 10000 / 32 :=
  ⟨mono_ready, grey_ready, by decide +kernel⟩

/-- SetPixelOffThePanelIsNoOp: each side of the panel, one pixel off it (V44). -/
theorem witness_offPanel :
    (Ready mono ∧ BuffersSized mono ∧ mono.conf.grey = false) ∧
      (-1 : BitVec 16).toInt < 0 ∧ (mono.conf.w.toNat : Int) ≤ (8 : BitVec 16).toInt ∧ (-32768 : BitVec 16).toInt < 0 ∧
      (mono.conf.h.toNat : Int) ≤ (2 : BitVec 16).toInt :=
  ⟨mono_ready, by decide +kernel⟩

/-- PowerOnSequence, PowerOffSequence, PowerReentryIsNoOp. -/
theorem witness_power :
    mono.flags.power = false ∧ mono.cfg = 0x02#8 ∧ (powered mono).flags.power = true ∧ (powered mono).cfg = 0x1C#8 := by
  decide +kernel

/-- VscanStartPattern: a valid pattern, and the default. -/
theorem witness_vscan : mono.params.valid = true ∧ mono.params.vscanStartSeq = vscanDefault := by
  decide +kernel

/-- BusWordShowsExactlyItsByte, a line that is not mapped, lines that are inputs, lines that are outputs. -/
theorem witness_busWord :
    mono.params.valid = true ∧ DataLinesLow mono ∧ portBit mono.params.pinmap .srcEn = none ∧
      (∀ i, mono.io.dir.get (dataLine i) = .input) ∧ DataLinesLow (powered mono) ∧
      (∀ i, (powered mono).io.dir.get (dataLine i) = .output) ∧ (powered mono).io.dir.get .clk = .output := by
  unfold DataLinesLow
  decide +kernel

/-- MonoDescriptorsLoadDrv and DiffAndGreyDescriptorsLoadDrv: the first and the last word in monochrome, the last in
greyscale. -/
theorem witness_descriptors :
    (mono.flags.initialised = true ∧ BuffersSized mono ∧ mono.conf.grey = false ∧ 0 = mono.work.kw.toNat ∧
      0 < mono.rows * mono.wpr) ∧
    ((atKw 3 mono).flags.initialised = true ∧ BuffersSized (atKw 3 mono) ∧ (atKw 3 mono).conf.grey = false ∧
      3 = (atKw 3 mono).work.kw.toNat ∧ 3 < (atKw 3 mono).rows * (atKw 3 mono).wpr) ∧
    (atKw 1 grey).flags.initialised = true ∧ BuffersSized (atKw 1 grey) ∧ (atKw 1 grey).conf.grey = true ∧
      1 = (atKw 1 grey).work.kw.toNat ∧ 1 < (atKw 1 grey).rows * (atKw 1 grey).wpr := by
  unfold BuffersSized
  decide +kernel

/-- PassRowsAreStoredRowsReversed: the first word of the first row, the last word of the last. -/
theorem witness_passRows :
    (Ready mono ∧ BuffersSized mono ∧ mono.conf.grey = false) ∧
      mono.conf.w.toNat % 8 = 0 ∧ 0 < mono.rows ∧ 0 < mono.wpr ∧ 1 < mono.rows ∧ 1 < mono.wpr :=
  ⟨mono_ready, by decide +kernel⟩

/-- DiffComputesDriveBytes: the first and the last byte position. -/
theorem witness_diff :
    (Ready mono ∧ BuffersSized mono ∧ mono.conf.grey = false) ∧
      mono.flags.initialised = true ∧ 0 < mono.len ∧ mono.byteAt .buf0 0 = some 0xFF ∧ mono.byteAt .buf1 0 = some 0xFF ∧
      1 < mono.len ∧ mono.byteAt .buf0 1 = some 0xFF ∧ mono.byteAt .buf1 1 = some 0xEF ∧
      (0x10 : Byte) = (0xFF ^^^ 0xEF) &&& ~~~0xEF ∧ (0x00 : Byte) = (0xFF ^^^ 0xEF) &&& 0xEF :=
  ⟨mono_ready, by decide +kernel⟩

/-- NoChangeNoDrive: REF meets the table constraint of R147, and committed and pending are equal. -/
theorem witness_noChange :
    monoEqual.flags.initialised = true ∧ BuffersSized monoEqual ∧ monoEqual.conf.grey = false ∧
      monoEqual.params.lutw.get 0 &&& monoEqual.params.lutb.get 0 = 0 ∧ monoEqual.bufs.buf0 = monoEqual.bufs.buf1 := by
  unfold BuffersSized
  decide +kernel

/-- PassMakesItsEvents, PassAndRunPassComplete: a descriptor of each source, the power on. -/
theorem witness_pass :
    (powered mono).params.valid = true ∧ (powered mono).flags.initialised = true ∧ BuffersSized (powered mono) ∧
      (∀ d ∈ [PassDesc.const .skip, .monoLutb, .monoLut2, .diff], fitsMode d (powered mono).conf.grey = true) ∧
      cfgGet .sof (powered mono).cfg = true ∧ cfgGet .le (powered mono).cfg = false ∧
      BuffersSized (powered grey) ∧ fitsMode (.grey 7) (powered grey).conf.grey = true := by
  unfold BuffersSized
  decide +kernel

/-- FullMonoRefresh and CleanSequence. -/
theorem witness_fullMono :
    (Ready mono ∧ BuffersSized mono ∧ mono.conf.grey = false) ∧
      mono.params.valid = true ∧ mono.flags.power = false ∧ cfgGet .le mono.cfg = false ∧
      ([.const .white, .const .black, .const .discharge, .const .white, .const .black, .const .discharge, .const .white,
        .const .black, .monoLutb, .monoLutb, .monoLutb, .monoLut2, .const .discharge] : List PassDesc) =
        mono.params.preludeMono.map .const ++ [.monoLutb, .monoLutb, .monoLutb, .monoLut2, .const .discharge] :=
  ⟨mono_ready, by decide +kernel⟩

/-- PartialRefresh, and RefreshDispatch with partial refresh allowed. -/
theorem witness_partial :
    monoPartial.params.valid = true ∧ monoPartial.flags.failed = false ∧ monoPartial.flags.initialised = true ∧ BuffersSized monoPartial ∧
      monoPartial.conf.grey = false ∧ monoPartial.conf.partialEn = true ∧ monoPartial.flags.blockPartial = false ∧
      monoPartial.flags.power = false ∧ cfgGet .le monoPartial.cfg = false := by
  unfold BuffersSized
  decide +kernel

/-- GreyRefresh. -/
theorem witness_grey :
    (Ready grey ∧ BuffersSized grey ∧ grey.conf.grey = true) ∧
      grey.params.valid = true ∧ grey.flags.power = false ∧ cfgGet .le grey.cfg = false :=
  ⟨grey_ready, by decide +kernel⟩

/-- FullRefreshForcedAfterFuePartials: `N` = 2, and the smallest `N`, 1. -/
theorem witness_forced :
    Ready monoPartial ∧ BuffersSized monoPartial ∧ monoPartial.conf.grey = false ∧ monoPartial.conf.partialEn = true ∧
      monoPartial.conf.fue.toNat = 2 ∧ monoPartial.puc = 0 ∧ monoPartial.flags.blockPartial = false ∧
      Ready small ∧ BuffersSized small ∧ small.conf.grey = false ∧ small.conf.partialEn = true ∧
      small.conf.fue.toNat = 1 ∧ small.puc = 0 ∧ small.flags.blockPartial = false := by
  unfold Ready BuffersSized
  decide +kernel

/-- PinsIndependentOfUnreadBuffers: the smallest panel with two sets of buffers. -/
theorem witness_pins :
    (∃ t, exec .refreshFullMono small = .next t) ∧
      (∃ t, exec .refreshFullMono { small with bufs := { small.bufs with buf0 := [(0, 0x12)], buf2 := [] } } = .next
        t) ∧
      (∃ t, exec .clean small = .next t) ∧
      ∃ t, exec .clean { small with bufs := { buf0 := [], buf1 := [(0, 0x12)], buf2 := [] } } = .next t :=
  ⟨exists_of_check (by decide +kernel), exists_of_check (by decide +kernel), exists_of_check (by decide +kernel),
    exists_of_check (by decide +kernel)⟩

/-- DescriptorFrame. -/
theorem witness_descriptorFrame :
    descriptors .passMonoLutb ∧ (∃ t, exec .passMonoLutb mono = .next t) ∧ descriptors (.passGrey 7) ∧
      ∃ t, exec (.passGrey 7) grey = .next t :=
  ⟨⟨.monoLutb, rfl⟩, exists_of_check (by decide +kernel), ⟨.grey 7, rfl⟩, exists_of_check (by decide +kernel)⟩

/-- PinOperationFrame: every operation it names. -/
theorem witness_pinFrame :
    (∀ i ∈ [Instr.cfgPush, .powerOn, .powerOff, .vscanStart, .hscanStart, .colWord, .vscanEnd, .settle, .idle,
      .pass .monoLutb, .runPass .diff], pinOperations i) ∧
    ∀ i ∈ [Instr.cfgPush, .powerOn, .powerOff, .vscanStart, .hscanStart, .colWord, .vscanEnd, .settle, .idle,
      .pass .monoLutb, .runPass .diff], ∃ t, exec i small = .next t := by
  refine ⟨fun i hi => ?_, fun i hi => exists_of_check ?_⟩
  · simp only [List.mem_cons, List.not_mem_nil, or_false] at hi
    obtain rfl | rfl | rfl | rfl | rfl | rfl | rfl | rfl | rfl | rfl | rfl := hi <;> simp [pinOperations]
  · revert i
    decide +kernel

/-- BufferOperationFrame, and an address of each kind that it says is unchanged. -/
theorem witness_bufferFrame :
    (∃ t, exec (.setPixel 3 1 ⟨0, 0, 0, true⟩) mono = .next t) ∧ pixelStore mono 3 1 = some (.buf1, 1) ∧
      (∃ t, exec (.fill ⟨0, 0, 0, true⟩) mono = .next t) ∧ drawBuffer mono = .buf1 ∧
      (∃ t, exec .diff mono = .next t) ∧ ∃ t, exec .commit mono = .next t :=
  ⟨exists_of_check (by decide +kernel), by decide +kernel, exists_of_check (by decide +kernel), by decide +kernel,
    exists_of_check (by decide +kernel), exists_of_check (by decide +kernel)⟩

/-- SequenceFrame: every instruction it names. -/
theorem witness_sequenceFrame :
    (∀ i ∈ [Instr.clean, .refresh, .refreshFullMono, .refreshPartial], ∃ t, exec i small = .next t) ∧
      (∃ t, exec .refresh grey = .next t) ∧ ∃ t, exec .refreshGrey grey = .next t := by
  refine ⟨fun i hi => exists_of_check ?_, exists_of_check (by decide +kernel), exists_of_check (by decide +kernel)⟩
  revert i
  decide +kernel

/-- InitFrame: a failing INIT, and one of the geometry the block has. -/
theorem witness_initFrame :
    check (exec (.init 1024 516 false true 0) mono) (fun t => t.flags.failed) = true ∧
      check (exec (.init 8 2 false true 0) mono) (fun t => !t.flags.failed) = true ∧
      mono.flags.initialised = true ∧ mono.conf.w = 8 ∧ mono.conf.h = 2 ∧ mono.conf.grey = false := by
  decide +kernel

end Sys2Proof.Tests
end

/-! The step at a port whose head is a code (30_encoding.md R60): what `fetch` answers there, what the step then is. -/

namespace Sys2Proof.Machine

/-- R60: a code at the head of the port that decodes is run with that code taken off the port. -/
theorem fetch_of_decode_ok {s : State} {c : Code} {i : Instr} {rest : List Input} (hport : s.port = .code c :: rest)
    (hdecode : decode c = .ok i) : fetch s = .run i { s with port := rest } := by
  simp only [fetch, hport, hdecode]

/-- A step with valid parameters that fetches an instruction is exec of it on the state `fetch` hands over. -/
theorem step_of_fetch_run {s t : State} {i : Instr} (hvalid : s.params.valid = true) (hfetch : fetch s = .run i t) :
    step s = exec i t := by
  simp only [step, hvalid, hfetch, if_true]

/-- Settles O5: `fetch` answers the decoded instruction, and the step runs what `fetch` answers. -/
theorem stepRunsTheDecodedInstruction : Obligations.StepRunsTheDecodedInstruction := by
  intro s c i rest hvalid hport hdecode
  exact step_of_fetch_run hvalid (fetch_of_decode_ok hport hdecode)

end Sys2Proof.Machine

/-! The laws of the step that the statements of 10_state.md rest on: what each input leads to, which instructions a
port can hold, and one induction for everything that every step keeps. -/

namespace Sys2Proof.Machine

/-! ### The step, by what stands at the head of the port -/

/-- With valid parameters and no input the step is IDLE (R230). -/
theorem step_of_empty_port {s : State} (hvalid : s.params.valid = true) (hport : s.port = []) :
    step s = .next (s.setPhase .idle) := by
  have hfetch : fetch s = .idle := by simp only [fetch, hport]
  simp only [step, hvalid, hfetch, if_true]
  rfl

/-- With valid parameters and a reset pending the step takes it (R230). -/
theorem step_of_reset {s : State} {rest : List Input} (hvalid : s.params.valid = true)
    (hport : s.port = .reset :: rest) : step s = takeReset { s with port := rest } := by
  have hfetch : fetch s = .reset { s with port := rest } := by simp only [fetch, hport]
  simp only [step, hvalid, hfetch, if_true]

/-- A command word decodes to one of the five commands (R62, R209). -/
theorem hostCommands_of_decode {w : CommandWord} {i : Instr} (h : decode (.command w) = .ok i) : hostCommands i := by
  simp only [decode, decodeCommand] at h
  split_ifs at h <;> cases h
  · exact .inl ⟨_, _, _, _, _, rfl⟩
  · exact .inr (.inl ⟨_, _, _, rfl⟩)
  · exact .inr (.inr (.inl ⟨_, rfl⟩))
  · exact .inr (.inr (.inr (.inl rfl)))
  · exact .inr (.inr (.inr (.inr rfl)))

/-- A code decodes to a command, a pass descriptor or the operation of a phase, never to a composite operation, which
has no code (R60, R74, R76). -/
theorem decoded_cases {c : Code} {i : Instr} (h : decode c = .ok i) :
    hostCommands i ∨ descriptors i ∨ ∃ x, i = instrOfPhase x := by
  cases c with
  | command w => exact .inl (hostCommands_of_decode h)
  | descriptor d =>
    simp only [decode] at h
    split at h <;> cases h
    exact .inr (.inl ⟨_, rfl⟩)
  | phase p =>
    simp only [decode] at h
    split at h <;> cases h
    exact .inr (.inr ⟨_, rfl⟩)

/-- What a host-driven step can do: idle, the reset event with the power off, or one of the five commands (R209,
R230). -/
theorem hostDriven_step_cases {s t : State} (hd : s.hostDriven = true) (e : step s = .next t) :
    s.params.valid = true ∧
      ((s.port = [] ∧ t = s.setPhase .idle) ∨
        ∃ rest, State.hostDriven { s with port := rest } = true ∧
          (t = resetEvent { s with port := rest } ∨
            ∃ i, hostCommands i ∧ exec i { s with port := rest } = .next t)) := by
  obtain ⟨hv, ⟨hp, rfl⟩ | ⟨rest, hp, -, rfl⟩ | ⟨c, i, rest, hp, hc, e⟩⟩ := step_cases e
  · exact ⟨hv, .inl ⟨hp, rfl⟩⟩
  · simp only [State.hostDriven, hp, List.all_cons, Bool.and_eq_true] at hd
    exact ⟨hv, .inr ⟨rest, hd.2, .inl rfl⟩⟩
  · simp only [State.hostDriven, hp, List.all_cons, Bool.and_eq_true] at hd
    refine ⟨hv, .inr ⟨rest, hd.2, .inr ⟨i, ?_, e⟩⟩⟩
    cases c with
    | command w => exact hostCommands_of_decode hc
    | descriptor d => exact absurd hd.1 (by simp [Input.fromHost])
    | phase p => exact absurd hd.1 (by simp [Input.fromHost])

/-! ### What every step keeps -/

/-- An instruction keeps what every outcome of INIT and every primitive change keeps. -/
theorem exec_keeps {P : State → Prop} (hprim : ∀ {s t}, Prim s t → P s → P t)
    (hinit : ∀ {w h g p fue s t}, InitOutcome w h g p fue s t → P s → P t) {i : Instr} {s t : State}
    (e : exec i s = .next t) (hs : P s) : P t := by
  obtain ⟨w, h, g, p, fue, -, ho⟩ | hr := exec_cases e
  · exact hinit ho hs
  · exact reach_keeps hprim hr hs

/-- A step keeps a predicate that does not read the port, holds after the reset event, and that every outcome of INIT
and every primitive change keeps. -/
theorem step_keeps {P : State → Prop} (hport : ∀ {s rest}, P s → P { s with port := rest })
    (hreset : ∀ s, P (resetEvent s)) (hprim : ∀ {s t}, Prim s t → P s → P t)
    (hinit : ∀ {w h g p fue s t}, InitOutcome w h g p fue s t → P s → P t) {s t : State} (hs : P s)
    (e : step s = .next t) : P t := by
  obtain ⟨-, ⟨-, rfl⟩ | ⟨rest, -, -, rfl⟩ | ⟨c, i, rest, -, -, e⟩⟩ := step_cases e
  · exact hprim (.place _ s) hs
  · exact hreset _
  · exact exec_keeps hprim hinit e (hport hs)

/-! ### The pins INIT sets up (R162) -/

/-- The pin setup of INIT: its 31 events, the four outputs and the eleven inputs, and `PANEL_EN` high. -/
theorem setupPins_spec (io : Io) :
    (setupPins io).trace = io.trace ++ (allLines.map .pinConfigure ++ alwaysOutputs.map (fun l => .pinDir l .output) ++
      panelFacing.map (fun l => .pinDir l .input) ++ [.pinWrite .panelEn true]) ∧
    (∀ l, (setupPins io).dir.get l = if l ∈ panelFacing then .input else .output) ∧
    (setupPins io).latch = io.latch.set .panelEn true := by
  obtain ⟨c1, c2, c3, -⟩ := forLines_pinConfigure allLines io
  obtain ⟨o1, o2, o3, -⟩ := forLines_pinDir .output alwaysOutputs (io.forLines Io.pinConfigure allLines)
  obtain ⟨i1, i2, i3, -⟩ := forLines_pinDir .input panelFacing
    ((io.forLines Io.pinConfigure allLines).forLines (Io.pinDir .output) alwaysOutputs)
  refine ⟨?_, fun l => ?_, ?_⟩
  · simp only [setupPins, pinWrite_trace, i1, o1, c1, List.append_assoc]
  · simp only [setupPins, pinWrite_dir, i2, o2]
    by_cases hl : l ∈ panelFacing
    · simp only [hl, if_true]
    · have ho : l ∈ alwaysOutputs := by simpa only [mem_panelFacing, not_not] using hl
      simp only [hl, ho, if_true, if_false]
  · simp only [setupPins, pinWrite_latch, i3, o3, c3]

/-- INIT's 57 events (R162). -/
theorem configure_trace (w h : BitVec 16) (g p : Bool) (fue : BitVec 16) (s : State) :
    (configure w h g p fue s).io.trace = s.io.trace ++ initEvents s.cfg := by
  simp only [configure_io, push_trace, (setupPins_spec s.io).1, initEvents, List.append_assoc]

/-- The directions after INIT (R29, R162). -/
theorem configure_dir (w h : BitVec 16) (g p : Bool) (fue : BitVec 16) (s : State) (l : Line) :
    (configure w h g p fue s).io.dir.get l = if l ∈ panelFacing then .input else .output := by
  rw [configure_io, push_dir, (setupPins_spec s.io).2.1]

/-- INIT leaves `PANEL_EN` high (R162). -/
theorem configure_panelEn (w h : BitVec 16) (g p : Bool) (fue : BitVec 16) (s : State) :
    (configure w h g p fue s).io.latch.get .panelEn = true := by
  simp [push_latch, (setupPins_spec s.io).2.2]

/-- INIT pushes `CFG` (R162). -/
theorem configure_srOut (w h : BitVec 16) (g p : Bool) (fue : BitVec 16) (s : State) :
    (configure w h g p fue s).io.srOut = s.cfg := by
  simp only [configure_io, push_srOut]

/-- What every outcome of INIT keeps (R162, R201): the parameters, `CFG`, `POWER`, the position, the working registers
and the inputs. -/
theorem initOutcome_keeps {w h : BitVec 16} {g p : Bool} {fue : BitVec 16} {s t : State}
    (ho : InitOutcome w h g p fue s t) :
    t.params = s.params ∧ t.cfg = s.cfg ∧ t.flags.power = s.flags.power ∧ t.pos = s.pos ∧ t.work = s.work ∧
      t.port = s.port := by
  cases ho <;> simp [raise]

/-- An outcome of INIT leaves the panel-facing lines inputs, if they were (R162). -/
theorem initOutcome_dir {w h : BitVec 16} {g p : Bool} {fue : BitVec 16} {s t : State}
    (ho : InitOutcome w h g p fue s t) (hs : ∀ l ∈ panelFacing, s.io.dir.get l = .input) :
    ∀ l ∈ panelFacing, t.io.dir.get l = .input := by
  intro l hl
  cases ho with
  | ignored => exact hs l hl
  | failed => exact hs l hl
  | kept => rw [configure_dir, if_pos hl]
  | fresh => rw [configure_dir, if_pos hl]

/-! ### The buffers keep their sizes (R23, R24) -/

/-- A new allocation has the sizes of R161. -/
theorem buffersSized_fresh {w h : BitVec 16} {g p : Bool} {fue : BitVec 16} {s : State}
    (hg : geometryAdmitted w h = true) : BuffersSized (configure w h g p fue (allocateBuffers w h g s)) := by
  cases g <;> simp [BuffersSized, hg, State.len, allocateBuffers]

/-- Every outcome of INIT leaves sized buffers: none after a failure, those of the new geometry after an allocation
(R161, R162, R201). -/
theorem initOutcome_sized {w h : BitVec 16} {g p : Bool} {fue : BitVec 16} {s t : State}
    (ho : InitOutcome w h g p fue s t) (hs : BuffersSized s) : BuffersSized t := by
  cases ho with
  | ignored => exact hs
  | failed => simp [BuffersSized, raise]
  | fresh _ hg _ _ => exact buffersSized_fresh hg
  | kept _ hg hsame =>
    simp only [sameGeometry, Bool.and_eq_true, decide_eq_true_eq] at hsame
    obtain ⟨⟨⟨hi, rfl⟩, rfl⟩, rfl⟩ := hsame
    simp only [BuffersSized, hi, if_true] at hs
    simpa [BuffersSized, State.len] using hs

/-- Settles O10: primitive changes keep every offset, INIT allocates what its geometry needs, and reset leaves no
buffer. -/
theorem buffersKeepTheirSizes : Obligations.BuffersKeepTheirSizes := by
  intro s t hs e
  exact step_keeps (fun h => h) (fun s => by simp [BuffersSized, resetEvent, State.resetWith])
    (fun h => reach_sized h.reach) initOutcome_sized hs e

/-! ### The external register shows `CFG` (R18, R33) -/

/-- Every primitive change that writes `CFG` pushes it, and none that does not touches the external register. -/
theorem prim_mirrorHeld {s t : State} (h : Prim s t) (hs : MirrorHeld s) : MirrorHeld t := by
  unfold MirrorHeld at hs ⊢
  cases h with
  | apply f v => simp
  | clearDirPd => simp
  | push => simp
  | panelDirs d =>
    obtain ⟨-, -, -, -, hout⟩ := forLines_pinDir d panelFacing s.io
    simpa only [State.pinDirs_flags, State.pinDirs_cfg, State.pinDirs_io, hout] using hs
  | store b p v _ _ h =>
    obtain ⟨-, rfl⟩ := writeByte_eq_next.mp h
    exact hs
  | _ => simpa [pinWrite_srOut] using hs

/-- A successful INIT pushes `CFG`, and a failed one leaves the block uninitialised (R162, R201). -/
theorem initOutcome_mirrorHeld {w h : BitVec 16} {g p : Bool} {fue : BitVec 16} {s t : State}
    (ho : InitOutcome w h g p fue s t) (hs : MirrorHeld s) : MirrorHeld t := by
  intro hi
  cases ho with
  | ignored => exact hs hi
  | failed => simp [raise] at hi
  | kept => rw [configure_srOut, configure_cfg]
  | fresh => rw [configure_srOut, configure_cfg]

/-- Settles O13: the push of every write of `CFG` keeps the mirror, and after reset there is nothing to show. -/
theorem shiftRegisterMirrorsCfg : Obligations.ShiftRegisterMirrorsCfg := by
  intro s t hs e
  exact step_keeps (fun h => h) (fun s hi => by simp [resetEvent, State.resetWith] at hi) prim_mirrorHeld
    initOutcome_mirrorHeld hs e

end Sys2Proof.Machine

/-! The frames of the operations (family 10_state): what a pass descriptor, an operation on the pins, and a pixel write
leave unchanged. -/

namespace Sys2Proof.Machine

/-! ### Pass descriptors -/

/-- A pass descriptor as an instruction loads its word (R74; log entry 11). -/
theorem exec_instrOfDesc (d : PassDesc) (s : State) : exec (instrOfDesc d) s = loadWord d s := by
  cases d with
  | const kind => cases kind <;> rfl
  | monoLutb => rfl
  | monoLut2 => rfl
  | diff => rfl
  | grey k => rfl

/-- Settles O56: a descriptor loads its word into `DRV`, and a word is only read. -/
theorem descriptorFrame : Obligations.DescriptorFrame := by
  rintro i s t ⟨d, rfl⟩ e
  rw [exec_instrOfDesc] at e
  obtain ⟨v, -, rfl⟩ := loadWord_eq_next.mp e
  exact ⟨rfl, fun _ _ => rfl⟩

/-! ### Operations on the pins -/

/-- What every operation on the pins keeps: all but the pins, `CFG`, `POWER`, the loop counters and the working
registers. -/
structure PinFrame (s t : State) : Prop where
  params : t.params = s.params
  conf : t.conf = s.conf
  puc : t.puc = s.puc
  bufs : t.bufs = s.bufs
  port : t.port = s.port
  draws : t.draws = s.draws
  seq : t.pos.seq = s.pos.seq
  flags : t.flags = { s.flags with power := t.flags.power }
  panelEn : t.io.latch.get .panelEn = s.io.latch.get .panelEn

/-- What an operation on the pins other than POWER_ON and POWER_OFF keeps besides: every flag and every direction. -/
structure UnpoweredFrame (s t : State) : Prop extends PinFrame s t where
  allFlags : t.flags = s.flags
  dir : t.io.dir = s.io.dir

theorem unpoweredFrame_of_scanKeeps {s t : State} (h : ScanKeeps s t) : UnpoweredFrame s t :=
  ⟨⟨h.params, h.conf, h.puc, h.bufs, h.port, h.draws, h.seq, by rw [h.flags], h.panelEn⟩, h.flags, h.dir⟩

theorem powerOn_pinFrame (s : State) : PinFrame s (powerOn s) := by
  obtain ⟨h1, h2, h3, h4, h5, h6, h7, h8⟩ := powerOn_keeps s
  refine ⟨h1, h2, h3, h4, h5, h6, by rw [h7], by rw [h8], ?_⟩
  cases hp : s.flags.power with
  | false =>
    obtain ⟨-, -, -, hlatch, -⟩ := powerOn_spec hp
    exact hlatch .panelEn (by decide)
  | true => simp only [powerOn, hp, if_true, raise]

theorem powerOff_pinFrame (s : State) : PinFrame s (powerOff s) := by
  obtain ⟨h1, h2, h3, h4, h5, h6, h7, h8⟩ := powerOff_keeps s
  refine ⟨h1, h2, h3, h4, h5, h6, by rw [h7], by rw [h8], ?_⟩
  cases hp : s.flags.power with
  | true =>
    obtain ⟨-, -, -, hlatch, -⟩ := powerOff_spec hp
    exact hlatch .panelEn (by decide)
  | false => simp [powerOff, hp, raise]

/-- POWER_ON writes no field of `CFG` but its five (R111, R116). -/
theorem powerOn_cfgGet (s : State) (f : CfgField) (hf : f ∉ fieldsWritten .powerOn) :
    cfgGet f (powerOn s).cfg = cfgGet f s.cfg := by
  simp only [fieldsWritten, List.mem_cons, List.not_mem_nil, or_false, not_or] at hf
  cases hp : s.flags.power with
  | false =>
    obtain ⟨-, hcfg, -⟩ := powerOn_spec hp
    simp [hcfg, onCfg4_get, hf]
  | true => simp only [powerOn, hp, if_true, raise]

/-- POWER_OFF writes no field of `CFG` but its four (R112, R116). -/
theorem powerOff_cfgGet (s : State) (f : CfgField) (hf : f ∉ fieldsWritten .powerOff) :
    cfgGet f (powerOff s).cfg = cfgGet f s.cfg := by
  simp only [fieldsWritten, List.mem_cons, List.not_mem_nil, or_false, not_or] at hf
  cases hp : s.flags.power with
  | true =>
    obtain ⟨-, hcfg, -⟩ := powerOff_spec hp
    simp [hcfg, offCfg4_get, hf]
  | false => simp [powerOff, hp, raise]

/-- CFG_PUSH changes the pins alone (R100). -/
theorem execCfgPush_eq (s : State) : execCfgPush s = .next { s with io := s.io.push s.cfg } := by
  simp only [execCfgPush, inPhase, State.push, State.setPhase]

theorem cfgPush_unpowered (s : State) : UnpoweredFrame s { s with io := s.io.push s.cfg } :=
  ⟨⟨rfl, rfl, rfl, rfl, rfl, rfl, rfl, rfl, by simp [push_latch]⟩, rfl, push_dir _ _⟩

theorem settle_unpowered (s : State) : UnpoweredFrame s (settle s) :=
  ⟨⟨rfl, rfl, rfl, rfl, rfl, rfl, rfl, rfl, rfl⟩, rfl, rfl⟩

theorem setPhase_unpowered (p : Phase) (s : State) : UnpoweredFrame s (s.setPhase p) :=
  ⟨⟨rfl, rfl, rfl, rfl, rfl, rfl, rfl, rfl, rfl⟩, rfl, rfl⟩

theorem runPass_unpowered {d : PassDesc} {s t : State} (e : runPass d s = .next t) : UnpoweredFrame s t := by
  obtain ⟨h1, h2, h3, h4, h5, h6, h7, h8, h9, h10, -⟩ := runPass_keeps e
  exact ⟨⟨h1, h2, h4, h5, h6, h7, h8, by rw [h3], h10⟩, h3, h9⟩

/-- The frame of an operation on the pins: what it keeps, the flags and directions only the power operations touch, and
the fields of `CFG` it does not name (R17, R116). -/
structure PinOperationKeeps (i : Instr) (s t : State) : Prop extends PinFrame s t where
  unpowered : i ≠ .powerOn → i ≠ .powerOff → t.flags = s.flags ∧ t.io.dir = s.io.dir
  fields : ∀ f, f ∉ fieldsWritten i → cfgGet f t.cfg = cfgGet f s.cfg

theorem UnpoweredFrame.keeps {i : Instr} {s t : State} (h : UnpoweredFrame s t)
    (hf : ∀ f, f ∉ fieldsWritten i → cfgGet f t.cfg = cfgGet f s.cfg) : PinOperationKeeps i s t :=
  ⟨h.toPinFrame, fun _ _ => ⟨h.allFlags, h.dir⟩, hf⟩

theorem pinOperation_keeps {i : Instr} {s t : State} (hi : pinOperations i) (e : exec i s = .next t) :
    PinOperationKeeps i s t := by
  cases i with
  | cfgPush =>
    obtain rfl := Host.Outcome.next.inj ((execCfgPush_eq s).symm.trans e)
    exact (cfgPush_unpowered s).keeps fun _ _ => rfl
  | powerOn =>
    cases e
    exact ⟨powerOn_pinFrame s, fun h => absurd rfl h, powerOn_cfgGet s⟩
  | powerOff =>
    cases e
    exact ⟨powerOff_pinFrame s, fun _ h => absurd rfl h, powerOff_cfgGet s⟩
  | vscanStart =>
    cases e
    obtain ⟨-, hcfg, -, -, hk⟩ := vscanStart_spec s
    refine (unpoweredFrame_of_scanKeeps hk).keeps fun f hf => ?_
    rw [hcfg, vscanCfg_get, if_neg (by simpa [fieldsWritten] using hf)]
  | hscanStart =>
    cases e
    obtain ⟨-, hcfg, -, -, hk⟩ := hscanStart_spec s
    exact (unpoweredFrame_of_scanKeeps hk).keeps fun f _ => by rw [hcfg]
  | colWord =>
    cases e
    obtain ⟨-, hcfg, -, -, hk⟩ := colWord_spec s
    exact (unpoweredFrame_of_scanKeeps hk).keeps fun f _ => by rw [hcfg]
  | vscanEnd =>
    cases e
    obtain ⟨-, hcfg, -, -, -, hk⟩ := vscanEnd_spec s
    refine (unpoweredFrame_of_scanKeeps hk).keeps fun f hf => ?_
    rw [hcfg, cfgGet_cfgSet, if_neg (by simpa [fieldsWritten] using hf)]
  | settle =>
    cases e
    exact (settle_unpowered s).keeps fun _ _ => rfl
  | idle =>
    cases e
    exact (setPhase_unpowered .idle s).keeps fun _ _ => rfl
  | pass d =>
    obtain ⟨hk, hcfg⟩ := runScan_keeps (d := d) e
    refine (unpoweredFrame_of_scanKeeps hk).keeps fun f hf => ?_
    simp only [fieldsWritten, List.mem_cons, List.not_mem_nil, or_false, not_or] at hf
    exact hcfg f hf.1 hf.2
  | runPass d =>
    obtain ⟨-, -, -, -, -, -, -, -, -, -, hcfg⟩ := runPass_keeps (d := d) e
    refine (runPass_unpowered e).keeps fun f hf => ?_
    simp only [fieldsWritten, List.mem_cons, List.not_mem_nil, or_false, not_or] at hf
    exact hcfg f hf.1 hf.2
  | _ => exact absurd hi (by simp [pinOperations])

/-- Settles O57: the frame of each operation, read off what its parts keep. -/
theorem pinOperationFrame : Obligations.PinOperationFrame := by
  intro i s t hi e
  have h := pinOperation_keeps hi e
  exact ⟨h.params, h.conf, h.puc, h.bufs, h.port, h.draws, h.seq, byteAt_congr h.bufs, h.flags, h.unpowered, h.fields,
    h.panelEn⟩

/-! ### Pixel writes -/

/-- SET_PIXEL changes the buffers alone (R164, R202). -/
theorem setPixelBody_keeps {x y : BitVec 16} {c : Colour} {s t : State} (e : setPixelBody x y c s = .next t) :
    t = { s with bufs := t.bufs } := by
  unfold setPixelBody at e
  split at e
  · obtain ⟨v, -, rfl⟩ := modifyByte_eq_next.mp e
    rfl
  · cases e
    rfl

/-- FILL changes the buffers alone (R167). -/
theorem fillBody_keeps {c : Colour} {s t : State} (e : fillBody c s = .next t) : t = { s with bufs := t.bufs } := by
  refine forUp_rel (R := fun a b => b = { a with bufs := b.bufs }) (fun _ => rfl) ?_ ?_ e
  · intro a b c hab hbc
    rw [hbc, hab]
  · intro q a b h
    obtain ⟨-, rfl⟩ := writeByte_eq_next.mp h
    rfl

/-- A command whose body changes the buffers alone changes the buffers alone (R160). -/
theorem command_keeps {b : Bool} {body : State → Result State} {s t : State}
    (h : body s = .next t → t = { s with bufs := t.bufs }) (e : command b body s = .next t) :
    t = { s with bufs := t.bufs } := by
  obtain ⟨-, rfl⟩ | ⟨-, -, k⟩ := command_eq_next.mp e
  · rfl
  · exact h k

/-- The two drawing commands change the buffers alone (R164, R167). -/
theorem exec_setPixel_keeps {x y : BitVec 16} {c : Colour} {s t : State} (e : exec (.setPixel x y c) s = .next t) :
    t = { s with bufs := t.bufs } :=
  command_keeps setPixelBody_keeps e

theorem exec_fill_keeps {c : Colour} {s t : State} (e : exec (.fill c) s = .next t) : t = { s with bufs := t.bufs } :=
  command_keeps fillBody_keeps e

end Sys2Proof.Machine

/-! The command boundary of R25 and the partial counter of R16 (family 10_state). -/

namespace Sys2Proof.Machine

/-! ### What runs between POWER_ON and POWER_OFF -/

/-- What the body of a sequence keeps: the flags but `BLOCK_PARTIAL`, `LE` = 0, and every field of `CFG` but `SOF` and
`LE`. -/
structure BodyKeeps (s t : State) : Prop where
  power : t.flags.power = s.flags.power
  le : cfgGet .le s.cfg = false → cfgGet .le t.cfg = false
  fields : ∀ f, f ≠ .sof → f ≠ .le → cfgGet f t.cfg = cfgGet f s.cfg

theorem BodyKeeps.trans {a b c : State} (h : BodyKeeps a b) (k : BodyKeeps b c) : BodyKeeps a c :=
  ⟨k.power.trans h.power, fun hl => k.le (h.le hl), fun f f1 f2 => (k.fields f f1 f2).trans (h.fields f f1 f2)⟩

/-- A change that leaves `POWER` and `CFG` alone. -/
theorem bodyKeeps_of_eq {s t : State} (hp : t.flags.power = s.flags.power) (hc : t.cfg = s.cfg) : BodyKeeps s t :=
  ⟨hp, fun h => by rw [hc, h], fun f _ _ => by rw [hc]⟩

/-- Each row of a pass ends with `LE` = 0 (R126, R127). -/
theorem passRow_le {d : PassDesc} {row : Nat} {s t : State} (e : passRow d row s = .next t) :
    cfgGet .le t.cfg = false := by
  obtain ⟨u, -, e⟩ := andThen_eq_next.mp e
  obtain ⟨v, -, e⟩ := andThen_eq_next.mp e
  cases e
  obtain ⟨-, hcfg, -⟩ := vscanEnd_spec v
  simp [hcfg]

/-- A pass entered with `LE` = 0 ends with `LE` = 0 (R126). -/
theorem runScan_le {d : PassDesc} {s t : State} (e : runScan d s = .next t) (h : cfgGet .le s.cfg = false) :
    cfgGet .le t.cfg = false := by
  have hrows := forUp_rel (R := fun a b => cfgGet .le a.cfg = false → cfgGet .le b.cfg = false) (fun _ h => h)
    (fun h k ha => k (h ha)) (fun _ _ _ h _ => passRow_le h) e
  obtain ⟨-, hcfg, -⟩ := vscanStart_spec s
  apply hrows
  rw [hcfg, vscanCfg_get, if_neg (by decide), h]

theorem runPass_bodyKeeps {d : PassDesc} {s t : State} (e : runPass d s = .next t) : BodyKeeps s t := by
  obtain ⟨-, -, hflags, -, -, -, -, -, -, -, hfields⟩ := runPass_keeps e
  refine ⟨by rw [hflags], fun h => ?_, hfields⟩
  obtain ⟨u, hu, e⟩ := andThen_eq_next.mp e
  cases e
  have hle := runScan_le hu h
  exact hle

theorem runPasses_bodyKeeps {ds : List PassDesc} {s t : State} (e : runPasses ds s = .next t) : BodyKeeps s t := by
  induction ds generalizing s with
  | nil =>
    cases e
    exact bodyKeeps_of_eq rfl rfl
  | cons d ds ih =>
    obtain ⟨u, hu, e⟩ := andThen_eq_next.mp e
    exact (runPass_bodyKeeps hu).trans (ih e)

theorem greySubframes_bodyKeeps {n first : Nat} {s t : State} (e : forUp greySubframe n first s = .next t) :
    BodyKeeps s t :=
  forUp_rel (R := BodyKeeps) (fun _ => bodyKeeps_of_eq rfl rfl) BodyKeeps.trans
    (fun k s _ h =>
      have hload : BodyKeeps s { s with work := { s.work with k := BitVec.ofNat 3 k } } := bodyKeeps_of_eq rfl rfl
      hload.trans (runPass_bodyKeeps h)) e

theorem runDiff_bodyKeeps {s t : State} (e : runDiff s = .next t) : BodyKeeps s t := by
  obtain ⟨-, h, -⟩ := runDiff_frame e
  exact bodyKeeps_of_eq (by rw [h]) (by rw [h])

theorem runCommit_bodyKeeps {s t : State} (e : runCommit s = .next t) : BodyKeeps s t := by
  obtain ⟨-, h, -⟩ := runCommit_frame e
  exact bodyKeeps_of_eq (by rw [h]) (by rw [h])

/-! ### The command boundary (R25) -/

/-- Where a sequence ends that starts at a command boundary: at one, with `CFG` as before but for `DIR` (R111, R112). -/
def BackAtBoundary (s t : State) : Prop :=
  AtBoundary t ∧ t.cfg = cfgSet .dir false s.cfg

/-- POWER_ON from a command boundary leaves `DIR` = 0 and only the fields it names otherwise changed, and POWER_OFF
undoes the rest (R110 to R112, R191). -/
theorem sequence_backAtBoundary {q : Seq} {body : State → Result State}
    (hbody : ∀ {s t}, body s = .next t → BodyKeeps s t) {s t : State} (hs : AtBoundary s)
    (e : sequence q body s = .next t) : BackAtBoundary s t := by
  obtain ⟨hpower, -, -, hpd, hle, hpos, hneg, hsof⟩ := hs
  obtain ⟨u, hu, rfl⟩ := sequence_eq_next.mp e
  have hk := hbody hu
  obtain ⟨-, hon, -⟩ := powerOn_spec (s := beginSequence q s) hpower
  obtain ⟨-, -, -, -, -, hflags⟩ := begin_kept q s
  have hup : u.flags.power = true := by rw [hk.power, hflags]
  have hul : cfgGet .le u.cfg = false := hk.le (by rw [hon]; exact le_onCfg4 hle)
  obtain ⟨-, hoff, hdir, -⟩ := powerOff_spec hup
  have hcfg : (powerOff u).endSequence.cfg = cfgSet .dir false s.cfg := by
    apply cfg_ext
    intro f
    rw [State.endSequence_cfg, hoff, offCfg4_get, cfgGet_cfgSet]
    cases f <;> simp [hpd, hle, hpos, hneg, hsof, hul, hk.fields, hon, onCfg4_get]
  obtain ⟨-, -, -, -, -, hidle, hend⟩ := end_kept u
  refine ⟨⟨by rw [hend], hidle, fun l hl => by rw [State.endSequence_io, hdir, if_pos hl], ?_⟩, hcfg⟩
  rw [hcfg]
  simp [hpd, hle, hpos, hneg, hsof]

theorem refreshFullMono_backAtBoundary {s t : State} (hs : AtBoundary s) (e : refreshFullMono s = .next t) :
    BackAtBoundary s t := by
  unfold refreshFullMono at e
  split at e
  · cases e
  · refine sequence_backAtBoundary (fun {a b} h => ?_) hs e
    obtain ⟨u, hu, h⟩ := andThen_eq_next.mp h
    have hclear : BodyKeeps u (clearPartialCount u) := bodyKeeps_of_eq (by simp) (by simp)
    exact ((runPasses_bodyKeeps hu).trans hclear).trans (runCommit_bodyKeeps h)

theorem refreshPartial_backAtBoundary {s t : State} (hs : AtBoundary s) (e : refreshPartial s = .next t) :
    BackAtBoundary s t := by
  unfold refreshPartial at e
  split_ifs at e
  refine sequence_backAtBoundary (fun {a b} h => ?_) hs e
  obtain ⟨u, hu, h⟩ := andThen_eq_next.mp h
  obtain ⟨v, hv, h⟩ := andThen_eq_next.mp h
  obtain ⟨x, hx, h⟩ := andThen_eq_next.mp h
  cases h
  have hbump : BodyKeeps x (bumpPuc x) := bodyKeeps_of_eq (by simp) (by simp)
  exact (((runDiff_bodyKeeps hu).trans (runPasses_bodyKeeps hv)).trans (runCommit_bodyKeeps hx)).trans hbump

theorem refreshGrey_backAtBoundary {s t : State} (hs : AtBoundary s) (e : refreshGrey s = .next t) :
    BackAtBoundary s t := by
  unfold refreshGrey at e
  split_ifs at e
  refine sequence_backAtBoundary (fun {a b} h => ?_) hs e
  obtain ⟨u, hu, h⟩ := andThen_eq_next.mp h
  obtain ⟨v, hv, h⟩ := andThen_eq_next.mp h
  exact ((runPasses_bodyKeeps hu).trans (greySubframes_bodyKeeps hv)).trans (runPasses_bodyKeeps h)

/-- Whether a state stands at a command boundary depends on `POWER`, the position, the directions and `CFG` alone. -/
theorem atBoundary_congr {s t : State} (h1 : t.flags.power = s.flags.power) (h2 : t.pos = s.pos)
    (h3 : ∀ l ∈ panelFacing, t.io.dir.get l = s.io.dir.get l) (h4 : t.cfg = s.cfg) (hs : AtBoundary s) :
    AtBoundary t := by
  obtain ⟨hpower, hpos, hdir, hcfg⟩ := hs
  refine ⟨by rw [h1, hpower], by rw [h2, hpos], fun l hl => by rw [h3 l hl, hdir l hl], ?_⟩
  rw [h4]
  exact hcfg

/-- REFRESH runs one of the three sequences, and the forced-full check touches `BLOCK_PARTIAL` alone (R180, R189). -/
theorem refreshBody_backAtBoundary {s t : State} (hs : AtBoundary s) (e : refreshBody s = .next t) :
    BackAtBoundary s t := by
  obtain ⟨u, rfl, hu⟩ := refreshBody_cases e
  obtain ⟨hb, hc⟩ : BackAtBoundary s u := by
    obtain ⟨-, hu⟩ | ⟨-, -, hu⟩ | ⟨-, -, hu⟩ := hu
    · exact refreshGrey_backAtBoundary hs hu
    · exact refreshPartial_backAtBoundary hs hu
    · exact refreshFullMono_backAtBoundary hs hu
  obtain ⟨-, -, -, hpos, hcfg, hio, hflags⟩ := forcedFullCheck_keeps u
  exact ⟨atBoundary_congr (by rw [hflags]) hpos (fun _ _ => by rw [hio]) hcfg hb, hcfg.trans hc⟩

/-- A command takes a command boundary to a command boundary, and leaves `CFG` as it was or with `DIR` cleared (R25). -/
theorem command_boundary {i : Instr} {s t : State} (hi : hostCommands i) (hs : AtBoundary s) (e : exec i s = .next t) :
    AtBoundary t ∧ (t.cfg = s.cfg ∨ t.cfg = cfgSet .dir false s.cfg) := by
  have hseq : ∀ {body : State → Result State}, (body s = .next t → BackAtBoundary s t) →
      command true body s = .next t → AtBoundary t ∧ (t.cfg = s.cfg ∨ t.cfg = cfgSet .dir false s.cfg) := by
    intro body h e
    obtain ⟨-, rfl⟩ | ⟨-, -, e⟩ := command_eq_next.mp e
    · exact ⟨hs, .inl rfl⟩
    · exact ⟨(h e).1, .inr (h e).2⟩
  obtain ⟨w, h, g, p, fue, rfl⟩ | ⟨x, y, c, rfl⟩ | ⟨c, rfl⟩ | rfl | rfl := hi
  · have ho := execInit_outcome e
    obtain ⟨-, hcfg, hpower, hpos, -, -⟩ := initOutcome_keeps ho
    have ⟨_, _, hinput, _⟩ := hs
    have hdir := initOutcome_dir ho hinput
    exact ⟨atBoundary_congr hpower hpos (fun l hl => (hdir l hl).trans (hinput l hl).symm) hcfg hs, .inl hcfg⟩
  · rw [exec_setPixel_keeps e]
    exact ⟨hs, .inl rfl⟩
  · rw [exec_fill_keeps e]
    exact ⟨hs, .inl rfl⟩
  · exact hseq (sequence_backAtBoundary runPasses_bodyKeeps hs) e
  · exact hseq (refreshBody_backAtBoundary hs) e

/-- The constraints of R6 on `CFG_RESET`. -/
theorem cfgReset_valid {p : Config} (h : p.valid = true) :
    cfgGet .pd p.cfgReset = true ∧ cfgGet .pos p.cfgReset = false ∧ cfgGet .neg p.cfgReset = false ∧
      cfgGet .sof p.cfgReset = false := by
  simp only [Config.valid, Bool.and_eq_true, Bool.not_eq_true'] at h
  obtain ⟨-, ⟨⟨hpd, hpos⟩, hneg⟩, hsof⟩ := h
  exact ⟨hpd, hpos, hneg, hsof⟩

/-- The reset values are a command boundary when `CFG_RESET` has `LE` = 0 (R34, R231). -/
theorem atBoundary_of_reset_values {s : State} (hv : s.params.valid = true) (hl : cfgGet .le s.params.cfgReset = false)
    (hpower : s.flags.power = false) (hpos : s.pos = .idle) (hdir : s.io.dir = .all .input)
    (hcfg : s.cfg = s.params.cfgReset) : AtBoundary s := by
  obtain ⟨h1, h2, h3, h4⟩ := cfgReset_valid hv
  refine ⟨hpower, hpos, fun l _ => by rw [hdir, lines_get_all], ?_⟩
  rw [hcfg]
  exact ⟨h1, hl, h2, h3, h4⟩

theorem resetWith_hostBoundary {p : Config} (hv : p.valid = true) (hl : cfgGet .le p.cfgReset = false) :
    HostBoundary (State.resetWith p) :=
  ⟨atBoundary_of_reset_values hv hl rfl rfl rfl rfl, rfl, hl, fun h => h⟩

/-- An instruction keeps the parameters and the inputs (R151). -/
theorem exec_params_port {i : Instr} {s t : State} (e : exec i s = .next t) :
    t.params = s.params ∧ t.port = s.port := by
  obtain ⟨w, h, g, p, fue, -, ho⟩ | hr := exec_cases e
  · obtain ⟨hparams, -, -, -, -, hport⟩ := initOutcome_keeps ho
    exact ⟨hparams, hport⟩
  · obtain ⟨hparams, -, hport, -⟩ := reach_kept hr
    exact ⟨hparams, hport⟩

/-- A command takes a boundary of a host-driven run to one (R25). -/
theorem exec_hostBoundary {i : Instr} {s t : State} (hi : hostCommands i) (hs : HostBoundary s)
    (e : exec i s = .next t) : HostBoundary t := by
  obtain ⟨hb, hd, hl, h2⟩ := hs
  obtain ⟨hparams, hport⟩ := exec_params_port e
  obtain ⟨hb', hcfg⟩ := command_boundary hi hb e
  refine ⟨hb', by rwa [State.hostDriven, hport], by rwa [hparams], fun hr => ?_⟩
  rw [hparams] at hr
  obtain h | h := hcfg <;> rw [h, h2 hr]
  rfl

/-- Settles O9: reset gives a command boundary, and idling, a reset event and each command keep it: the sequences end
with POWER_OFF, and the other commands touch nothing it speaks of. -/
theorem commandBoundaryKept : Obligations.CommandBoundaryKept := by
  refine ⟨fun p hv hl => resetWith_hostBoundary hv hl, fun s t hs e => ?_⟩
  obtain ⟨hb, hd, hl, h2⟩ := hs
  obtain ⟨hv, ⟨-, rfl⟩ | ⟨rest, hd', rfl | ⟨i, hi, e⟩⟩⟩ := hostDriven_step_cases hd e
  · have ⟨_, hpos, _⟩ := hb
    have hidle : (s.setPhase .idle).pos = s.pos := by rw [State.setPhase_pos, hpos]; rfl
    exact ⟨atBoundary_congr (s := s) rfl hidle (fun _ _ => rfl) rfl hb, hd, hl, h2⟩
  · exact ⟨atBoundary_of_reset_values hv hl rfl rfl rfl rfl, hd', hl, fun h => h⟩
  · exact exec_hostBoundary (s := { s with port := rest }) hi ⟨hb, hd', hl, h2⟩ e

/-! ### The partial counter (R16, R189) -/

/-- What no instruction but INIT and REFRESH touches. -/
def SameCounter (s t : State) : Prop :=
  t.conf = s.conf ∧ t.puc = s.puc ∧ t.flags.blockPartial = s.flags.blockPartial

theorem counterBounded_congr {s t : State} (h : SameCounter s t) (hs : CounterBounded s) : CounterBounded t := by
  obtain ⟨h1, h2, h3⟩ := h
  unfold CounterBounded at hs ⊢
  rwa [h1, h2, h3]

theorem pinOperation_sameCounter {i : Instr} {s t : State} (hi : pinOperations i) (e : exec i s = .next t) :
    SameCounter s t := by
  have h := pinOperation_keeps hi e
  exact ⟨h.conf, h.puc, by rw [h.flags]⟩

/-- The operation of a phase touches no counter: it acts on the pins, or it is DIFF or COMMIT (R76). -/
theorem phase_sameCounter {x : Phase} {s t : State} (e : exec (instrOfPhase x) s = .next t) : SameCounter s t := by
  cases x with
  | diff =>
    obtain ⟨-, h, -⟩ := runDiff_frame e
    rw [h]
    exact ⟨rfl, rfl, rfl⟩
  | commit =>
    obtain ⟨-, h, -⟩ := runCommit_frame e
    rw [h]
    exact ⟨rfl, rfl, rfl⟩
  | _ => exact pinOperation_sameCounter (by simp [pinOperations, instrOfPhase]) e

theorem descriptor_sameCounter {i : Instr} {s t : State} (hi : descriptors i) (e : exec i s = .next t) :
    SameCounter s t := by
  obtain ⟨h, -⟩ := descriptorFrame i s t hi e
  rw [h]
  exact ⟨rfl, rfl, rfl⟩

/-- CLEAN touches no counter (R188). -/
theorem clean_sameCounter {s t : State} (e : exec .clean s = .next t) : SameCounter s t := by
  obtain ⟨-, rfl⟩ | ⟨-, -, e⟩ := command_eq_next.mp e
  · exact ⟨rfl, rfl, rfl⟩
  · obtain ⟨hk, hpuc, hflags, -⟩ := cleanBody_keeps e
    exact ⟨hk.conf, hpuc, by rw [hflags]⟩

/-- INIT restarts the counter, or leaves it alone (R162, R201). -/
theorem initOutcome_counterBounded {w h : BitVec 16} {g p : Bool} {fue : BitVec 16} {s t : State}
    (ho : InitOutcome w h g p fue s t) (hs : CounterBounded s) : CounterBounded t := by
  cases ho with
  | ignored => exact hs
  | failed => exact counterBounded_congr ⟨rfl, rfl, rfl⟩ hs
  | kept => exact fun _ => ⟨by simp, fun _ => by simp⟩
  | fresh => exact fun _ => ⟨by simp, fun _ => by simp⟩

/-- After the forced-full check the counter is bounded as soon as it does not exceed `FUE` (R189). -/
theorem forcedFullCheck_counterBounded {s : State} (h : 0 < s.conf.fue.toNat → s.puc.toNat ≤ s.conf.fue.toNat) :
    CounterBounded (forcedFullCheck s) := by
  obtain ⟨hk, hpuc, -, -, -, -, hflags⟩ := forcedFullCheck_keeps s
  unfold CounterBounded
  rw [hk.conf, hpuc, hflags]
  refine fun h0 => ⟨h h0, fun heq => ?_⟩
  simp [fullIsDue, h0, heq]

/-- A partial refresh counts up from below `FUE`, since at `FUE` it is blocked (R184, R189). -/
theorem refreshPartial_puc_le {s t : State} (hs : CounterBounded s) (e : refreshPartial s = .next t)
    (h0 : 0 < t.conf.fue.toNat) : t.puc.toNat ≤ t.conf.fue.toNat := by
  obtain ⟨-, hallowed, hk, hpuc, -⟩ := refreshPartial_keeps e
  simp only [partialAllowed, Bool.and_eq_true, Bool.not_eq_true'] at hallowed
  rw [hk.conf] at h0 ⊢
  obtain ⟨hle, hblocked⟩ := hs h0
  have hne : s.puc.toNat ≠ s.conf.fue.toNat := fun heq => by simp [hblocked heq] at hallowed
  have hfue : s.conf.fue.toNat < 2 ^ 16 := s.conf.fue.isLt
  have hone : (1 : BitVec 32).toNat = 1 := rfl
  rw [hpuc, BitVec.toNat_add, hone]
  omega

/-- REFRESH keeps the counter within `FUE`: greyscale leaves it, a partial refresh counts up from below, a full one
clears it (R183 to R185, R189). -/
theorem refresh_counterBounded {s t : State} (hs : CounterBounded s) (e : exec .refresh s = .next t) :
    CounterBounded t := by
  obtain ⟨-, rfl⟩ | ⟨-, -, e⟩ := command_eq_next.mp e
  · exact hs
  obtain ⟨u, rfl, ⟨-, hu⟩ | ⟨-, -, hu⟩ | ⟨-, -, hu⟩⟩ := refreshBody_cases e <;>
    refine forcedFullCheck_counterBounded fun h0 => ?_
  · obtain ⟨-, hk, hpuc, -⟩ := refreshGrey_keeps hu
    rw [hk.conf] at h0 ⊢
    rw [hpuc]
    exact (hs h0).1
  · exact refreshPartial_puc_le hs hu h0
  · obtain ⟨-, -, hpuc, -⟩ := refreshFullMono_keeps hu
    simp [hpuc]

/-- A command keeps the counter within `FUE` (R16). -/
theorem command_counterBounded {i : Instr} {s t : State} (hi : hostCommands i) (hs : CounterBounded s)
    (e : exec i s = .next t) : CounterBounded t := by
  obtain ⟨w, h, g, p, fue, rfl⟩ | ⟨x, y, c, rfl⟩ | ⟨c, rfl⟩ | rfl | rfl := hi
  · exact initOutcome_counterBounded (execInit_outcome e) hs
  · rw [exec_setPixel_keeps e]
    exact hs
  · rw [exec_fill_keeps e]
    exact hs
  · exact counterBounded_congr (clean_sameCounter e) hs
  · exact refresh_counterBounded hs e

/-- Settles O15: a code spells a command, a descriptor or the operation of a phase; only INIT and REFRESH touch the
counter, and both keep it within `FUE`. -/
theorem partialCountNeverExceedsFue : Obligations.PartialCountNeverExceedsFue := by
  intro s t hs e
  obtain ⟨-, ⟨-, rfl⟩ | ⟨rest, -, -, rfl⟩ | ⟨c, i, rest, -, hc, e⟩⟩ := step_cases e
  · exact hs
  · exact fun h => absurd h (by simp [resetEvent, State.resetWith])
  · have hs' : CounterBounded { s with port := rest } := hs
    obtain hi | hi | ⟨x, rfl⟩ := decoded_cases hc
    · exact command_counterBounded hi hs' e
    · exact counterBounded_congr (descriptor_sameCounter hi e) hs'
    · exact counterBounded_congr (phase_sameCounter e) hs'

end Sys2Proof.Machine

/-! What every instruction keeps, the reset event, INIT, the push, the power operations, the bus word and the
descriptors (family 10_state). -/

namespace Sys2Proof.Machine

/-! ### What every instruction keeps -/

/-- Settles O12: no instruction writes the parameters, and reset keeps them. -/
theorem parametersNeverWritten : Obligations.ParametersNeverWritten := by
  intro s t e
  obtain ⟨-, ⟨-, rfl⟩ | ⟨rest, -, -, rfl⟩ | ⟨c, i, rest, -, -, e⟩⟩ := step_cases e
  · rfl
  · rfl
  · obtain ⟨hparams, -⟩ := exec_params_port e
    exact hparams

/-- Settles O18: every instruction but INIT is a sequence of primitive changes, and none of these writes the
registers. -/
theorem onlyInitWritesConfiguration : Obligations.OnlyInitWritesConfiguration := by
  intro i s t e hi
  obtain ⟨w, h, g, p, fue, rfl, -⟩ | hr := exec_cases e
  · exact absurd rfl (hi w h g p fue)
  · obtain ⟨-, hconf, -⟩ := reach_kept hr
    exact hconf

/-- Every primitive change appends its events, if it has any (R32). -/
theorem prim_trace {s t : State} (h : Prim s t) : s.io.trace <+: t.io.trace := by
  cases h with
  | panelDirs d =>
    obtain ⟨htrace, -⟩ := forLines_pinDir d panelFacing s.io
    rw [State.pinDirs_io, htrace]
    exact List.prefix_append _ _
  | pulse d =>
    obtain ⟨htrace, -⟩ := pulseWord_spec d s
    rw [htrace]
    exact List.prefix_append _ _
  | store b p v _ _ h =>
    obtain ⟨-, rfl⟩ := writeByte_eq_next.mp h
    exact List.prefix_rfl
  | _ => simp

/-- INIT appends its 57 events, or none (R162, R201). -/
theorem initOutcome_trace {w h : BitVec 16} {g p : Bool} {fue : BitVec 16} {s t : State}
    (ho : InitOutcome w h g p fue s t) : s.io.trace <+: t.io.trace := by
  cases ho with
  | ignored => exact List.prefix_rfl
  | failed => exact List.prefix_rfl
  | kept =>
    rw [configure_trace]
    exact List.prefix_append _ _
  | fresh =>
    rw [configure_trace]
    exact List.prefix_append _ _

/-- Settles O19: every outcome of INIT and every primitive change only appends. -/
theorem traceOnlyGrows : Obligations.TraceOnlyGrows := by
  intro i s t e
  obtain ⟨w, h, g, p, fue, -, ho⟩ | hr := exec_cases e
  · exact initOutcome_trace ho
  · exact reach_rel (R := fun a b => a.io.trace <+: b.io.trace) (fun _ => List.prefix_rfl) List.IsPrefix.trans
      prim_trace hr

/-! ### Idle and reset (R34, R230) -/

/-- Settles O6: an empty port runs IDLE, and IDLE sets `PHASE`. -/
theorem stepIdlesWithoutInput : Obligations.StepIdlesWithoutInput :=
  fun _ => ⟨rfl, step_of_empty_port⟩

/-- Settles O7: the step takes a pending reset, which is refused with the power on and gives the values of R34
otherwise. -/
theorem resetEventGivesResetValues : Obligations.ResetEventGivesResetValues := by
  intro s rest hv hport
  rw [step_of_reset hv hport]
  refine ⟨fun hp => ?_, fun hp => ?_⟩
  · simp only [takeReset, hp, if_true]
  · refine ⟨resetEvent { s with port := rest }, takeReset_eq_next.mpr ⟨hp, rfl⟩, rfl, rfl, rfl, rfl, rfl, rfl, rfl,
      fun l => ?_, fun l => ?_, rfl, rfl⟩
    · exact lines_get_all false l
    · exact lines_get_all Dir.input l

/-- The fields of `STATUS` (R19). -/
theorem status_fields (s : State) :
    s.status.getLsbD 0 = s.flags.initialised ∧ s.status.getLsbD 1 = s.flags.failed ∧
      s.status.getLsbD 2 = s.flags.power ∧ s.status.getLsbD 3 = s.flags.blockPartial ∧
      s.status.extractLsb' 4 32 = s.puc := by
  refine ⟨?_, ?_, ?_, ?_, ?_⟩
  case refine_5 =>
    apply BitVec.eq_of_getLsbD_eq
    intro i hi
    simp only [State.status, BitVec.getLsbD_extractLsb', BitVec.getLsbD_append]
    simp [hi, Nat.add_comm 4 i]
  all_goals
    simp only [State.status, BitVec.getLsbD_append]
    simp

/-- Settles O8: the invariants read off the reset values, and the layout of `STATUS`. -/
theorem resetMeetsTheInvariants : Obligations.ResetMeetsTheInvariants := by
  refine ⟨fun p hv => ⟨resetWith_hostBoundary hv, by simp [BuffersSized, State.resetWith], rfl, fun h => ?_,
    ⟨fun i => lines_get_all false _, rfl⟩, fun h => absurd h (by simp [State.resetWith]),
    by simp [State.status, State.resetWith]⟩, status_fields⟩
  exact absurd h (by simp [State.resetWith])

/-! ### INIT of a new geometry (R162) -/

/-- A geometry the block does not have is not the same geometry. -/
theorem sameGeometry_eq_false {w h : BitVec 16} {g : Bool} {s : State}
    (hnew : ¬(s.flags.initialised = true ∧ s.conf.w = w ∧ s.conf.h = h ∧ s.conf.grey = g)) :
    sameGeometry w h g s = false := by
  rw [← Bool.not_eq_true]
  simpa [sameGeometry, and_assoc] using hnew

/-- R172, as the conditions on the two operands. -/
theorem geometryAdmitted_iff {w h : BitVec 16} :
    geometryAdmitted w h = true ↔ w.toNat % 4 = 0 ∧ 4 ≤ w.toNat ∧ 1 ≤ h.toNat := by
  simp only [geometryAdmitted, Bool.and_eq_true, decide_eq_true_eq, and_assoc]

/-- INIT of a new admitted geometry that fits releases, allocates and configures (R162). -/
theorem exec_init_fresh {w h : BitVec 16} {g p : Bool} {fue : BitVec 16} {s : State} (hf : s.flags.failed = false)
    (hg : geometryAdmitted w h = true) (hs : sameGeometry w h g s = false) (hn : need w h g ≤ s.params.fbCapacity) :
    exec (.init w h g p fue) s = .next (configure w h g p fue (allocateBuffers w h g (releaseBuffers s))) := by
  refine command_eq_next.mpr (.inr ⟨hf, by simp, ?_⟩)
  simp [initBody, hg, hs, Nat.not_lt.mpr hn]

/-- The offsets of newly allocated buffers (R161). -/
theorem allocateBuffers_offsets (w h : BitVec 16) (g : Bool) (s : State) :
    (allocateBuffers w h g s).bufs.buf0.offsets = List.range (bufferLength w h g) ∧
      (allocateBuffers w h g s).bufs.buf1.offsets = (if g then [] else List.range (bufferLength w h g)) ∧
      (allocateBuffers w h g s).bufs.buf2.offsets = (if g then [] else List.range (2 * bufferLength w h g)) := by
  cases g <;> simp [allocateBuffers]

/-- Settles O22: INIT is a release, an allocation and `configure`; the pins follow from the directions it leaves. -/
theorem initAllocatesAndConfigures : Obligations.InitAllocatesAndConfigures := by
  intro s w h g p fue hf h4 hw hh hnew hn
  refine ⟨_, exec_init_fresh hf (geometryAdmitted_iff.mpr ⟨h4, hw, hh⟩) (sameGeometry_eq_false hnew) hn, ?_⟩
  obtain ⟨hb0, hb1, hb2⟩ := allocateBuffers_offsets w h g (releaseBuffers s)
  have hout : ∀ l ∈ alwaysOutputs, l ∉ panelFacing := fun l hl hp => mem_panelFacing.mp hp hl
  have hpanelEn : Line.panelEn ∈ alwaysOutputs := by decide
  refine ⟨by simp, by simp, by simp [hf], by simpa using hb0, by simpa using hb1, by simpa using hb2,
    configure_trace .., fun l hl => ?_, fun l hl => ?_, configure_panelEn .., fun l hl => ?_, ?_,
    by simp, by simp, by simp, by simp, by simp, by simp⟩
  · rw [configure_dir, if_neg (hout l hl)]
  · rw [configure_dir, if_pos hl]
  · exact level_of_input (by rw [configure_dir, if_pos hl])
  · rw [level_of_output (by rw [configure_dir, if_neg (hout _ hpanelEn)]), configure_panelEn]

/-! ### CFG_PUSH (R100) -/

/-- Settles O31: CFG_PUSH is one push of `CFG`. -/
theorem cfgPushShiftsOutCfg : Obligations.CfgPushShiftsOutCfg := by
  intro s
  refine ⟨{ s with io := s.io.push s.cfg }, execCfgPush_eq s, rfl, push_trace _ _, pushEvents_length _, push_srOut _ _,
    push_dir _ _, ?_, ?_, ?_, fun l hstr hclk hdata => ?_⟩
  · simp [push_latch]
  · simp [push_latch]
  · simp [push_latch]
  · simp [push_latch, hstr, hclk, hdata]

/-! ### The power operations (R110 to R112) -/

/-- The lines of the external register do not face the panel (R29). -/
theorem panelFacing_not_register {l : Line} (hl : l ∈ panelFacing) : l ∉ [Line.cfgClk, .cfgData, .cfgStr] := by
  revert l
  decide

/-- Settles O32: the steps of POWER_ON, and the levels of the lines it makes outputs. -/
theorem powerOnSequence : Obligations.PowerOnSequence := by
  intro s hp
  obtain ⟨htrace, hcfg, hdir, hlatch, hout, heq⟩ := powerOn_spec hp
  have hkeep : ∀ l ∈ panelFacing, (powerOn s).io.latch.get l = s.io.latch.get l :=
    fun l hl => hlatch l (panelFacing_not_register hl)
  have hdrive : ∀ l ∈ panelFacing, (powerOn s).io.dir.get l = .output := fun l hl => by rw [hdir, if_pos hl]
  refine ⟨powerOn s, rfl, ?_, htrace, powerOnEvents_length _, hdrive, fun l hl => by rw [hdir, if_neg hl], hkeep,
    fun l hl => by rw [level_of_output (hdrive l hl), hkeep l hl], by rw [hout, hcfg], fun h2 => ?_⟩
  · rw [hcfg] at heq
    exact heq
  · rw [hcfg, h2]
    decide

/-- The position of data line `i` in the port word. -/
def dataBit (m : PinMap) (i : Fin 8) : Fin 32 :=
  match i with
  | 0 => m.d0
  | 1 => m.d1
  | 2 => m.d2
  | 3 => m.d3
  | 4 => m.d4
  | 5 => m.d5
  | 6 => m.d6
  | 7 => m.d7

theorem portBit_dataLine (m : PinMap) (i : Fin 8) : portBit m (dataLine i) = some (dataBit m i) := by
  fin_cases i <;> rfl

/-- When every mapped latch is 0 the data and clock latches are (R121). -/
theorem dataLinesLow_of_cleared {s : State} {m : PinMap}
    (h : ∀ l, (portBit m l).isSome = true → s.io.latch.get l = false) : DataLinesLow s :=
  ⟨fun i => h _ (by rw [portBit_dataLine]; rfl), h .clk rfl⟩

/-- The mapped lines face the panel (R29, R31). -/
theorem panelFacing_of_portBit {m : PinMap} {l : Line} (h : (portBit m l).isSome = true) : l ∈ panelFacing := by
  cases l with
  | cfgClk => cases h
  | cfgData => cases h
  | cfgStr => cases h
  | panelEn => cases h
  | _ => decide

/-- Settles O33: the steps of POWER_OFF, the clear of the bus, and the lines it makes inputs. -/
theorem powerOffSequence : Obligations.PowerOffSequence := by
  intro s hp
  obtain ⟨htrace, hcfg, hdir, hlatch, hout, heq⟩ := powerOff_spec hp
  have hinput : ∀ l ∈ panelFacing, (powerOff s).io.dir.get l = .input := fun l hl => by rw [hdir, if_pos hl]
  have hlow : ∀ l, (portBit s.params.pinmap l).isSome = true → (powerOff s).io.latch.get l = false := fun l hl => by
    rw [hlatch l (panelFacing_not_register (panelFacing_of_portBit hl)), if_pos hl]
  refine ⟨powerOff s, rfl, ?_, htrace, powerOffEvents_length _ _, hinput, fun l hl => by rw [hdir, if_neg hl],
    fun l hl => level_of_input (hinput l hl), dataLinesLow_of_cleared hlow, hlatch .sofLine (by decide),
    hlatch .srcEn (by decide), by rw [hout, hcfg], fun h2 => ?_⟩
  · rw [hcfg] at heq
    exact heq
  · rw [hcfg, h2]
    decide

/-! ### The bus word (R77, R121 to R124) -/

theorem positions_eq (m : PinMap) : m.positions = List.ofFn (dataBit m) ++ [m.clk] := rfl

/-- `pack` holds 1 exactly at the positions of the data lines whose bit is 1 (R77). -/
theorem pack_getLsbD (m : PinMap) (d : Byte) (j : Nat) :
    (pack m d).getLsbD j = true ↔ ∃ i : Fin 8, d.getLsbD i.val = true ∧ j = (dataBit m i).val := by
  simp only [pack, BitVec.getLsbD_or, portOne_getLsbD]
  simp [Fin.exists_fin_succ, dataBit, or_assoc]

/-- With nine distinct positions the bus word holds bit `i` of the byte at the position of data line `i` (R77). -/
theorem busWord_dataBit {m : PinMap} (hm : m.positions.Nodup) (d : Byte) (i : Fin 8) :
    (pack m d ||| clkMask m).getLsbD (dataBit m i).val = d.getLsbD i.val := by
  rw [positions_eq, List.nodup_append, List.nodup_ofFn] at hm
  obtain ⟨hinj, -, hclk⟩ := hm
  have hi : (dataBit m i).val ≠ m.clk.val :=
    Fin.val_ne_of_ne (hclk _ (List.mem_ofFn.mpr ⟨i, rfl⟩) _ List.mem_cons_self)
  rw [BitVec.getLsbD_or, clkMask, portOne_getLsbD, decide_eq_false hi, Bool.and_false, Bool.or_false, Bool.eq_iff_iff,
    pack_getLsbD]
  constructor
  · rintro ⟨k, hk, he⟩
    rwa [hinj (Fin.val_inj.mp he)]
  · exact fun h => ⟨i, h, rfl⟩
/-- The bus word holds 1 at the clock's position (R77). -/
theorem busWord_clk (m : PinMap) (d : Byte) : (pack m d ||| clkMask m).getLsbD m.clk.val = true := by
  rw [BitVec.getLsbD_or, clkMask, portOne_getLsbD]
  simp

/-- The nine positions of valid parameters are distinct (R6). -/
theorem positions_nodup {p : Config} (h : p.valid = true) : p.pinmap.positions.Nodup := by
  simp only [Config.valid, Bool.and_eq_true, decide_eq_true_eq] at h
  tauto

/-- Settles O38: each mapped latch takes its bit of the bus word, and a line presents its latch while it is an output.
-/
theorem busWordShowsExactlyItsByte : Obligations.BusWordShowsExactlyItsByte := by
  intro s d hv hlow t
  have hdata : ∀ i : Fin 8, t.io.latch.get (dataLine i) = d.getLsbD i.val := fun i => by
    rw [State.portSet_io, portSet_latch, portLatch_get, portBit_dataLine]
    simp only [busWord_dataBit (positions_nodup hv), hlow.1 i]
    cases d.getLsbD i.val <;> rfl
  have hclk : t.io.latch.get .clk = true := by
    rw [State.portSet_io, portSet_latch, portLatch_get]
    simp only [portBit, busWord_clk, if_true]
  refine ⟨hdata, hclk, fun l hl => ?_, fun i hi => ?_, fun hc => ?_, fun l hl => level_of_input hl⟩
  · rw [State.portSet_io, portSet_latch, portLatch_get, hl]
  · rw [← hdata]
    exact level_of_output hi
  · rw [← hclk]
    exact level_of_output hc

/-- COL_WORD's levels: the bus low again, every other line as before (R124). -/
theorem colWord_latch (s : State) (l : Line) :
    (colWord s).io.latch.get l = if (portBit s.params.pinmap l).isSome then false else s.io.latch.get l := by
  obtain ⟨-, hlatch, -⟩ := pulseWord_spec s.work.drv (s.setPhase .rowClock)
  exact hlatch l

/-- HSCAN_START's levels: `SRC_EN` high, the bus low again, every other line as before (R123). -/
theorem hscanStart_latch (s : State) (l : Line) :
    (hscanStart s).io.latch.get l =
      if l = .srcEn then true else if (portBit s.params.pinmap l).isSome then false else s.io.latch.get l := by
  obtain ⟨-, hlatch, -⟩ := pulseWord_spec s.work.drv ((s.setPhase .hscanStart).pinWrite .srcEn false)
  have hio : (hscanStart s).io =
      (pulseWord s.work.drv ((s.setPhase .hscanStart).pinWrite .srcEn false)).io.pinWrite .srcEn true := rfl
  rw [hio, pinWrite_latch, lines_get_set, hlatch]
  by_cases hl : l = .srcEn <;> simp [hl]

/-- An operation of a pass that keeps `CFG`, the working registers and the position changes the pins alone. -/
theorem eq_of_scanKeeps {s t : State} (h : ScanKeeps s t) (hcfg : t.cfg = s.cfg) (hwork : t.work = s.work)
    (hpos : t.pos = s.pos) : t = { s with io := t.io } :=
  state_ext h.params h.conf h.flags h.puc hcfg h.bufs rfl hpos hwork h.port h.draws

/-- Settles O36: both operations pulse the word in `DRV`; HSCAN_START pulses `SRC_EN` around it. -/
theorem hscanStartAndColWordPulse : Obligations.HscanStartAndColWordPulse := by
  refine fun s => ⟨⟨hscanStart s, rfl, ?_⟩, ⟨colWord s, rfl, ?_⟩⟩
  · obtain ⟨htrace, hcfg, hwork, hpos, hk⟩ := hscanStart_spec s
    refine ⟨eq_of_scanKeeps hk hcfg hwork hpos, htrace,
      dataLinesLow_of_cleared (m := s.params.pinmap) fun l hl => ?_, ?_, hk.dir, ?_⟩
    · have hne : l ≠ .srcEn := by
        rintro rfl
        cases hl
      rw [hscanStart_latch, if_neg hne, if_pos hl]
    · rw [hscanStart_latch, if_pos rfl]
    · simp [hscanStart, inPhase, hscanSteps, pinWrite_srOut]
  · obtain ⟨htrace, hcfg, hwork, hpos, hk⟩ := colWord_spec s
    refine ⟨eq_of_scanKeeps hk hcfg hwork hpos, htrace,
      dataLinesLow_of_cleared (m := s.params.pinmap) fun l hl => by rw [colWord_latch, if_pos hl], ?_, hk.dir, ?_⟩
    · rw [colWord_latch]
      rfl
    · simp [colWord, inPhase]

/-! ### Descriptors (R142 to R145) -/

/-- A descriptor with a word at `KW` loads it into `DRV` (R12, R145; log entry 11). -/
theorem exec_descriptor_of_word {d : PassDesc} {s : State} {v : Byte} (h : word d s.work.kw.toNat s = .next v) :
    exec (instrOfDesc d) s = .next { s with work := { s.work with drv := v } } := by
  rw [exec_instrOfDesc]
  exact loadWord_eq_next.mpr ⟨v, h, rfl⟩

/-- Settles O40: the word of a constant descriptor is its constant. -/
theorem constantDescriptorsLoadDrv : Obligations.ConstantDescriptorsLoadDrv :=
  fun _ => ⟨exec_descriptor_of_word (d := .const .white) rfl, exec_descriptor_of_word (d := .const .black) rfl,
    exec_descriptor_of_word (d := .const .discharge) rfl, exec_descriptor_of_word (d := .const .skip) rfl⟩

/-- Settles O41: both tables are indexed by the nibble the scan order gives. -/
theorem monoDescriptorsLoadDrv : Obligations.MonoDescriptorsLoadDrv := by
  rintro s k hi hb hg rfl hk
  obtain ⟨v, hv, hn⟩ := scanNibble_total hi hb hg hk
  refine ⟨v, _, hv, rfl, exec_descriptor_of_word (d := .monoLutb) ?_, exec_descriptor_of_word (d := .monoLut2) ?_⟩
  · simp only [word, hg, hn]
    rfl
  · simp only [word, hg, hn]
    rfl

/-- The level of a nibble is its low three bits (R43). -/
theorem levelOf_hiNibble (v : Byte) : levelOf (hiNibble v) = v.extractLsb' 4 3 := by
  simp only [levelOf, hiNibble]
  apply BitVec.eq_of_getLsbD_eq
  intro i hi
  have h4 : i < 4 := by omega
  simp [hi, h4]

theorem levelOf_loNibble (v : Byte) : levelOf (loNibble v) = v.extractLsb' 0 3 := by
  simp only [levelOf, loNibble]
  apply BitVec.eq_of_getLsbD_eq
  intro i hi
  simp [hi]

/-- Settles O42: a byte of `BUF2` from its end, and two of `BUF0`, whose four levels index `WAVEFORM3`. -/
theorem diffAndGreyDescriptorsLoadDrv : Obligations.DiffAndGreyDescriptorsLoadDrv := by
  rintro s k sub hi hb rfl hk
  have h4 := rows_mul_wpr s
  refine ⟨fun hg => ?_, fun hg => ?_⟩
  · have hl := len_mono hg
    obtain ⟨v, hv, hr⟩ := readBack_of_offsets (b := .buf2) (buffersSized_mono hi hb hg).2
      (show s.work.kw.toNat < 2 * s.len by omega)
    refine ⟨v, hv, exec_descriptor_of_word (d := .diff) ?_⟩
    simp only [word, hg, hr]
    rfl
  · have hl := len_grey hg
    obtain ⟨a, ha, hra⟩ := readBack_of_offsets (b := .buf0) (buffersSized_buf0 hi hb)
      (show 2 * s.work.kw.toNat < s.len by omega)
    obtain ⟨b, hb', hrb⟩ := readBack_of_offsets (b := .buf0) (buffersSized_buf0 hi hb)
      (show 2 * s.work.kw.toNat + 1 < s.len by omega)
    have hoff : s.len - 1 - (2 * s.work.kw.toNat + 1) = s.len - 2 - 2 * s.work.kw.toNat := by omega
    rw [hoff] at hb'
    refine ⟨a, b, ha, hb', exec_descriptor_of_word (d := .grey sub) ?_⟩
    simp only [word, hg, hra, hrb, if_true, andThen_next, greyDrive, levelOf_hiNibble, levelOf_loNibble]

end Sys2Proof.Machine

/-! The buffers as memory (family 20_memory): the canonical form every step keeps, COMMIT, and PASS, which writes no
buffer. -/

namespace Sys2Proof.Machine

/-! ### The canonical form (R40, R41; log entry 13) -/

/-- The canonical form of the three buffers is a fact about their offsets alone. -/
theorem buffers_wf_congr {a b : Buffers} (h : ∀ i, (b.get i).offsets = (a.get i).offsets) : b.wf = a.wf := by
  rw [Bool.eq_iff_iff, buffers_wf_iff, buffers_wf_iff]
  exact forall_congr' fun i => by rw [wf_congr (h i)]

/-- Newly allocated buffers are canonical (R161). -/
theorem allocateBuffers_wf (w h : BitVec 16) (g : Bool) (s : State) : (allocateBuffers w h g s).bufs.wf = true := by
  cases g <;> simp [allocateBuffers, Buffers.wf, Memory.wf, wf_alloc]

/-- INIT keeps canonical buffers, releases them, or allocates new ones (R162, R201). -/
theorem initOutcome_wf {w h : BitVec 16} {g p : Bool} {fue : BitVec 16} {s t : State}
    (ho : InitOutcome w h g p fue s t) (hs : s.bufs.wf = true) : t.bufs.wf = true := by
  cases ho with
  | ignored => exact hs
  | kept => rwa [configure_bufs]
  | failed => rfl
  | fresh =>
    rw [configure_bufs]
    exact allocateBuffers_wf ..

/-- A primitive change keeps every offset, and with them the canonical form. -/
theorem prim_wf {s t : State} (h : Prim s t) (hs : s.bufs.wf = true) : t.bufs.wf = true := by
  obtain ⟨-, -, -, -, -, hoffsets⟩ := prim_kept h
  rwa [buffers_wf_congr hoffsets]

/-- Settles O11: primitive changes keep every offset, INIT allocates canonical buffers, and reset leaves none. -/
theorem memoryStaysCanonical : Obligations.MemoryStaysCanonical := fun _ _ hs e =>
  step_keeps (P := fun s => s.bufs.wf = true) (fun h => h) (fun _ => rfl) prim_wf initOutcome_wf hs e

/-! ### COMMIT (R169) -/

/-- Settles O45: COMMIT makes `BUF0` the pending buffer, and a pixel depends on the bytes of its buffer. -/
theorem commitCopiesPending : Obligations.CommitCopiesPending := by
  intro s hi hb hg
  have hcommit := runCommit_spec hg (buffersSized_buf0 hi hb) (buffersSized_mono hi hb hg).1
  exact ⟨_, hcommit, rfl, fun x y => pixelAt_congr rfl rfl x y⟩

/-! ### PASS (R126) -/

/-- Settles O47: a valid pattern entered with `SOF` = 1 restores `CFG`, every word of the pass exists, and a pass keeps
all but the pins, the position and the working registers. -/
theorem passMakesItsEvents : Obligations.PassMakesItsEvents := by
  intro s d hv hi hb hd hsof hle
  obtain ⟨t, ht, htrace, hcfg, hk⟩ :=
    runScan_spec (one_le_wpr hi hb) hle (vscanCfg_restored hv hsof) (word_of_fit hi hb hd)
  exact ⟨t, ht, state_ext hk.params hk.conf hk.flags hk.puc hcfg hk.bufs rfl rfl rfl hk.port hk.draws, htrace⟩

end Sys2Proof.Machine

/-! Pixels in the buffers (family 20_memory): what a byte says of its pixels, and what SET_PIXEL and FILL make of
them. -/

namespace Sys2Proof.Machine

/-! ### A pixel in its byte (R42 to R44) -/

/-- The level of grey pixel `i`, read from the byte that holds it (R43). -/
def levelIn (i : Nat) (v : Byte) : BitVec 3 :=
  levelOf (if i % 2 = 0 then hiNibble v else loNibble v)

/-- What R44 says of pixel `i`, read from the byte that holds it. -/
def pixelIn (grey : Bool) (i : Nat) (v : Byte) : Pixel :=
  if grey then .level (levelIn i v).toNat else if v.getLsbD (7 - i % 8) then .off else .on

/-- The pixel the host means by a colour, in a pixel mode (R165, R166). -/
def drawnPixel (grey : Bool) (c : Colour) : Pixel :=
  if grey then .level (greyOf c) else if c.on then .on else .off

theorem levelIn_getLsbD (i : Nat) (v : Byte) {k : Nat} (hk : k < 3) :
    (levelIn i v).getLsbD k = v.getLsbD ((if i % 2 = 0 then 4 else 0) + k) := by
  unfold levelIn
  split
  · simp [levelOf_hiNibble, hk]
  · simp [levelOf_loNibble, hk]

theorem levelIn_toNat (i : Nat) (v : Byte) :
    (levelIn i v).toNat = if i % 2 = 0 then (v.toNat / 16) % 8 else v.toNat % 8 := by
  unfold levelIn
  split
  · simp [levelOf_hiNibble, BitVec.extractLsb'_toNat, Nat.shiftRight_eq_div_pow]
  · simp [levelOf_loNibble, BitVec.extractLsb'_toNat]

/-- PixelAt is `pixelIn` of the pixel's byte (R44). -/
theorem pixelAt_eq {s : State} {x y : Nat} (b : BufId) (hx : x < s.conf.w.toNat) (hy : y < s.conf.h.toNat) :
    pixelAt b s x y = (s.byteAt b ((y * s.conf.w.toNat + x) / packingFactor s.conf.grey)).map
      (pixelIn s.conf.grey (y * s.conf.w.toNat + x)) := by
  cases hg : s.conf.grey with
  | true =>
    rw [pixelAt_grey b hg hx hy, greyPixel, Option.map_map]
    refine congrArg (Option.map · _) (funext fun v => ?_)
    simp only [Function.comp_apply, pixelIn, if_true, levelIn_toNat]
  | false =>
    rw [pixelAt_mono b hg hx hy, monoPixel, Option.map_map]
    refine congrArg (Option.map · _) (funext fun v => ?_)
    simp only [Function.comp_apply, pixelIn]
    cases v.getLsbD (7 - (y * s.conf.w.toNat + x) % 8) <;> rfl

/-! ### A pixel written into its byte (R42, R43, R164) -/

/-- The mask of pixel `i` is the one bit R44 reads it from (R42). -/
theorem pixelMask_getLsbD (i j : Nat) : (pixelMask i).getLsbD (7 - j % 8) = decide (j % 8 = i % 8) := by
  have hbit : ∀ a b : Fin 8, (0x80#8 >>> a.val).getLsbD (7 - b.val) = decide (b.val = a.val) := by decide
  exact hbit ⟨i % 8, Nat.mod_lt _ (by omega)⟩ ⟨j % 8, Nat.mod_lt _ (by omega)⟩

/-- Writing a monochrome pixel sets its bit and no other (R46, R165). -/
theorem putPixel_getLsbD (i j : Nat) (on : Bool) (v : Byte) :
    (putPixel i on v).getLsbD (7 - j % 8) = if j % 8 = i % 8 then !on else v.getLsbD (7 - j % 8) := by
  have hlt : 7 - j % 8 < 8 := by omega
  cases on with
  | true =>
    simp only [putPixel, if_true, BitVec.getLsbD_and, BitVec.getLsbD_not, pixelMask_getLsbD, hlt]
    by_cases h : j % 8 = i % 8 <;> simp [h]
  | false =>
    simp only [putPixel, Bool.false_eq_true, if_false, BitVec.getLsbD_or, pixelMask_getLsbD]
    by_cases h : j % 8 = i % 8 <;> simp [h]

/-- R166's level has three bits. -/
theorem greyOf_lt (c : Colour) : greyOf c < 8 := by
  have hr : c.r.toNat < 256 := c.r.isLt
  have hgr : c.gr.toNat < 256 := c.gr.isLt
  have hb : c.b.toNat < 256 := c.b.isLt
  simp only [greyOf, luminance]
  omega

theorem greyByte_toNat (c : Colour) : (greyByte c).toNat = greyOf c := by
  have h := greyOf_lt c
  rw [greyByte, BitVec.toNat_ofNat]
  omega

theorem greyByte_high (c : Colour) {k : Nat} (h8 : k < 8) (hk : 3 ≤ k) : (greyByte c)[k] = false := by
  rw [← BitVec.getLsbD_eq_getElem h8, ← BitVec.testBit_toNat, greyByte_toNat]
  exact Nat.testBit_lt_two_pow (lt_of_lt_of_le (greyOf_lt c) (Nat.pow_le_pow_right (n := 2) (by omega) hk))

/-- The level a byte of level `g` holds in its low nibble. -/
theorem levelIn_greyByte (c : Colour) : (levelIn 1 (greyByte c)).toNat = greyOf c := by
  have h := greyOf_lt c
  rw [levelIn_toNat, greyByte_toNat]
  simp only [Nat.one_mod, one_ne_zero, if_false]
  omega

/-- Writing a grey pixel sets its nibble's level and not that of the other nibble (R46, R164). -/
theorem levelIn_putGrey (i j : Nat) (c : Colour) (old : Byte) :
    levelIn j (putGrey i (greyByte c) old) = if j % 2 = i % 2 then levelIn 1 (greyByte c) else levelIn j old := by
  have hi := Nat.mod_two_eq_zero_or_one i
  have hj := Nat.mod_two_eq_zero_or_one j
  apply BitVec.eq_of_getLsbD_eq
  intro k hk
  unfold putGrey
  obtain hi | hi := hi <;> obtain hj | hj := hj <;>
    simp only [hi, hj, if_true, if_false, levelIn_getLsbD _ _ hk, one_ne_zero, zero_ne_one] <;>
    interval_cases k <;> simp [greyByte_high]

/-- The pixels of the byte SET_PIXEL rewrites: the drawn one where the write goes, every other as before (R164). -/
theorem pixelIn_putColour (s : State) (x y : BitVec 16) (c : Colour) (old : Byte) (j : Nat) :
    pixelIn s.conf.grey j (putColour s x y c old) =
      if j % packingFactor s.conf.grey = pixelIndex s x y % packingFactor s.conf.grey then drawnPixel s.conf.grey c
      else pixelIn s.conf.grey j old := by
  cases hg : s.conf.grey with
  | true =>
    simp only [pixelIn, putColour, drawnPixel, packingFactor, hg, if_true, levelIn_putGrey]
    split
    · rw [levelIn_greyByte]
    · rfl
  | false =>
    simp only [pixelIn, putColour, drawnPixel, packingFactor, hg, putPixel_getLsbD, Bool.false_eq_true, if_false]
    split
    · cases c.on <;> rfl
    · rfl

/-- Every pixel of the byte FILL writes is the drawn one (R167). -/
theorem pixelIn_fillByte (s : State) (c : Colour) (j : Nat) :
    pixelIn s.conf.grey j (fillByte s c) = drawnPixel s.conf.grey c := by
  cases hg : s.conf.grey with
  | true =>
    have hlevel : levelIn j (greyByte c <<< 4 ||| greyByte c) = levelIn 1 (greyByte c) := by
      apply BitVec.eq_of_getLsbD_eq
      intro k hk
      rw [levelIn_getLsbD _ _ hk, levelIn_getLsbD _ _ hk]
      obtain hj | hj := Nat.mod_two_eq_zero_or_one j <;> interval_cases k <;> simp [hj, greyByte_high]
    simp only [pixelIn, fillByte, drawnPixel, hg, if_true, hlevel, levelIn_greyByte]
  | false =>
    have hlt : 7 - j % 8 < 8 := by omega
    have hones : (0xFF#8).getLsbD (7 - j % 8) = true := BitVec.getLsbD_allOnes.trans (decide_eq_true hlt)
    cases hon : c.on <;> simp [pixelIn, fillByte, drawnPixel, hg, hon, hones]

/-! ### The buffer the host draws in (R23, R44) -/

theorem drawBuffer_mono {s : State} (hg : s.conf.grey = false) : drawBuffer s = .buf1 := by
  simp [drawBuffer, hg]

theorem drawBuffer_grey {s : State} (hg : s.conf.grey = true) : drawBuffer s = .buf0 := by
  simp [drawBuffer, hg]

/-- The draw buffer of an initialised block has `LEN` bytes (R23). -/
theorem drawBuffer_offsets {s : State} (hi : s.flags.initialised = true) (hb : BuffersSized s) :
    (s.bufs.get (drawBuffer s)).offsets = List.range s.len := by
  cases hg : s.conf.grey with
  | true =>
    rw [drawBuffer_grey hg]
    exact buffersSized_buf0 hi hb
  | false =>
    rw [drawBuffer_mono hg]
    exact (buffersSized_mono hi hb hg).1

/-- The byte of a pixel on the panel lies in a buffer of `LEN` bytes (R13, R45). -/
theorem pixelByte_lt_len {s : State} {x y : Nat} (hx : x < s.conf.w.toNat) (hy : y < s.conf.h.toNat) :
    (y * s.conf.w.toNat + x) / packingFactor s.conf.grey < s.len := by
  have hindex : y * s.conf.w.toNat + x < s.conf.w.toNat * s.conf.h.toNat :=
    calc y * s.conf.w.toNat + x < y * s.conf.w.toNat + s.conf.w.toNat := by omega
      _ = s.conf.w.toNat * (y + 1) := by ring
      _ ≤ s.conf.w.toNat * s.conf.h.toNat := Nat.mul_le_mul_left _ hy
  cases hg : s.conf.grey with
  | true =>
    rw [len_grey hg]
    simp only [packingFactor, if_true]
    omega
  | false =>
    rw [len_mono hg]
    simp only [packingFactor, Bool.false_eq_true, if_false]
    omega

/-- Pixels at different places have different indices (R44). -/
theorem index_inj {w x y x' y' : Nat} (hx : x < w) (hx' : x' < w) (h : y * w + x = y' * w + x') :
    x = x' ∧ y = y' := by
  have hw : 0 < w := by omega
  have hrow : ∀ a b : Nat, b < w → (a * w + b) / w = a := fun a b hb => by
    rw [Nat.mul_comm, Nat.mul_add_div hw, Nat.div_eq_of_lt hb, Nat.add_zero]
  have hy : y = y' := by rw [← hrow y x hx, h, hrow y' x' hx']
  subst hy
  exact ⟨Nat.add_left_cancel h, rfl⟩

/-- A command that needs INIT runs its body in a ready block (R160). -/
theorem command_of_ready {body : State → Result State} {s : State} (hr : Ready s) : command true body s = body s := by
  obtain ⟨hi, hf⟩ := hr
  simp [command, hi, hf]

/-! ### SET_PIXEL (R164) -/

theorem onPanel_iff {s : State} {x y : BitVec 16} :
    onPanel s x y = true ↔
      0 ≤ x.toInt ∧ x.toInt < s.conf.w.toNat ∧ 0 ≤ y.toInt ∧ y.toInt < s.conf.h.toNat := by
  simp only [onPanel, Bool.and_eq_true, decide_eq_true_eq, and_assoc]

/-- `s` after a pixel write that finds `old` in the pixel's byte. -/
def withPixel (x y : BitVec 16) (c : Colour) (old : Byte) (s : State) : State :=
  { s with
    bufs := s.bufs.set (drawBuffer s)
      ((s.bufs.get (drawBuffer s)).write (pixelByte s x y) (putColour s x y c old)) }

/-- On the panel, SET_PIXEL finds its byte and rewrites it (R164). -/
theorem setPixelBody_onPanel {s : State} {x y : BitVec 16} (c : Colour) (hi : s.flags.initialised = true)
    (hb : BuffersSized s) (hp : onPanel s x y = true) :
    ∃ old, s.byteAt (drawBuffer s) (pixelByte s x y) = some old ∧
      setPixelBody x y c s = .next (withPixel x y c old s) := by
  obtain ⟨hx0, hx, hy0, hy⟩ := onPanel_iff.mp hp
  obtain ⟨old, hold⟩ := read_of_lt (drawBuffer_offsets hi hb)
    (pixelByte_lt_len (x := x.toInt.toNat) (y := y.toInt.toNat) (by omega) (by omega))
  refine ⟨old, hold, ?_⟩
  rw [setPixelBody, if_pos hp]
  exact modifyByte_eq_next.mpr ⟨old, hold, rfl⟩

theorem exec_setPixel_of_ready {s : State} (x y : BitVec 16) (c : Colour) (hr : Ready s) :
    exec (.setPixel x y c) s = setPixelBody x y c s :=
  command_of_ready hr

/-- Settles O26: the byte exists, and the rewritten one is R164's by the definitions of the two packings. -/
theorem setPixelWritesItsByte : Obligations.SetPixelWritesItsByte := by
  rintro s x y c i g hr hb hx0 hx hy0 hy rfl rfl
  obtain ⟨old, hold, h⟩ := setPixelBody_onPanel c hr.1 hb (onPanel_iff.mpr ⟨hx0, hx, hy0, hy⟩)
  rw [exec_setPixel_of_ready x y c hr, h]
  refine ⟨fun hg => ⟨old, ?_, ?_⟩, fun hg => ⟨old, ?_, ?_⟩⟩
  · rw [drawBuffer_mono hg, pixelByte, hg] at hold
    exact hold
  · simp only [withPixel, drawBuffer_mono hg, pixelByte, putColour, hg]
    rfl
  · rw [drawBuffer_grey hg, pixelByte, hg] at hold
    exact hold
  · simp only [withPixel, drawBuffer_grey hg, pixelByte, putColour, hg]
    rfl

/-- Every pixel after a pixel write (R44, R164). -/
theorem pixelAt_withPixel {s : State} {x y : BitVec 16} {c : Colour} {old : Byte} (hp : onPanel s x y = true)
    (hold : s.byteAt (drawBuffer s) (pixelByte s x y) = some old) (b : BufId) {x' y' : Nat} (hx' : x' < s.conf.w.toNat)
    (hy' : y' < s.conf.h.toNat) :
    pixelAt b (withPixel x y c old s) x' y' =
      if b = drawBuffer s ∧ x' = x.toInt.toNat ∧ y' = y.toInt.toNat then some (drawnPixel s.conf.grey c)
      else pixelAt b s x' y' := by
  obtain ⟨hx0, hx, -⟩ := onPanel_iff.mp hp
  have hwrite : writeByte (drawBuffer s) (pixelByte s x y) (putColour s x y c old) s = .next (withPixel x y c old s) :=
    writeByte_eq_next.mpr ⟨⟨old, hold⟩, rfl⟩
  have hplace : x' = x.toInt.toNat ∧ y' = y.toInt.toNat ↔ y' * s.conf.w.toNat + x' = pixelIndex s x y := by
    constructor
    · rintro ⟨rfl, rfl⟩
      rfl
    · exact index_inj hx' (by omega)
  have hleft : pixelAt b (withPixel x y c old s) x' y' =
      (if b = drawBuffer s ∧ (y' * s.conf.w.toNat + x') / packingFactor s.conf.grey = pixelByte s x y
        then some (putColour s x y c old)
        else s.byteAt b ((y' * s.conf.w.toNat + x') / packingFactor s.conf.grey)).map
          (pixelIn s.conf.grey (y' * s.conf.w.toNat + x')) := by
    rw [pixelAt_eq (s := withPixel x y c old s) b hx' hy', byteAt_write hwrite]
    rfl
  rw [hleft, pixelAt_eq b hx' hy']
  by_cases hbyte : b = drawBuffer s ∧ (y' * s.conf.w.toNat + x') / packingFactor s.conf.grey = pixelByte s x y
  · have hindex : (y' * s.conf.w.toNat + x') % packingFactor s.conf.grey =
        pixelIndex s x y % packingFactor s.conf.grey ↔ x' = x.toInt.toNat ∧ y' = y.toInt.toNat :=
      ⟨fun h => hplace.mpr (Nat.ext_div_mod hbyte.2 h), fun h => by rw [hplace.mp h]⟩
    rw [if_pos hbyte, hbyte.1, hbyte.2, hold, Option.map_some, Option.map_some, pixelIn_putColour]
    simp only [hindex, true_and]
    split <;> rfl
  · rw [if_neg hbyte, if_neg]
    rintro ⟨hdraw, hxy⟩
    exact hbyte ⟨hdraw, by rw [hplace.mp hxy]; rfl⟩

/-- Settles O27: every pixel after the write, read through `pixelIn`. -/
theorem setPixelReadsBack : Obligations.SetPixelReadsBack := by
  rintro s x y c g hr hb hx0 hx hy0 hy rfl
  have hp := onPanel_iff.mpr ⟨hx0, hx, hy0, hy⟩
  obtain ⟨old, hold, h⟩ := setPixelBody_onPanel c hr.1 hb hp
  have hread := fun b {x' y'} => pixelAt_withPixel (c := c) hp hold b (x' := x') (y' := y')
  refine ⟨_, (exec_setPixel_of_ready x y c hr).trans h, fun hg => ?_, fun hg => ?_, fun b x' y' hx' hy' hne => ?_⟩
  · rw [hread .buf1 (by omega) (by omega), if_pos ⟨(drawBuffer_mono hg).symm, rfl, rfl⟩, hg]
    rfl
  · rw [hread .buf0 (by omega) (by omega), if_pos ⟨(drawBuffer_grey hg).symm, rfl, rfl⟩, hg]
    rfl
  · rw [hread b hx' hy', if_neg hne]

/-! ### FILL (R167) -/

/-- `s` with the fill byte in every byte of the draw buffer. -/
def withFill (c : Colour) (s : State) : State :=
  { s with
    bufs := s.bufs.set (drawBuffer s) ((s.bufs.get (drawBuffer s)).map fun cell => (cell.1, fillByte s c)) }

/-- FILL makes every byte of the draw buffer the fill byte (R167). -/
theorem fillBody_spec {s : State} (c : Colour) (hi : s.flags.initialised = true) (hb : BuffersSized s) :
    fillBody c s = .next (withFill c s) :=
  fillLoop (f := fun _ => fillByte s c) (fun _ => rfl) (drawBuffer_offsets hi hb)

theorem exec_fill_of_ready {s : State} (c : Colour) (hr : Ready s) : exec (.fill c) s = fillBody c s :=
  command_of_ready hr

/-- Settles O29: the loop of FILL, and the fill byte of each mode. -/
theorem fillWritesEveryByte : Obligations.FillWritesEveryByte := by
  rintro s c g hr hb rfl
  rw [exec_fill_of_ready c hr, fillBody_spec c hr.1 hb]
  refine ⟨fun hg => ?_, fun hg => ?_⟩
  · simp only [withFill, drawBuffer_mono hg, fillByte, hg]
    rfl
  · simp only [withFill, drawBuffer_grey hg, fillByte, hg]
    rfl

/-- Every pixel of the panel after a FILL (R44, R167). -/
theorem pixelAt_withFill {s : State} (c : Colour) {x y : Nat} (hi : s.flags.initialised = true) (hb : BuffersSized s)
    (hx : x < s.conf.w.toNat) (hy : y < s.conf.h.toNat) :
    pixelAt (drawBuffer s) (withFill c s) x y = some (drawnPixel s.conf.grey c) := by
  have hbyte : (withFill c s).byteAt (drawBuffer s) ((y * s.conf.w.toNat + x) / packingFactor s.conf.grey) =
      some (fillByte s c) := by
    rw [State.byteAt, withFill, buffers_get_set, if_pos rfl]
    exact read_const _ _ (by rw [drawBuffer_offsets hi hb]; exact List.mem_range.mpr (pixelByte_lt_len hx hy))
  rw [pixelAt_eq (s := withFill c s) _ hx hy]
  exact (congrArg (Option.map _) hbyte).trans (congrArg some (pixelIn_fillByte s c _))

/-- Settles O30: every byte of the draw buffer is the fill byte, and each of its pixels is the drawn one. -/
theorem filledImageReadsBack : Obligations.FilledImageReadsBack := by
  rintro s c g hr hb rfl
  refine ⟨_, (exec_fill_of_ready c hr).trans (fillBody_spec c hr.1 hb), fun x y hx hy => ?_⟩
  have hread := pixelAt_withFill c hr.1 hb hx hy
  refine ⟨fun hg => ?_, fun hg => ?_⟩
  · rw [drawBuffer_mono hg, hg] at hread
    exact hread
  · rw [drawBuffer_grey hg, hg] at hread
    exact hread

end Sys2Proof.Machine

/-! The words of a pass as pixels, what the operations on the buffers leave unchanged, and the bytes a host-driven step
touches (family 20_memory). -/

namespace Sys2Proof.Machine

/-! ### The bytes a word of a pass is read from (R56, R57) -/

/-- With `W mod 8 = 0` the byte of word `c` of row `r`, counted from the end of the buffer, is the one that holds its four
pixels of the stored row `H - 1 - r` (R42, R56). -/
theorem scanByte_of_row {s : State} {r c : Nat} (hg : s.conf.grey = false) (h8 : s.conf.w.toNat % 8 = 0)
    (hr : r < s.rows) (hc : c < s.wpr) :
    c / 2 < s.conf.w.toNat / 8 ∧ (r * s.wpr + c) % 2 = c % 2 ∧
      s.len = (r * s.wpr + c) / 2 + 1 +
        ((s.rows - 1 - r) * (s.conf.w.toNat / 8) + (s.conf.w.toNat / 8 - 1 - c / 2)) := by
  obtain ⟨m, hm⟩ : ∃ m, s.conf.w.toNat = 8 * m := ⟨s.conf.w.toNat / 8, by omega⟩
  have hwpr : s.wpr = 2 * m := by
    simp only [State.wpr]
    omega
  obtain ⟨y, hy⟩ : ∃ y, s.rows = r + 1 + y := ⟨s.rows - 1 - r, by omega⟩
  have hlen : s.len = m * r + m + m * y := by
    have hrows : s.conf.h.toNat = r + 1 + y := hy
    have hbits : 8 * m * (r + 1 + y) = 8 * (m * r + m + m * y) := by ring
    rw [len_mono hg, hm, hrows, hbits]
    omega
  have hword : r * s.wpr = 2 * (m * r) := by
    rw [hwpr]
    ring
  have hrow : (s.rows - 1 - r) * m = m * y := by
    rw [hy, show r + 1 + y - 1 - r = y by omega, Nat.mul_comm]
  have hw8 : s.conf.w.toNat / 8 = m := by omega
  rw [hwpr] at hc
  rw [hw8, hlen, hword, hrow]
  generalize m * r = a, m * y = b
  omega

/-- The bits of a scanned nibble: the pixels of its half of the byte, the first in the highest bit (R42, R56). -/
theorem scannedNibble_getLsbD (k : Nat) (v : Byte) {j : Nat} (hj : j < 4) :
    (if k % 2 = 0 then hiNibble v else loNibble v).getLsbD (3 - j) = v.getLsbD (7 - (4 * (k % 2) + j)) := by
  have hlt : 3 - j < 4 := by omega
  obtain hk | hk := Nat.mod_two_eq_zero_or_one k
  · have hbit : 4 + (3 - j) = 7 - j := by omega
    simp [hk, hiNibble, hlt, hbit]
  · have hbit : 3 - j = 7 - (4 + j) := by omega
    rw [hbit] at hlt
    simp [hk, loNibble, hlt, hbit]

/-- The monochrome pixel at bit `7 - e` of byte `q` of a buffer (R42, R44). -/
theorem monoPixelIn_byte {s : State} {b : BufId} {q e : Nat} {v : Byte} (hv : s.byteAt b q = some v) (he : e < 8) :
    (s.byteAt b ((8 * q + e) / packingFactor false)).map (pixelIn false (8 * q + e)) =
      some (if v.getLsbD (7 - e) then .off else .on) := by
  have hdiv : (8 * q + e) / packingFactor false = q := by
    simp only [packingFactor, Bool.false_eq_true, if_false]
    omega
  have hmod : (8 * q + e) % 8 = e := by omega
  simp only [hdiv, hv, Option.map_some, pixelIn, hmod, Bool.false_eq_true, if_false]

/-- Settles O43: the word's byte, counted back from the end of the buffer, lies in the stored row `H - 1 - r`, and the
nibble's bits are its pixels. -/
theorem passRowsAreStoredRowsReversed : Obligations.PassRowsAreStoredRowsReversed := by
  intro s r c hi hb hg h8 hr hc
  obtain ⟨hcol, hodd, hlen⟩ := scanByte_of_row hg h8 hr hc
  have hk := wordIndex_lt hr hc
  have h4 := rows_mul_wpr s
  have hl := len_mono hg
  obtain ⟨v, hv, hn⟩ := scanNibble_total hi hb hg hk
  obtain ⟨d, hd, hword⟩ := readBack_of_offsets (b := .buf2) (k := r * s.wpr + c) (buffersSized_mono hi hb hg).2
    (by omega)
  refine ⟨_, d, by simp only [word, hg, hn]; rfl, by simp only [word, hg, hn]; rfl, fun j hj => ?_,
    by simp only [word, hg, hword]; rfl, ?_⟩
  · have hbyte : (s.rows - 1 - r) * (s.conf.w.toNat / 8) + (s.conf.w.toNat / 8 - 1 - c / 2) =
        s.len - 1 - (r * s.wpr + c) / 2 := by omega
    have hindex : (s.rows - 1 - r) * s.conf.w.toNat + (8 * (s.conf.w.toNat / 8 - 1 - c / 2) + 4 * (c % 2) + j) =
        8 * (s.len - 1 - (r * s.wpr + c) / 2) + (4 * (c % 2) + j) := by
      have hrow : (s.rows - 1 - r) * s.conf.w.toNat = 8 * ((s.rows - 1 - r) * (s.conf.w.toNat / 8)) := by
        rw [Nat.mul_left_comm, Nat.mul_div_cancel' (Nat.dvd_of_mod_eq_zero h8)]
      omega
    rw [pixelAt_eq .buf1 (by omega) (by unfold State.rows at hr ⊢; omega), hg, hindex, scannedNibble_getLsbD _ v hj,
      hodd]
    exact monoPixelIn_byte hv (by omega)
  · rw [← hd]
    congr 1
    omega

/-! ### Frames (R48, R164, R167) -/

/-- A byte that the body of a command keeps, the command keeps (R160). -/
theorem command_bytes {needsInit : Bool} {body : State → Result State} {s t : State} {b : BufId} {q : Nat}
    (h : body s = .next t → t.byteAt b q = s.byteAt b q) (e : command needsInit body s = .next t) :
    t.byteAt b q = s.byteAt b q := by
  obtain ⟨-, rfl⟩ | ⟨-, -, e⟩ := command_eq_next.mp e
  · rfl
  · exact h e

/-- SET_PIXEL stores to no byte but `pixelStore` (R164, R202). -/
theorem setPixelBody_bytes {x y : BitVec 16} {c : Colour} {s t : State} (e : setPixelBody x y c s = .next t)
    {b : BufId} {q : Nat} (h : pixelStore s x y ≠ some (b, q)) : t.byteAt b q = s.byteAt b q := by
  unfold setPixelBody at e
  split at e
  · rename_i hp
    obtain ⟨v, -, e⟩ := andThen_eq_next.mp e
    rw [byteAt_write e, if_neg]
    rintro ⟨rfl, rfl⟩
    exact h (if_pos hp)
  · cases e
    rfl

/-- FILL stores to no byte but the first `LEN` of the draw buffer (R48, R167). -/
theorem fillBody_bytes {c : Colour} {s t : State} (e : fillBody c s = .next t) {b : BufId} {q : Nat}
    (h : b = drawBuffer s → s.len ≤ q) : t.byteAt b q = s.byteAt b q := by
  refine forUp_rel_within (R := fun a a' => a'.byteAt b q = a.byteAt b q) (fun _ => rfl) (fun h k => k.trans h) ?_ e
  intro i a a' _ hi _ hw
  rw [byteAt_write hw, if_neg]
  rintro ⟨hdraw, rfl⟩
  have := h hdraw
  omega

/-- Settles O58: the frame of each of the four operations. -/
theorem bufferOperationFrame : Obligations.BufferOperationFrame := by
  intro s t
  refine ⟨fun x y c e => ⟨exec_setPixel_keeps e, fun b q h => command_bytes (setPixelBody_bytes · h) e⟩,
    fun c e => ⟨exec_fill_keeps e, fun b q h => command_bytes (fillBody_bytes · h) e⟩, fun e => ?_, fun e => ?_⟩
  · obtain ⟨-, hframe⟩ := runDiff_frame e
    exact hframe
  · obtain ⟨-, hframe⟩ := runCommit_frame e
    exact hframe

/-! ### No host-driven step faults (R48, R56, R126) -/

/-- A command does not fault when its body completes in every initialised block with sized buffers (R160). -/
theorem command_ne_fault {body : State → Result State} {s : State} {r : Fault} (hb : BuffersSized s)
    (h : s.flags.initialised = true → BuffersSized s → ∃ t, body s = .next t) :
    command true body s ≠ .fault r := by
  unfold command
  cases hf : s.flags.failed with
  | true => simp
  | false =>
    cases hi : s.flags.initialised with
    | false => simp
    | true =>
      obtain ⟨t, ht⟩ := h hi hb
      simp [ht]

/-- INIT allocates what it needs and faults nowhere (R162). -/
theorem exec_init_ne_fault {w h : BitVec 16} {g p : Bool} {fue : BitVec 16} {s : State} {r : Fault} :
    exec (.init w h g p fue) s ≠ .fault r := by
  simp only [exec, execInit, command, initBody]
  split_ifs <;> simp

/-- SET_PIXEL completes: its byte exists on the panel, and it has none off it (R164, R202). -/
theorem setPixelBody_total {s : State} (x y : BitVec 16) (c : Colour) (hi : s.flags.initialised = true)
    (hb : BuffersSized s) : ∃ t, setPixelBody x y c s = .next t := by
  cases hp : onPanel s x y with
  | true =>
    obtain ⟨old, -, h⟩ := setPixelBody_onPanel c hi hb hp
    exact ⟨_, h⟩
  | false => exact ⟨_, if_neg (by simp [hp])⟩

/-- REFRESH completes (R180, R189). -/
theorem refreshBody_total {s : State} (hi : s.flags.initialised = true) (hb : BuffersSized s) :
    ∃ t, refreshBody s = .next t := by
  have hvariant : ∃ u, refreshVariant s = .next u := by
    unfold refreshVariant
    split_ifs with hg hp
    · exact refreshGrey_total hi hb hg
    · exact refreshPartial_total hi hb (by simpa using hg) hp
    · exact refreshFullMono_total hi hb (by simpa using hg)
  obtain ⟨u, hu⟩ := hvariant
  exact ⟨_, andThen_eq_next.mpr ⟨u, hu, rfl⟩⟩

/-- No command faults in a block with sized buffers. -/
theorem hostCommand_ne_fault {i : Instr} {s : State} {r : Fault} (hc : hostCommands i) (hb : BuffersSized s) :
    exec i s ≠ .fault r := by
  obtain ⟨w, h, g, p, fue, rfl⟩ | ⟨x, y, c, rfl⟩ | ⟨c, rfl⟩ | rfl | rfl := hc
  · exact exec_init_ne_fault
  · exact command_ne_fault hb (setPixelBody_total x y c)
  · exact command_ne_fault hb fun hi hb => ⟨_, fillBody_spec c hi hb⟩
  · exact command_ne_fault hb cleanBody_total
  · exact command_ne_fault hb refreshBody_total

/-- A code that spells no instruction does not fault: it is refused (R68). -/
theorem step_ne_fault_of_decode_error {s : State} {c : Code} {x : DecodeError} {rest : List Input} {r : Fault}
    (hport : s.port = .code c :: rest) (hc : decode c = .error x) : step s ≠ .fault r := by
  have hfetch : fetch s = .undecoded x := by simp only [fetch, hport, hc]
  simp only [step, hfetch]
  split <;> simp

/-- Settles O16: idling, a reset and a refusal touch no buffer, and each command's bytes exist. -/
theorem hostStepsNeverFault : Obligations.HostStepsNeverFault := by
  intro s r hb hd
  cases hv : s.params.valid with
  | false => simp [step, hv]
  | true =>
    cases hport : s.port with
    | nil => simp [step_of_empty_port hv hport]
    | cons input rest =>
      simp only [State.hostDriven, hport, List.all_cons, Bool.and_eq_true] at hd
      cases input with
      | reset =>
        rw [step_of_reset hv hport]
        exact takeReset_ne_fault
      | code c =>
        cases hc : decode c with
        | error x => exact step_ne_fault_of_decode_error hport hc
        | ok i =>
          rw [stepRunsTheDecodedInstruction s c i rest hv hport hc]
          cases c with
          | command w => exact hostCommand_ne_fault (s := { s with port := rest }) (hostCommands_of_decode hc) hb
          | descriptor d => exact absurd hd.1 (by simp [Input.fromHost])
          | phase p => exact absurd hd.1 (by simp [Input.fromHost])

end Sys2Proof.Machine

/-! The three encoding spaces (family 30_encoding): a code decodes to an instruction exactly when it is that
instruction's code. In a command word, a word that matches a row is made of its fields (from the word), and a format is
injective in its operands (from the operands); the other two spaces are tables. -/

namespace Sys2Proof.Machine

/-! ### The fields of a command word (R9, R61, R62) -/

/-- A one-bit field, as a bit of the word. -/
theorem ofBool_getLsbD (cmd : CommandWord) (i : Nat) : BitVec.ofBool (cmd.getLsbD i) = field cmd i 1 := by
  apply BitVec.eq_of_getLsbD_eq
  intro k hk
  obtain rfl : k = 0 := by omega
  simp [field]

/-- Two neighbouring fields are one wider field. -/
theorem field_append_field {cmd : CommandWord} {hi lo m n : Nat} (h : hi = lo + n) :
    field cmd hi m ++ field cmd lo n = field cmd lo (m + n) :=
  BitVec.extractLsb'_append_extractLsb'_eq_extractLsb' h

/-- The field of all 64 bits is the word. -/
theorem field_all (cmd : CommandWord) : field cmd 0 64 = cmd :=
  BitVec.extractLsb'_eq_self

/-- The colour's three bytes stand in the low 24 bits (R61, R64, R65). -/
theorem colourBits_colourOf (cmd : CommandWord) : colourBits (colourOf cmd) = field cmd 0 24 := by
  simp only [colourBits, colourOf, field_append_field]

/-- The on/off classification stands in bit 56 (R61, R64, R65). -/
theorem ofBool_colourOf_on (cmd : CommandWord) : BitVec.ofBool (colourOf cmd).on = field cmd 56 1 :=
  ofBool_getLsbD cmd 56

/-- A field that a row's mask covers has the row's value in every word that matches the row (R62). -/
theorem field_of_spells {cmd mask mtch : CommandWord} {lo width : Nat} (h : spells cmd mask mtch = true)
    (hmask : field mask lo width = BitVec.allOnes width) : field cmd lo width = field mtch lo width := by
  have hmatch : cmd &&& mask = mtch := of_decide_eq_true h
  unfold field at *
  rw [← hmatch, BitVec.extractLsb'_and, hmask, BitVec.and_allOnes]

/-- Rows with different `op` fields share no word (R62). -/
theorem not_spells_of_op {cmd mask mtch mask' mtch' : CommandWord} (h : spells cmd mask mtch = true)
    (hmask : field mask 60 4 = BitVec.allOnes 4) (hmask' : field mask' 60 4 = BitVec.allOnes 4)
    (hop : field mtch 60 4 ≠ field mtch' 60 4) : ¬ spells cmd mask' mtch' = true := fun h' =>
  hop ((field_of_spells h hmask).symm.trans (field_of_spells h' hmask'))

/-! ### A word that matches a row is made of its fields: every other bit is fixed by the row (R61, R62) -/

/-- A word that matches INIT's row is the INIT of its fields. -/
theorem initWord_fields {cmd : CommandWord} (h : spells cmd 0xFC00000000FF0000 0x1000000000000000 = true) :
    initWord (field cmd 40 16) (field cmd 24 16) (cmd.getLsbD 57) (cmd.getLsbD 56) (field cmd 0 16) = cmd := by
  have hop : field cmd 60 4 = 0x1#4 := field_of_spells h rfl
  have hhigh : field cmd 58 2 = 0#2 := field_of_spells h rfl
  have hlow : field cmd 16 8 = 0#8 := field_of_spells h rfl
  simp only [initWord, ← hop, ← hhigh, ← hlow, ofBool_getLsbD, field_append_field]
  exact field_all cmd

/-- A word that matches SET_PIXEL's row is the SET_PIXEL of its fields. -/
theorem pixelWord_fields {cmd : CommandWord} (h : spells cmd 0xFE00000000000000 0x2000000000000000 = true) :
    pixelWord (field cmd 40 16) (field cmd 24 16) (colourOf cmd) = cmd := by
  have hop : field cmd 60 4 = 0x2#4 := field_of_spells h rfl
  have hhigh : field cmd 57 3 = 0#3 := field_of_spells h rfl
  simp only [pixelWord, colourBits_colourOf, ofBool_colourOf_on, ← hop, ← hhigh, field_append_field]
  exact field_all cmd

/-- A word that matches FILL's row is the FILL of its colour. -/
theorem fillWord_fields {cmd : CommandWord} (h : spells cmd 0xFEFFFFFFFF000000 0x3000000000000000 = true) :
    fillWord (colourOf cmd) = cmd := by
  have hop : field cmd 60 4 = 0x3#4 := field_of_spells h rfl
  have hhigh : field cmd 57 3 = 0#3 := field_of_spells h rfl
  have hmiddle : field cmd 24 32 = 0#32 := field_of_spells h rfl
  simp only [fillWord, colourBits_colourOf, ofBool_colourOf_on, ← hop, ← hhigh, ← hmiddle, field_append_field]
  exact field_all cmd

/-- The row of CLEAN and the row of REFRESH, whose masks cover the whole word, are matched by one word each. -/
theorem eq_of_spells_all {cmd mtch : CommandWord} (h : spells cmd 0xFFFFFFFFFFFFFFFF mtch = true) : cmd = mtch := by
  have hmatch : cmd &&& BitVec.allOnes 64 = mtch := of_decide_eq_true h
  rwa [BitVec.and_allOnes] at hmatch

/-! ### The formats are injective in their operands (R61) -/

/-- Two bit strings cut at the same place are equal exactly when their parts are. -/
theorem append_inj_iff {m n : Nat} {a b : BitVec m} {c d : BitVec n} : a ++ c = b ++ d ↔ a = b ∧ c = d := by
  constructor
  · intro h
    have hleft := congrArg (BitVec.extractLsb' n m) h
    have hright := congrArg (BitVec.extractLsb' 0 n) h
    simp only [BitVec.extractLsb'_append_eq_left, BitVec.extractLsb'_append_eq_right] at hleft hright
    exact ⟨hleft, hright⟩
  · rintro ⟨rfl, rfl⟩
    rfl

theorem colour_inj {c d : Colour} (hon : c.on = d.on) (hbits : colourBits c = colourBits d) : c = d := by
  obtain ⟨hrg, hb⟩ := append_inj_iff.mp hbits
  obtain ⟨hr, hg⟩ := append_inj_iff.mp hrg
  cases c
  cases d
  simp_all only

theorem initWord_inj {w h w' h' : BitVec 16} {g p g' p' : Bool} {fue fue' : BitVec 16}
    (e : initWord w h g p fue = initWord w' h' g' p' fue') :
    Instr.init w h g p fue = Instr.init w' h' g' p' fue' := by
  obtain ⟨hhead, rfl⟩ := append_inj_iff.mp e
  simp only [append_inj_iff, BitVec.ofBool_eq_iff_eq, true_and, and_true] at hhead
  obtain ⟨⟨⟨rfl, rfl⟩, rfl⟩, rfl⟩ := hhead
  rfl

theorem pixelWord_inj {x y x' y' : BitVec 16} {c c' : Colour} (e : pixelWord x y c = pixelWord x' y' c') :
    Instr.setPixel x y c = Instr.setPixel x' y' c' := by
  obtain ⟨hhead, hcolour⟩ := append_inj_iff.mp e
  simp only [append_inj_iff, BitVec.ofBool_eq_iff_eq, true_and] at hhead
  obtain ⟨⟨hon, rfl⟩, rfl⟩ := hhead
  rw [colour_inj hon hcolour]

theorem fillWord_inj {c c' : Colour} (e : fillWord c = fillWord c') : Instr.fill c = Instr.fill c' := by
  obtain ⟨hhead, hcolour⟩ := append_inj_iff.mp e
  simp only [append_inj_iff, BitVec.ofBool_eq_iff_eq, true_and, and_true] at hhead
  rw [colour_inj hhead hcolour]

/-! ### The word of a command matches the command's row (R61, R62) -/

theorem spells_initWord (w h : BitVec 16) (g p : Bool) (fue : BitVec 16) :
    spells (initWord w h g p fue) 0xFC00000000FF0000 0x1000000000000000 = true :=
  (spells_iff _ _ _).mpr fun i hi => by
    rw [initWord_bit w h g p fue i hi]
    interval_cases i <;> simp

theorem spells_pixelWord (x y : BitVec 16) (c : Colour) :
    spells (pixelWord x y c) 0xFE00000000000000 0x2000000000000000 = true :=
  (spells_iff _ _ _).mpr fun i hi => by
    rw [pixelWord_bit x y c i hi]
    interval_cases i <;> simp

theorem spells_fillWord (c : Colour) : spells (fillWord c) 0xFEFFFFFFFF000000 0x3000000000000000 = true :=
  (spells_iff _ _ _).mpr fun i hi => by
    rw [fillWord_bit c i hi]
    interval_cases i <;> simp

/-! ### Command words (R61 to R65, R68) -/

theorem decodeCommand_initWord (w h : BitVec 16) (g p : Bool) (fue : BitVec 16) :
    decodeCommand (initWord w h g p fue) = .ok (.init w h g p fue) := by
  have hrow := spells_initWord w h g p fue
  rw [decodeCommand, if_pos hrow, initWord_inj (initWord_fields hrow)]

theorem decodeCommand_pixelWord (x y : BitVec 16) (c : Colour) :
    decodeCommand (pixelWord x y c) = .ok (.setPixel x y c) := by
  have hrow := spells_pixelWord x y c
  rw [decodeCommand, if_neg (not_spells_of_op hrow rfl rfl (by decide)), if_pos hrow,
    pixelWord_inj (pixelWord_fields hrow)]

theorem decodeCommand_fillWord (c : Colour) : decodeCommand (fillWord c) = .ok (.fill c) := by
  have hrow := spells_fillWord c
  rw [decodeCommand, if_neg (not_spells_of_op hrow rfl rfl (by decide)),
    if_neg (not_spells_of_op hrow rfl rfl (by decide)), if_pos hrow, fillWord_inj (fillWord_fields hrow)]

/-- The word of a command decodes to the command. -/
theorem decode_command_of_encode {i : Instr} {w : CommandWord} (h : encode i = some (.command w)) :
    decode (.command w) = .ok i := by
  cases i <;> cases h
  case init w h g p fue => exact decodeCommand_initWord w h g p fue
  case setPixel x y c => exact decodeCommand_pixelWord x y c
  case fill c => exact decodeCommand_fillWord c
  case clean => rfl
  case refresh => rfl

/-- A word that decodes is the word of the command it decodes to. -/
theorem encode_of_decode_command {i : Instr} {w : CommandWord} (h : decode (.command w) = .ok i) :
    encode i = some (.command w) := by
  simp only [decode, decodeCommand] at h
  split_ifs at h with hinit hpixel hfill hclean hrefresh <;> cases h
  · exact congrArg (some ∘ Code.command) (initWord_fields hinit)
  · exact congrArg (some ∘ Code.command) (pixelWord_fields hpixel)
  · exact congrArg (some ∘ Code.command) (fillWord_fields hfill)
  · exact congrArg (some ∘ Code.command) (eq_of_spells_all hclean).symm
  · exact congrArg (some ∘ Code.command) (eq_of_spells_all hrefresh).symm

/-- A word that matches no row of R62 decodes to an error (R68). -/
theorem decodeCommand_of_no_row {w : CommandWord} (h : ∀ row ∈ commandRows, w &&& row.2 ≠ row.1) :
    decodeCommand w = .error (commandError w) := by
  have hno : ∀ row ∈ commandRows, ¬ spells w row.2 row.1 = true := fun row hrow hspells =>
    h row hrow (of_decide_eq_true hspells)
  simp only [commandRows, List.forall_mem_cons] at hno
  obtain ⟨hinit, hpixel, hfill, hclean, hrefresh, -⟩ := hno
  rw [decodeCommand, if_neg hinit, if_neg hpixel, if_neg hfill, if_neg hclean, if_neg hrefresh]

/-! ### Pass descriptors (R74, R75) -/

/-- A descriptor byte is made of its fields `src`, `k` and `sel`. -/
theorem descriptor_fields (d : Byte) : d.extractLsb' 6 2 ++ d.extractLsb' 3 3 ++ d.extractLsb' 0 3 = d := by
  simp only [BitVec.extractLsb'_append_extractLsb'_eq_extractLsb']
  exact BitVec.extractLsb'_eq_self

/-- A grey descriptor keeps its subframe number. -/
theorem decodeDesc_grey (k : BitVec 3) : decodeDesc (0x3#2 ++ k ++ 0#3) = some (.grey k) := by
  revert k
  decide

/-- A byte that is a descriptor is the code of that descriptor: each of its fields is an operand or has the one value
that `decodeDesc` accepts. -/
theorem encode_of_decodeDesc {d : Byte} {x : PassDesc} (h : decodeDesc d = some x) :
    encode (instrOfDesc x) = some (.descriptor d) := by
  have hsrc : ∀ src : BitVec 2, src ≠ 0 → src ≠ 1 → src ≠ 2 → src = 3 := by decide
  rw [← descriptor_fields d]
  simp only [decodeDesc] at h
  generalize d.extractLsb' 6 2 = src, d.extractLsb' 3 3 = k, d.extractLsb' 0 3 = sel at h ⊢
  split_ifs at h <;> cases h <;> subst_vars
  -- the six bytes that the tests on `src`, `k` and `sel` give one by one; DIFF and the grey bytes remain
  any_goals rfl
  · obtain ⟨rfl, rfl⟩ := ‹k = 0 ∧ sel = 0›
    rfl
  · obtain rfl := hsrc src ‹_› ‹_› ‹_›
    rfl

/-- The code of a pass descriptor decodes to the descriptor. -/
theorem decode_descriptor_of_encode {i : Instr} {d : Byte} (h : encode i = some (.descriptor d)) :
    decode (.descriptor d) = .ok i := by
  cases i <;> cases h
  case passGrey k => simp only [decode, decodeDesc_grey, instrOfDesc]
  all_goals rfl

/-- A byte that decodes is the code of the descriptor it decodes to. -/
theorem encode_of_decode_descriptor {i : Instr} {d : Byte} (h : decode (.descriptor d) = .ok i) :
    encode i = some (.descriptor d) := by
  simp only [decode] at h
  split at h <;> cases h
  exact encode_of_decodeDesc ‹_›

/-! ### `PHASE` codes (R76) -/

/-- The code of a phase's operation decodes to the operation. -/
theorem decode_phase_of_encode {i : Instr} {c : BitVec 5} (h : encode i = some (.phase c)) :
    decode (.phase c) = .ok i := by
  cases i <;> cases h
  all_goals rfl

/-- A code in use is the code of the operation its phase names. -/
theorem encode_of_decodePhase {c : BitVec 5} {x : Phase} (h : decodePhase c = some x) :
    encode (instrOfPhase x) = some (.phase c) := by
  simp only [decodePhase] at h
  split at h <;> cases h
  all_goals exact congrArg (some ∘ Code.phase) (BitVec.eq_of_toNat_eq (Eq.symm ‹_›))

/-- A `PHASE` code that decodes is the code of the operation it decodes to. -/
theorem encode_of_decode_phase {i : Instr} {c : BitVec 5} (h : decode (.phase c) = .ok i) :
    encode i = some (.phase c) := by
  simp only [decode] at h
  split at h <;> cases h
  exact encode_of_decodePhase ‹_›

/-! ### The three spaces together -/

/-- Settles O1: the code of an instruction decodes to it in each space; in the command space because the word matches
the command's row only, and its format is injective. -/
theorem encodedInstructionsDecodeBack : Obligations.EncodedInstructionsDecodeBack := by
  intro i c h
  cases c with
  | command w => exact decode_command_of_encode h
  | descriptor d => exact decode_descriptor_of_encode h
  | phase p => exact decode_phase_of_encode h

/-- Settles O2: a code that decodes is made of its fields, each an operand or fixed. -/
theorem decodedCodesEncodeBack : Obligations.DecodedCodesEncodeBack := by
  intro c i h
  cases c with
  | command w => exact encode_of_decode_command h
  | descriptor d => exact encode_of_decode_descriptor h
  | phase p => exact encode_of_decode_phase h

/-- Settles O3: each of the codes is the code of its instruction, and so decodes to it. -/
theorem specWordsDecode : Obligations.SpecWordsDecode := by
  unfold Obligations.SpecWordsDecode
  and_intros <;> exact encodedInstructionsDecodeBack _ _ rfl

/-! ### The step on a word that spells no command (R68) -/

/-- With valid parameters a code that spells no instruction is refused, with the decoder's reason. -/
theorem step_of_decode_error {s : State} {c : Code} {x : DecodeError} {rest : List Input}
    (hvalid : s.params.valid = true) (hport : s.port = .code c :: rest) (hdecode : decode c = .error x) :
    step s = .refused (.undecoded x) := by
  have hfetch : fetch s = .undecoded x := by simp only [fetch, hport, hdecode]
  simp only [step, hvalid, hfetch, if_true]

/-- Settles O4: the decoder answers an error, which the step refuses. -/
theorem unmatchedCommandWordIsRefused : Obligations.UnmatchedCommandWordIsRefused := by
  intro s w rest hvalid hport hrows
  exact ⟨commandError w, step_of_decode_error hvalid hport (decodeCommand_of_no_row hrows)⟩

end Sys2Proof.Machine

/-! The power operations where the rails already stand as asked (family 41_power_sequencer, R113): each raises the
re-entry exception, whose handler answers the state it was given. -/

namespace Sys2Proof.Machine

/-- Power-sequence re-entry is ignored (R113, R203). -/
theorem raise_powerSequenceReentry (s : State) : raise .powerSequenceReentry s = s := rfl

/-- POWER_ON with `POWER` = ON (R113). -/
theorem powerOn_of_power_on {s : State} (h : s.flags.power = true) : powerOn s = s := by
  rw [powerOn, if_pos h, raise_powerSequenceReentry]

/-- POWER_OFF with `POWER` = OFF (R113). -/
theorem powerOff_of_power_off {s : State} (h : s.flags.power = false) : powerOff s = s := by
  rw [powerOff, if_neg (ne_true_of_eq_false h), raise_powerSequenceReentry]

/-- Settles O34: each operation, where `POWER` is already what it would make it, is the ignored re-entry. -/
theorem powerReentryIsNoOp : Obligations.PowerReentryIsNoOp := by
  intro s
  constructor
  · intro hon
    exact congrArg Host.Outcome.next (powerOn_of_power_on hon)
  · intro hoff
    exact congrArg Host.Outcome.next (powerOff_of_power_off hoff)

end Sys2Proof.Machine

/-! The scan engine (family 42_scan_engine): the bus is low between two words, the pattern of VSCAN_START, the latch
pulse of VSCAN_END, and the event counts of PASS and RUN_PASS. -/

namespace Sys2Proof.Machine

/-! ### The bus between two words (R121, R248) -/

/-- A push leaves the panel-facing latches alone (R100). -/
theorem push_latch_panelFacing (c : Byte) (io : Io) {l : Line} (hl : l ∈ panelFacing) :
    (io.push c).latch.get l = io.latch.get l := by
  have hregister := panelFacing_not_register hl
  simp only [List.mem_cons, List.not_mem_nil, or_false, not_or] at hregister
  obtain ⟨hclk, hdata, hstr⟩ := hregister
  rw [push_latch, if_neg hstr, if_neg hclk, if_neg hdata]

/-- A change that leaves the mapped latches alone leaves the bus low. -/
theorem dataLinesLow_of_kept {s t : State} {m : PinMap}
    (h : ∀ l, (portBit m l).isSome = true → t.io.latch.get l = s.io.latch.get l) (hs : DataLinesLow s) :
    DataLinesLow t :=
  ⟨fun i => (h _ (by rw [portBit_dataLine]; rfl)).trans (hs.1 i), (h .clk rfl).trans hs.2⟩

/-- A push leaves the bus low, whatever else of the state it comes with. -/
theorem dataLinesLow_of_push {s t : State} {c : Byte} (hio : t.io = s.io.push c) (hs : DataLinesLow s) :
    DataLinesLow t :=
  dataLinesLow_of_kept (m := s.params.pinmap)
    (fun l hl => by rw [hio, push_latch_panelFacing c s.io (panelFacing_of_portBit hl)]) hs

/-- A write to a line outside the port word leaves the bus low (R31). -/
theorem dataLinesLow_pinWrite {s : State} {l : Line} (hl : portBit s.params.pinmap l = none) (v : Bool)
    (hs : DataLinesLow s) : DataLinesLow (s.pinWrite l v) := by
  refine dataLinesLow_of_kept (m := s.params.pinmap) (fun k hk => ?_) hs
  have hne : k ≠ l := by
    rintro rfl
    rw [hl] at hk
    cases hk
  rw [State.pinWrite_io, pinWrite_latch, lines_get_set, if_neg hne]

/-- A bus word is cleared as it ends (R123, R124); no other primitive change writes the bus but the clear of
POWER_OFF. -/
theorem prim_dataLinesLow {s t : State} (h : Prim s t) (hs : DataLinesLow s) : DataLinesLow t := by
  cases h with
  | apply f v => exact dataLinesLow_of_push (State.apply_io f v s) hs
  | clearDirPd => exact dataLinesLow_of_push (clearDirAndPd_io s) hs
  | push => exact dataLinesLow_of_push (State.push_io s) hs
  | sofLine v => exact dataLinesLow_pinWrite rfl v hs
  | srcEn v => exact dataLinesLow_pinWrite rfl v hs
  | panelDirs d =>
    obtain ⟨-, -, hlatch, -, -⟩ := forLines_pinDir d panelFacing s.io
    exact dataLinesLow_of_kept (m := s.params.pinmap) (fun l _ => by rw [State.pinDirs_io, hlatch]) hs
  | pulse d =>
    obtain ⟨-, hlatch, -, -⟩ := pulseWord_spec d s
    exact dataLinesLow_of_cleared (m := s.params.pinmap) fun l hl => by rw [hlatch, if_pos hl]
  | clear =>
    exact dataLinesLow_of_cleared (m := s.params.pinmap) fun l hl => by
      rw [State.portClear_io, portClear_latch, clear_latch, if_pos hl]
  | store b p v _ _ h =>
    obtain ⟨-, rfl⟩ := writeByte_eq_next.mp h
    exact hs
  | _ => exact hs

/-- The pin setup of INIT writes the latch of `PANEL_EN` alone (R162). -/
theorem configure_dataLinesLow {w h : BitVec 16} {g p : Bool} {fue : BitVec 16} {s : State} (hs : DataLinesLow s) :
    DataLinesLow (configure w h g p fue s) := by
  obtain ⟨-, -, hlatch⟩ := setupPins_spec s.io
  refine dataLinesLow_of_kept (m := s.params.pinmap) (fun l hl => ?_) hs
  have hne : l ≠ .panelEn := by
    rintro rfl
    cases hl
  rw [configure_io, push_latch_panelFacing _ _ (panelFacing_of_portBit hl), hlatch, lines_get_set, if_neg hne]

/-- INIT leaves the bus low. -/
theorem initOutcome_dataLinesLow {w h : BitVec 16} {g p : Bool} {fue : BitVec 16} {s t : State}
    (ho : InitOutcome w h g p fue s t) (hs : DataLinesLow s) : DataLinesLow t := by
  cases ho with
  | ignored => exact hs
  | failed => exact hs
  | kept => exact configure_dataLinesLow hs
  | fresh => exact configure_dataLinesLow hs

/-- Every latch is 0 after the reset event (R34). -/
theorem resetEvent_dataLinesLow (s : State) : DataLinesLow (resetEvent s) :=
  ⟨fun i => lines_get_all false (dataLine i), rfl⟩

/-- Settles O14: every primitive change and every outcome of INIT leaves a low bus low, and reset clears it. -/
theorem dataAndClockLowBetweenWords : Obligations.DataAndClockLowBetweenWords := fun _ _ hs e =>
  step_keeps (fun h => h) resetEvent_dataLinesLow prim_dataLinesLow initOutcome_dataLinesLow hs e

/-! ### VSCAN_START (R122) -/

/-- The latch of `SOF_LINE` after a `VSCAN_START_SEQ` entered with `v`. -/
def vscanLine : List VStep → Bool → Bool
  | [], v => v
  | .line b :: rest, _ => vscanLine rest b
  | .bit _ :: rest, v => vscanLine rest v
  | .wait :: rest, v => vscanLine rest v

/-- The last write of the line in a pattern stands in its latch. -/
theorem vscanSteps_sofLine (q : List VStep) (s : State) :
    (vscanSteps q s).io.latch.get .sofLine = vscanLine q (s.io.latch.get .sofLine) := by
  induction q generalizing s with
  | nil => rfl
  | cons v q ih =>
    rw [vscanSteps, ih]
    cases v with
    | line b => rfl
    | bit b => rw [vscanStep, State.apply_io, push_latch_panelFacing _ _ (by decide), vscanLine]
    | wait => rfl

theorem vscanStart_sofLine (s : State) :
    (vscanStart s).io.latch.get .sofLine = vscanLine s.params.vscanStartSeq (s.io.latch.get .sofLine) :=
  vscanSteps_sofLine s.params.vscanStartSeq (s.setPhase .vscanStart)

/-- A pattern changes `CFG` in the field `SOF` alone. -/
theorem vscanCfg_eq_cfgSet (q : List VStep) (c : Byte) : vscanCfg q c = cfgSet .sof (cfgGet .sof (vscanCfg q c)) c := by
  refine cfg_ext fun f => ?_
  rw [cfgGet_cfgSet]
  split
  · rename_i hf
    rw [hf]
  · rename_i hf
    rw [vscanCfg_get, if_neg hf]

/-- Settles O35: the events, `CFG` and the line follow the micro-steps of the pattern; the last bit of a valid one is 1.
-/
theorem vscanStartPattern : Obligations.VscanStartPattern := by
  intro s
  obtain ⟨htrace, hcfg, hpos, hwork, hk⟩ := vscanStart_spec s
  have hsof : (vscanStart s).cfg = cfgSet .sof (cfgGet .sof (vscanStart s).cfg) s.cfg := by
    rw [hcfg]
    exact vscanCfg_eq_cfgSet _ _
  refine ⟨vscanStart s, rfl, state_ext hk.params hk.conf hk.flags hk.puc hsof hk.bufs rfl hpos hwork hk.port hk.draws,
    htrace, hk.dir, fun hv => ?_, fun hdefault => ⟨?_, ?_⟩⟩
  · rw [hcfg, vscanCfg_get, if_pos rfl, lastBit_valid hv]
    rfl
  · rw [htrace, List.length_append, vscanEvents_length, hdefault]
    rfl
  · rw [vscanStart_sofLine, hdefault]
    rfl

/-! ### VSCAN_END (R127) -/

/-- Settles O37: two pushes of `LE` and the write of the line. -/
theorem vscanEndLatchesTheRow : Obligations.VscanEndLatchesTheRow := by
  intro s
  obtain ⟨htrace, hcfg, hwork, hpos, hline, hk⟩ := vscanEnd_spec s
  refine ⟨vscanEnd s, rfl, state_ext hk.params hk.conf hk.flags hk.puc hcfg hk.bufs rfl hpos hwork hk.port hk.draws,
    ?_, ?_, hline, hk.dir⟩
  · rw [htrace, vscanEndEvents, cfgSet_cfgSet, List.append_assoc, List.append_assoc, List.append_assoc]
  · simp [htrace, vscanEndEvents]

/-! ### PASS and RUN_PASS (R126, R182) -/

/-- SETTLE's event (R181). -/
theorem settle_trace (s : State) : (settle s).io.trace = s.io.trace ++ [.delayUs 230] :=
  emit_trace (.delayUs 230) s.io

/-- RUN_PASS after a pass that completes: the settle delay and the count (R182). -/
theorem runPass_of_runScan {d : PassDesc} {s t : State} (h : runScan d s = .next t) :
    runPass d s = .next (bumpPassIdx (settle t)) := by
  rw [runPass, h, andThen_next]

/-- Settles O48: every word of the pass exists, so the pass completes, and RUN_PASS adds the settle delay and counts. -/
theorem passAndRunPassComplete : Obligations.PassAndRunPassComplete := by
  intro s d hi hb hd
  obtain ⟨t, ht, hlength⟩ := runScan_total (one_le_wpr hi hb) fun k hk => word_total hi hb hd hk
  obtain ⟨hk, -⟩ := runScan_keeps ht
  have htrace : (bumpPassIdx (settle t)).io.trace = t.io.trace ++ [.delayUs 230] := settle_trace t
  have hcount : (bumpPassIdx (settle t)).pos.passIdx = s.pos.passIdx + 1 := congrArg (· + 1) hk.passIdx
  refine ⟨⟨t, ht, hk.bufs, hlength⟩,
    ⟨bumpPassIdx (settle t), runPass_of_runScan ht, hk.bufs, hcount, ?_, t.io.trace, htrace⟩, rfl⟩
  rw [htrace, List.length_append, hlength]
  rfl

end Sys2Proof.Machine

/-! DIFF's bytes and its silence (family 43_waveform_encoder: R146, R147, R168, R170). -/

namespace Sys2Proof.Machine

/-! ### The buffer DIFF leaves (R168) -/

/-- `m` holds the drive bytes of the masks between the committed and the pending image of `s` (R146, R168). -/
structure DiffImage (s : State) (m : Memory) : Prop where
  offsets : m.offsets = List.range (2 * s.len)
  hi : ∀ {p a b}, p < s.len → s.byteAt .buf0 p = some a → s.byteAt .buf1 p = some b →
    Memory.read m (2 * p + 1) = some (diffByte s.params (hiNibble (fromWhite a b)) (hiNibble (fromBlack a b)))
  lo : ∀ {p a b}, p < s.len → s.byteAt .buf0 p = some a → s.byteAt .buf1 p = some b →
    Memory.read m (2 * p) = some (diffByte s.params (loNibble (fromWhite a b)) (loNibble (fromBlack a b)))

/-- `s` with another `BUF2` and other working registers: where DIFF leads (R168). -/
def withDiff (m : Memory) (x : Work) (s : State) : State := { s with bufs := { s.bufs with buf2 := m }, work := x }

/-- DIFF of an initialised monochrome block leaves that image in `BUF2` and changes only its working registers
besides (R168). -/
theorem runDiff_image {s : State} (hi : s.flags.initialised = true) (hb : BuffersSized s) (hg : s.conf.grey = false) :
    ∃ m x, runDiff s = .next (withDiff m x s) ∧ DiffImage s m := by
  obtain ⟨h1, h2⟩ := buffersSized_mono hi hb hg
  obtain ⟨m, x, e, hoff, hbytes, -⟩ := runDiff_spec hg (buffersSized_buf0 hi hb) h1 h2
  exact ⟨m, x, e, hoff, fun hp ha hb => (hbytes _ _ _ hp ha hb).1, fun hp ha hb => (hbytes _ _ _ hp ha hb).2⟩

/-- Both images of an initialised monochrome block have every byte position (R23). -/
theorem image_bytes {s : State} (hi : s.flags.initialised = true) (hb : BuffersSized s) (hg : s.conf.grey = false)
    {p : Nat} (hp : p < s.len) : ∃ a b, s.byteAt .buf0 p = some a ∧ s.byteAt .buf1 p = some b := by
  obtain ⟨a, ha⟩ := read_of_lt (buffersSized_buf0 hi hb) hp
  obtain ⟨b, hb⟩ := read_of_lt (buffersSized_mono hi hb hg).1 hp
  exact ⟨a, b, ha, hb⟩

/-- A property of the byte at every even and every odd offset is one of every offset of `BUF2`. -/
theorem forall_lt_two_mul {P : Nat → Prop} {n : Nat} (h : ∀ p < n, P (2 * p) ∧ P (2 * p + 1)) : ∀ q < 2 * n, P q := by
  intro q hq
  obtain ⟨heven, hodd⟩ := h (q / 2) (by omega)
  rcases Nat.mod_two_eq_zero_or_one q with h0 | h1
  · rwa [show 2 * (q / 2) = q by omega] at heven
  · rwa [show 2 * (q / 2) + 1 = q by omega] at hodd

/-- The images determine the buffer DIFF leaves. -/
theorem DiffImage.unique {s : State} {m m' : Memory} (hi : s.flags.initialised = true) (hb : BuffersSized s)
    (hg : s.conf.grey = false) (h : DiffImage s m) (h' : DiffImage s m') : m = m' := by
  refine memory_ext_range h.offsets h'.offsets (forall_lt_two_mul fun p hp => ?_)
  obtain ⟨a, b, ha, hb⟩ := image_bytes hi hb hg hp
  exact ⟨(h.lo hp ha hb).trans (h'.lo hp ha hb).symm, (h.hi hp ha hb).trans (h'.hi hp ha hb).symm⟩

/-- Only the parameters, the configuration registers and the two images matter to it. -/
theorem DiffImage.congr {s t : State} {m : Memory} (hp : t.params = s.params) (hc : t.conf = s.conf)
    (hb : t.bufs = s.bufs) (h : DiffImage t m) : DiffImage s m := by
  have hl := len_congr hc
  refine ⟨hl ▸ h.offsets, fun {p a b} hlt ha hb' => ?_, fun {p a b} hlt ha hb' => ?_⟩
  · rw [← hp]
    exact h.hi (hl ▸ hlt) (by rw [byteAt_congr hb, ha]) (by rw [byteAt_congr hb, hb'])
  · rw [← hp]
    exact h.lo (hl ▸ hlt) (by rw [byteAt_congr hb, ha]) (by rw [byteAt_congr hb, hb'])

/-- Settles O44: the masks of the formulas are `fromWhite` and `fromBlack`. -/
theorem diffComputesDriveBytes : Obligations.DiffComputesDriveBytes := by
  intro s hi hb hg
  obtain ⟨m, x, e, hm⟩ := runDiff_image hi hb hg
  refine ⟨_, e, rfl, hm.offsets.trans (buffersSized_mono hi hb hg).2.symm, ?_⟩
  rintro p a b _ _ hp ha hb rfl rfl
  exact ⟨hm.hi hp ha hb, hm.lo hp ha hb⟩

/-! ### No change, no drive (R147, R170) -/

theorem fromWhite_self (a : Byte) : fromWhite a a = 0 := by
  simp [fromWhite]

theorem fromBlack_self (a : Byte) : fromBlack a a = 0 := by
  simp [fromBlack]

/-- Equal images give only the byte of the two entries at index 0, which R147 makes zero. -/
theorem DiffImage.zero {s : State} {m : Memory} (hi : s.flags.initialised = true) (hb : BuffersSized s)
    (hg : s.conf.grey = false) (htable : s.params.lutw.get 0 &&& s.params.lutb.get 0 = 0)
    (heq : s.bufs.buf0 = s.bufs.buf1) (h : DiffImage s m) : ∀ q < 2 * s.len, Memory.read m q = some 0 := by
  refine forall_lt_two_mul fun p hp => ?_
  obtain ⟨a, b, ha, hb⟩ := image_bytes hi hb hg hp
  have ha' : s.byteAt .buf1 p = some a := (congrArg (Memory.read · p) heq).symm.trans ha
  have hlo := h.lo hp ha ha'
  have hhi := h.hi hp ha ha'
  rw [fromWhite_self, fromBlack_self] at hlo hhi
  exact ⟨hlo.trans (congrArg some htable), hhi.trans (congrArg some htable)⟩

/-- DIFF of equal images drives nothing (R170 (a)). -/
theorem exec_diff_of_equal {s : State} (hi : s.flags.initialised = true) (hb : BuffersSized s)
    (hg : s.conf.grey = false) (htable : s.params.lutw.get 0 &&& s.params.lutb.get 0 = 0)
    (heq : s.bufs.buf0 = s.bufs.buf1) :
    ∃ t, exec .diff s = .next t ∧ ∀ q < 2 * s.len, t.byteAt .buf2 q = some 0 := by
  obtain ⟨m, x, e, hm⟩ := runDiff_image hi hb hg
  exact ⟨_, e, hm.zero hi hb hg htable heq⟩

/-- The state COMMIT leads to (R169). -/
def committed (s : State) : State := { s with bufs := { s.bufs with buf0 := s.bufs.buf1 } }

theorem runCommit_eq_committed {s : State} (hi : s.flags.initialised = true) (hb : BuffersSized s)
    (hg : s.conf.grey = false) : runCommit s = .next (committed s) :=
  runCommit_spec hg (buffersSized_buf0 hi hb) (buffersSized_mono hi hb hg).1

/-- COMMIT keeps the buffers' sizes (R23, R169). -/
theorem buffersSized_committed {s : State} (hi : s.flags.initialised = true) (hb : BuffersSized s)
    (hg : s.conf.grey = false) : BuffersSized (committed s) := by
  refine buffersSized_congr (s := s) rfl rfl (fun i => ?_) hb
  cases i with
  | buf0 => exact (buffersSized_mono hi hb hg).1.trans (buffersSized_buf0 hi hb).symm
  | buf1 => rfl
  | buf2 => rfl

/-- Settles O46: COMMIT makes the images equal, and DIFF of equal images drives nothing. -/
theorem noChangeNoDrive : Obligations.NoChangeNoDrive := by
  intro s hi hb hg htable
  obtain ⟨u, hu, hzero⟩ := exec_diff_of_equal (s := committed s) hi (buffersSized_committed hi hb hg) hg htable rfl
  exact ⟨exec_diff_of_equal hi hb hg htable, _, u, runCommit_eq_committed hi hb hg, hu, hzero⟩

end Sys2Proof.Machine

/-! The refresh sequences and CLEAN (family 43_waveform_encoder: R183 to R188). -/

namespace Sys2Proof.Machine

/-! ### A sequence of passes, from its start to its end -/

/-- A sequence can start: valid parameters, sized buffers, the power off and `LE` = 0 (R25, R160). -/
structure CanStart (s : State) : Prop where
  valid : s.params.valid = true
  initialised : s.flags.initialised = true
  sized : BuffersSized s
  power : s.flags.power = false
  le : cfgGet .le s.cfg = false

/-- `v` stands between POWER_ON and POWER_OFF of a sequence that started in `s` (R183 to R188). -/
structure Powered (s v : State) : Prop where
  params : v.params = s.params
  conf : v.conf = s.conf
  cfg : v.cfg = onCfg4 s.cfg
  power : v.flags.power = true

/-- The events of a list of passes that a sequence started in `s` runs, `w` giving the drive bytes (R126, R182). -/
def sentEvents (s : State) (w : PassDesc → Nat → Byte) (ds : List PassDesc) : List Event :=
  ds.flatMap fun d => passEvents s.params (onCfg4 s.cfg) (w d) s.rows s.wpr ++ [.delayUs 230]

theorem sentEvents_append (s : State) (w : PassDesc → Nat → Byte) (ds ds' : List PassDesc) :
    sentEvents s w (ds ++ ds') = sentEvents s w ds ++ sentEvents s w ds' :=
  List.flatMap_append

theorem sequenceEvents_eq (s : State) (w : PassDesc → Nat → Byte) (ds : List PassDesc) :
    sequenceEvents s.params s.cfg ds w s.rows s.wpr =
      powerOnEvents s.cfg ++ sentEvents s w ds ++ powerOffEvents s.params.pinmap (onCfg4 s.cfg) := rfl

/-- A sequence's events depend on the drive bytes of its own descriptors alone. -/
theorem sequenceEvents_congr {s : State} {w w' : PassDesc → Nat → Byte} {ds : List PassDesc}
    (h : ∀ d ∈ ds, w d = w' d) :
    sequenceEvents s.params s.cfg ds w s.rows s.wpr = sequenceEvents s.params s.cfg ds w' s.rows s.wpr := by
  have hsent : sentEvents s w ds = sentEvents s w' ds := List.flatMap_congr fun d hd => by rw [h d hd]
  rw [sequenceEvents_eq, sequenceEvents_eq, hsent]

/-- POWER_ON at a sequence's start (R111). -/
theorem powered_begin {s : State} (hs : CanStart s) (q : Seq) : Powered s (powerOn (beginSequence q s)) := by
  obtain ⟨hparams, hconf, -, -, -, hflags⟩ := begin_kept q s
  obtain ⟨-, hcfg, -⟩ := powerOn_spec (s := beginSequence q s) hs.power
  exact ⟨hparams, hconf, hcfg, by rw [hflags]⟩

/-- A list of passes inside a sequence sends the words of the state it started in, as long as the buffers are still
those (R126, R182). -/
theorem runPasses_sent {s v : State} {ds : List PassDesc} (hs : CanStart s) (hv : Powered s v) (hb : v.bufs = s.bufs)
    (hd : ∀ d ∈ ds, fitsMode d s.conf.grey = true) :
    ∃ u, runPasses ds v = .next u ∧ u.io.trace = v.io.trace ++ sentEvents s (wordByte s) ds ∧ Powered s u ∧
      u.flags = v.flags ∧ u.puc = v.puc ∧ u.bufs = s.bufs := by
  obtain ⟨u, hu, htrace, hcfg, hparams, hconf, hflags, hpuc, hbufs, -⟩ := runPasses_in_sequence hs.valid hs.initialised
    hs.sized hd hs.le s hv.params hv.conf hb hv.cfg rfl rfl hs.sized hs.initialised
  exact ⟨u, hu, htrace, ⟨hparams, hconf, hcfg, by rw [hflags, hv.power]⟩, hflags, hpuc, hbufs.trans hb⟩

/-- Where a sequence that started in `s` and sent `ds` ends, when `u` is the state its body left (R183 to R188, R191). -/
structure SequenceEnd (s u t : State) (w : PassDesc → Nat → Byte) (ds : List PassDesc) : Prop where
  trace : t.io.trace = s.io.trace ++ sequenceEvents s.params s.cfg ds w s.rows s.wpr
  count : t.io.trace.length = s.io.trace.length + (118 + ds.length * (passCount s.params s.rows s.wpr + 1) + 118)
  bufs : t.bufs = u.bufs
  puc : t.puc = u.puc
  flags : t.flags = { u.flags with power := false }
  conf : t.conf = s.conf
  pos : t.pos = .idle

/-- A sequence whose body sends `ds` and leaves `u` ends as its rule says (R183 to R188, R191). -/
theorem sequence_end {q : Seq} {s u : State} {w : PassDesc → Nat → Byte} {ds : List PassDesc} (hs : CanStart s)
    (htrace : u.io.trace = (powerOn (beginSequence q s)).io.trace ++ sentEvents s w ds) (hu : Powered s u) :
    SequenceEnd s u (powerOff u).endSequence w ds := by
  obtain ⟨t, ht, h, hbufs, hpuc, hflags, hconf, hpos⟩ :=
    sequence_spec (body := fun _ => .next u) hs.power rfl htrace hu.cfg hu.params hu.power
  cases ht
  rw [← sequenceEvents_eq] at h
  refine ⟨h, ?_, hbufs, hpuc, hflags, hconf.trans hu.conf, hpos⟩
  rw [h, List.length_append, sequenceEvents_length _ _ _ _ _ (one_le_wpr hs.initialised hs.sized)]

/-- The flags at the end of a sequence whose body kept those POWER_ON left. -/
theorem flags_powered_off {s : State} (hs : CanStart s) {q : Seq} {f : Flags}
    (h : f = (powerOn (beginSequence q s)).flags) : { f with power := false } = s.flags := by
  obtain ⟨-, -, -, -, -, hflags⟩ := begin_kept q s
  rw [h, hflags, ← hs.power]

/-! ### COMMIT at the end of a monochrome sequence (R169, R183, R184) -/

/-- COMMIT inside a sequence whose buffers are still those it started with. -/
theorem runCommit_powered {s v : State} (hs : CanStart s) (hg : s.conf.grey = false) (hv : Powered s v)
    (hb : v.bufs = s.bufs) : runCommit v = .next (committed v) := by
  have hl : v.len = s.len := len_congr hv.conf
  obtain ⟨h1, -⟩ := buffersSized_mono hs.initialised hs.sized hg
  exact runCommit_spec (by rw [hv.conf, hg]) (by rw [hb, hl, buffersSized_buf0 hs.initialised hs.sized])
    (by rw [hb, hl, h1])

/-! ### REFRESH_FULL_MONO (R183) -/

/-- Settles O49: the thirteen passes send the words of the state at the start, and COMMIT follows them. -/
theorem fullMonoRefresh : Obligations.FullMonoRefresh := by
  rintro s _ hvalid hi hb hg hpower hle rfl
  have hs : CanStart s := ⟨hvalid, hi, hb, hpower, hle⟩
  have hv := powered_begin hs .fullMono
  obtain ⟨-, -, -, hvb, -, hvf⟩ := begin_kept .fullMono s
  obtain ⟨u, hu, htrace, hup, huf, -, hub⟩ := runPasses_sent (ds := fullMonoPasses s.params) hs hv hvb
    fun d hd => hg ▸ fullMonoPasses_fit hd
  have hcommit := runCommit_powered (v := clearPartialCount u) hs hg ⟨hup.params, hup.conf, hup.cfg, hup.power⟩ hub
  have hend := sequence_end (u := committed (clearPartialCount u)) hs htrace ⟨hup.params, hup.conf, hup.cfg, hup.power⟩
  refine ⟨_, ?_, hend.trace, ?_, ?_, hend.puc, ?_, hend.conf, hend.pos⟩
  · exact (if_neg (by simp [hg])).trans
      (sequence_eq_next.mpr ⟨_, by simp only [hv.params, hu, andThen_next, hcommit], rfl⟩)
  · rw [hend.count]
    simp [fullMonoPasses, preludeMono_length hvalid]
  · rw [hend.bufs]
    simp [committed, clearPartialCount, hub]
  · rw [hend.flags]
    simp [committed, clearPartialCount, huf, hvf, hpower]

/-! ### REFRESH_PARTIAL (R184) -/

/-- DIFF keeps the buffers' sizes (R168). -/
theorem buffersSized_diff {s : State} {m : Memory} (hi : s.flags.initialised = true) (hb : BuffersSized s)
    (hg : s.conf.grey = false) (hm : DiffImage s m) (x : Work) :
    BuffersSized (withDiff m x s) := by
  refine buffersSized_congr (s := s) rfl rfl (fun i => ?_) hb
  cases i with
  | buf0 => rfl
  | buf1 => rfl
  | buf2 => exact hm.offsets.trans (buffersSized_mono hi hb hg).2.symm

/-- DIFF inside a sequence leaves the `BUF2` that DIFF alone would leave in the state the sequence started in (R168,
R184). -/
theorem runDiff_powered {s : State} (hs : CanStart s) (hg : s.conf.grey = false) {m : Memory} (hm : DiffImage s m)
    (q : Seq) : ∃ x, runDiff (powerOn (beginSequence q s)) = .next (withDiff m x (powerOn (beginSequence q s))) := by
  obtain ⟨hparams, hconf, -, hbufs, -, hflags⟩ := begin_kept q s
  have hi : (powerOn (beginSequence q s)).flags.initialised = true := by rw [hflags, hs.initialised]
  have hb := buffersSized_of_eq hs.sized hconf hbufs (hi.trans hs.initialised.symm)
  obtain ⟨m', x, e, hm'⟩ := runDiff_image hi hb (by rw [hconf, hg])
  have hsame := (hm'.congr hparams hconf hbufs).unique hs.initialised hs.sized hg hm
  exact ⟨x, by rw [e, hsame]⟩

/-- Settles O50: DIFF in the sequence leaves what DIFF alone leaves, the eight passes send its words, and COMMIT and
the count follow them. -/
theorem partialRefresh : Obligations.PartialRefresh := by
  rintro s _ hvalid hi hb hg hpartial hblock hpower hle rfl
  have hs : CanStart s := ⟨hvalid, hi, hb, hpower, hle⟩
  have hv := powered_begin hs .partialMono
  obtain ⟨-, -, hvc, hvb, -, -⟩ := begin_kept .partialMono s
  obtain ⟨m, x, hdiff, hm⟩ := runDiff_image hi hb hg
  obtain ⟨x', hdiff'⟩ := runDiff_powered hs hg hm .partialMono
  have hu : CanStart (withDiff m x s) := ⟨hvalid, hi, buffersSized_diff hi hb hg hm x, hpower, hle⟩
  have hub : (withDiff m x' (powerOn (beginSequence .partialMono s))).bufs = (withDiff m x s).bufs := by
    simp only [withDiff, hvb]
  have hup : Powered (withDiff m x s) (withDiff m x' (powerOn (beginSequence .partialMono s))) :=
    ⟨hv.params, hv.conf, hv.cfg, hv.power⟩
  obtain ⟨y, hy, htrace, hyp, hyf, hyc, hyb⟩ :=
    runPasses_sent (ds := partialPasses) hu hup hub fun d hd => hg ▸ partialPasses_fit hd
  have hcommit := runCommit_powered hu hg hyp hyb
  have hend := sequence_end (u := bumpPuc (committed y)) hs htrace ⟨hyp.params, hyp.conf, hyp.cfg, hyp.power⟩
  refine ⟨_, _, hdiff, ?_, hend.trace, hend.count, ?_, ?_, ?_, hend.conf, hend.pos⟩
  · exact (if_neg (by simp [hg])).trans ((if_pos (by simp [partialAllowed, hpartial, hblock])).trans
      (sequence_eq_next.mpr ⟨_, by simp only [hdiff', hy, andThen_next, hcommit], rfl⟩))
  · rw [hend.bufs]
    simp [committed, withDiff, hyb]
  · rw [hend.puc]
    simp [committed, withDiff, hyc, hvc]
  · exact hend.flags.trans (flags_powered_off hs hyf)

/-! ### REFRESH_GREY (R185) -/

/-- The eight subframes inside a sequence, in ascending order (R149). -/
theorem greySubframes_sent {s v : State} (hs : CanStart s) (hg : s.conf.grey = true) (hv : Powered s v)
    (hb : v.bufs = s.bufs) :
    ∃ u, forUp greySubframe 8 0 v = .next u ∧ u.io.trace = v.io.trace ++ sentEvents s (wordByte s)
        [.grey 0, .grey 1, .grey 2, .grey 3, .grey 4, .grey 5, .grey 6, .grey 7] ∧
      Powered s u ∧ u.flags = v.flags ∧ u.puc = v.puc ∧ u.bufs = s.bufs := by
  obtain ⟨u, hu, htrace, hcfg, hparams, hconf, hflags, hpuc, hbufs⟩ := greySubframes_spec 8 0 v le_rfl hs.valid
    hs.initialised hs.sized hg hs.le hv.params hv.conf hb hv.cfg
  exact ⟨u, hu, htrace, ⟨hparams, hconf, hcfg, by rw [hflags, hv.power]⟩, hflags, hpuc, hbufs.trans hb⟩

/-- Settles O51: the prelude, the subframes and the two closing passes follow one another, each sending the words of the
state at the start. -/
theorem greyRefresh : Obligations.GreyRefresh := by
  rintro s _ hvalid hi hb hg hpower hle rfl
  have hs : CanStart s := ⟨hvalid, hi, hb, hpower, hle⟩
  have hv := powered_begin hs .fullGrey
  obtain ⟨-, -, hvc, hvb, -, -⟩ := begin_kept .fullGrey s
  obtain ⟨a, ha, atrace, hap, haf, hac, hab⟩ := runPasses_sent (ds := s.params.preludeGrey.map .const) hs hv hvb
    fun d hd => constPasses_fit hd _
  obtain ⟨b, hbs, btrace, hbp, hbf, hbc, hbb⟩ := greySubframes_sent hs hg hap hab
  obtain ⟨c, hc, ctrace, hcp, hcf, hcc, hcb⟩ := runPasses_sent (ds := [.const .discharge, .const .skip]) hs hbp hbb
    fun d hd => constPasses_fit (l := [.discharge, .skip]) hd _
  have hend := sequence_end (q := .fullGrey) (u := c) (w := wordByte s) (ds := s.params.preludeGrey.map .const ++
    ([.grey 0, .grey 1, .grey 2, .grey 3, .grey 4, .grey 5, .grey 6, .grey 7] ++ [.const .discharge, .const .skip])) hs
    (by simp only [ctrace, btrace, atrace, sentEvents_append, List.append_assoc]) hcp
  refine ⟨_, ?_, hend.trace, ?_, hend.bufs.trans hcb, ?_, ?_, hend.conf, hend.pos⟩
  · exact (if_pos hg).trans (sequence_eq_next.mpr ⟨c, by simp only [hv.params, ha, andThen_next, hbs, hc], rfl⟩)
  · rw [hend.count]
    simp
  · rw [hend.puc, hcc, hbc, hac, hvc]
  · exact hend.flags.trans (flags_powered_off hs (hcf.trans (hbf.trans haf)))

/-! ### CLEAN (R188) -/

/-- Settles O52: every pass sends its constant, whatever the buffers hold. -/
theorem cleanSequence : Obligations.CleanSequence := by
  intro s hvalid hr hb hpower hle
  have hs : CanStart s := ⟨hvalid, hr.1, hb, hpower, hle⟩
  have hv := powered_begin hs .clean
  obtain ⟨-, -, hvc, hvb, -, -⟩ := begin_kept .clean s
  obtain ⟨u, hu, htrace, hup, huf, huc, hub⟩ := runPasses_sent (ds := s.params.cleanSeq.map .const) hs hv hvb
    fun d hd => constPasses_fit hd _
  have hend := sequence_end hs htrace hup
  refine ⟨_, ?_, ?_, ?_, hend.bufs.trans hub, ?_, ?_, hend.conf, hend.pos⟩
  · exact (command_of_ready hr).trans (sequence_eq_next.mpr ⟨u, by simp only [hv.params, hu], rfl⟩)
  · refine hend.trace.trans (congrArg (s.io.trace ++ ·) (sequenceEvents_congr fun d hd => ?_))
    obtain ⟨kind, -, rfl⟩ := List.mem_map.mp hd
    cases kind <;> rfl
  · rw [hend.count, List.length_map]
  · rw [hend.puc, huc, hvc]
  · exact hend.flags.trans (flags_powered_off hs huf)

end Sys2Proof.Machine

/-! The pins and the buffers a sequence does not read (family 43_waveform_encoder: R145, R183, R188). -/

namespace Sys2Proof.Machine

/-! ### Which descriptors read which buffers (R145) -/

/-- The constant descriptors read no buffer, and the two `BUF1` descriptors read that one alone (R145). -/
theorem sameWords_of_buf1 {d : PassDesc} {b b' : Buffers} (hb : b'.buf1 = b.buf1)
    (hd : d = .monoLutb ∨ d = .monoLut2 ∨ ∃ kind, d = .const kind) : SameWords d b b' := by
  rintro k s rfl
  exact word_congr_buf1 (s := s) (t := withBuffers b' s) rfl rfl hb hd

theorem sameWords_const (kind : PassKind) (b b' : Buffers) : SameWords (.const kind) b b' :=
  fun _ _ _ => rfl

/-- No pass of the full monochrome refresh reads another buffer than `BUF1` (R183). -/
theorem fullMonoPasses_sameWords {p : Config} {b b' : Buffers} (hb : b'.buf1 = b.buf1) :
    ∀ d ∈ fullMonoPasses p, SameWords d b b' := by
  intro d hd
  simp only [fullMonoPasses, List.mem_append, List.mem_map, List.mem_cons, List.not_mem_nil, or_false] at hd
  refine sameWords_of_buf1 hb ?_
  obtain ⟨kind, -, rfl⟩ | rfl | rfl | rfl | rfl | rfl := hd <;> simp

/-- No pass of CLEAN reads a buffer (R188). -/
theorem constPasses_sameWords {l : List PassKind} (b b' : Buffers) :
    ∀ d ∈ l.map PassDesc.const, SameWords d b b' := by
  intro d hd
  obtain ⟨kind, -, rfl⟩ := List.mem_map.mp hd
  exact sameWords_const kind b b'

/-! ### Two runs of a sequence with different buffers -/

/-- Two states that the end of a sequence takes to the same pins: it looks at the pins, `CFG`, the parameters and `POWER`
alone (R112). -/
structure SamePins (u u' : State) : Prop where
  io : u'.io = u.io
  cfg : u'.cfg = u.cfg
  params : u'.params = u.params
  power : u'.flags.power = u.flags.power

theorem SamePins.trans {a b c : State} (h : SamePins a b) (k : SamePins b c) : SamePins a c :=
  ⟨k.io.trans h.io, k.cfg.trans h.cfg, k.params.trans h.params, k.power.trans h.power⟩

theorem SamePins.symm {a b : State} (h : SamePins a b) : SamePins b a :=
  ⟨h.io.symm, h.cfg.symm, h.params.symm, h.power.symm⟩

/-- Neither clearing the counter nor COMMIT touches these (R169, R183). -/
theorem samePins_commit {u t : State} (e : runCommit (clearPartialCount u) = .next t) : SamePins u t := by
  obtain ⟨hio, hcfg, hparams, hflags⟩ := runCommit_keeps e
  exact ⟨hio, hcfg, hparams, by simp [hflags]⟩

/-- A list of passes that read no buffer in which two states differ leaves the same pins in both. -/
theorem samePins_passes {ds : List PassDesc} {v u u' : State} {b : Buffers} (h : ∀ d ∈ ds, SameWords d v.bufs b)
    (e : runPasses ds v = .next u) (e' : runPasses ds (withBuffers b v) = .next u') : SamePins u u' := by
  rw [runPasses_withBuffers h rfl, e] at e'
  cases e'
  exact ⟨rfl, rfl, rfl, rfl⟩

/-- Two runs of a sequence from states that differ in the buffers alone leave the same pins when their bodies do. -/
theorem sequence_samePins {q : Seq} {body : State → Result State} {s t t' : State} {b : Buffers}
    (h : ∀ {u u'}, body (powerOn (beginSequence q s)) = .next u →
      body (withBuffers b (powerOn (beginSequence q s))) = .next u' → SamePins u u')
    (e : sequence q body s = .next t) (e' : sequence q body (withBuffers b s) = .next t') : t'.io = t.io := by
  obtain ⟨u, hu, rfl⟩ := sequence_eq_next.mp e
  obtain ⟨u', hu', rfl⟩ := sequence_eq_next.mp e'
  rw [powerOn_withBuffers] at hu'
  have hp := h hu hu'
  exact powerOff_io_congr hp.io hp.cfg hp.params hp.power

/-- A full monochrome refresh with another `BUF0` and `BUF2` (R183). -/
theorem refreshFullMono_samePins {s t t' : State} {b : Buffers} (hb : b.buf1 = s.bufs.buf1)
    (e : refreshFullMono s = .next t) (e' : refreshFullMono (withBuffers b s) = .next t') : t'.io = t.io := by
  cases hg : s.conf.grey with
  | true =>
    rw [refreshFullMono, if_pos hg] at e
    cases e
  | false =>
    rw [refreshFullMono, if_neg (by simp [hg])] at e
    rw [refreshFullMono, if_neg (by simp [withBuffers, hg])] at e'
    refine sequence_samePins (fun hu hu' => ?_) e e'
    obtain ⟨a, ha, hu⟩ := andThen_eq_next.mp hu
    obtain ⟨a', ha', hu'⟩ := andThen_eq_next.mp hu'
    have hbufs : (powerOn (beginSequence .fullMono s)).bufs = s.bufs := (begin_kept .fullMono s).2.2.2.1
    have hpasses := samePins_passes (fullMonoPasses_sameWords (by rw [hbufs, hb])) ha ha'
    exact ((samePins_commit hu).symm.trans hpasses).trans (samePins_commit hu')

/-- CLEAN with other buffers (R188). -/
theorem cleanBody_samePins {s t t' : State} {b : Buffers} (e : cleanBody s = .next t)
    (e' : cleanBody (withBuffers b s) = .next t') : t'.io = t.io := by
  unfold cleanBody at e e'
  refine sequence_samePins (fun hu hu' => ?_) e e'
  exact samePins_passes (constPasses_sameWords _ _) hu hu'

theorem clean_samePins {s t t' : State} {b : Buffers} (e : exec .clean s = .next t)
    (e' : exec .clean (withBuffers b s) = .next t') : t'.io = t.io := by
  obtain ⟨hf, rfl⟩ | ⟨hf, -, e⟩ := command_eq_next.mp e <;>
    obtain ⟨hf', rfl⟩ | ⟨hf', -, e'⟩ := command_eq_next.mp e'
  · rfl
  · simp [withBuffers, hf] at hf'
  · simp [withBuffers, hf] at hf'
  · exact cleanBody_samePins e e'

/-- Settles O55: the passes of the two sequences send the same words, and neither COMMIT nor the end of a sequence looks
at a buffer to drive a pin. -/
theorem pinsIndependentOfUnreadBuffers : Obligations.PinsIndependentOfUnreadBuffers :=
  ⟨fun s _ _ m0 m2 e e' => refreshFullMono_samePins (s := s) (b := { s.bufs with buf0 := m0, buf2 := m2 }) rfl e e',
    fun s _ _ b e e' => clean_samePins (s := s) (b := b) e e'⟩

end Sys2Proof.Machine

/-! The precondition that the five commands share, and INIT: what it refuses, what it makes of the geometry the block
has, and its frame (family 44_framebuffer: R160, R162, R172, R201). -/

namespace Sys2Proof.Machine

/-! ### The common precondition (R160) -/

/-- A failed block takes a command as a no-op (R160). -/
theorem command_of_failed {needsInit : Bool} {body : State → Result State} {s : State} (hf : s.flags.failed = true) :
    command needsInit body s = .next s :=
  if_pos hf

/-- A command that needs INIT is refused in a block that has neither failed nor been initialised (R160). -/
theorem command_of_uninitialised {body : State → Result State} {s : State} (hf : s.flags.failed = false)
    (hi : s.flags.initialised = false) : command true body s = .refused .notInitialised := by
  simp [command, hf, hi]

/-- Each of the five commands runs under the common precondition, and only INIT runs without a successful INIT before
it (R160). -/
theorem exec_hostCommand {i : Instr} (hi : hostCommands i) :
    ∃ needsInit body, exec i = command needsInit body ∧
      ((∀ w h g p fue, i ≠ .init w h g p fue) → needsInit = true) := by
  obtain ⟨w, h, g, p, fue, rfl⟩ | ⟨x, y, c, rfl⟩ | ⟨c, rfl⟩ | rfl | rfl := hi
  · exact ⟨false, initBody w h g p fue, rfl, fun hne => absurd rfl (hne w h g p fue)⟩
  · exact ⟨true, setPixelBody x y c, rfl, fun _ => rfl⟩
  · exact ⟨true, fillBody c, rfl, fun _ => rfl⟩
  · exact ⟨true, cleanBody, rfl, fun _ => rfl⟩
  · exact ⟨true, refreshBody, rfl, fun _ => rfl⟩

/-- Settles O21: every command runs under the common precondition, which looks at `FAILED` first. -/
theorem commonPrecondition : Obligations.CommonPrecondition := by
  intro i s hi
  obtain ⟨needsInit, body, hexec, hneeds⟩ := exec_hostCommand hi
  rw [hexec]
  refine ⟨command_of_failed, fun hf h0 hne => ?_⟩
  rw [hneeds hne]
  exact command_of_uninitialised hf h0

/-! ### The geometries INIT refuses (R172) -/

/-- In a block that has not failed, INIT runs its body: it needs no INIT before it (R160). -/
theorem exec_init_of_not_failed {w h : BitVec 16} {g p : Bool} {fue : BitVec 16} {s : State}
    (hf : s.flags.failed = false) : exec (.init w h g p fue) s = initBody w h g p fue s :=
  if_neg (ne_true_of_eq_false hf)

/-- Past the common precondition INIT refuses the geometries that are not admitted, and nothing else (R172). -/
theorem initBody_refuses_iff {w h : BitVec 16} {g p : Bool} {fue : BitVec 16} {s : State} :
    initBody w h g p fue s = .refused .geometryNotAdmitted ↔ ¬geometryAdmitted w h = true := by
  by_cases hg : geometryAdmitted w h = true
  · refine iff_of_false (fun e => ?_) (not_not_intro hg)
    rw [initBody, if_pos hg] at e
    split_ifs at e
  · exact iff_of_true (if_neg hg) hg

/-- Settles O25: the body of INIT refuses exactly what R172 does not admit. -/
theorem initRefusesOtherGeometries : Obligations.InitRefusesOtherGeometries := by
  intro s w h g p fue hf
  rw [exec_init_of_not_failed hf, initBody_refuses_iff, geometryAdmitted_iff]

/-! ### INIT of the geometry the block has (R162) -/

/-- R162's condition for keeping the buffers. -/
theorem sameGeometry_of_eq {w h : BitVec 16} {g : Bool} {s : State} (hi : s.flags.initialised = true)
    (hw : s.conf.w = w) (hh : s.conf.h = h) (hg : s.conf.grey = g) : sameGeometry w h g s = true := by
  simp [sameGeometry, hi, hw, hh, hg]

/-- INIT of the geometry the block has is `configure` alone, without a release and an allocation (R162). -/
theorem exec_init_kept {w h : BitVec 16} {g p : Bool} {fue : BitVec 16} {s : State} (hf : s.flags.failed = false)
    (ha : geometryAdmitted w h = true) (hs : sameGeometry w h g s = true) :
    exec (.init w h g p fue) s = .next (configure w h g p fue s) := by
  rw [exec_init_of_not_failed hf, initBody, if_pos ha, if_pos hs]

/-- Settles O23: INIT is `configure`, which writes no buffer. -/
theorem initSameGeometryKeepsBuffers : Obligations.InitSameGeometryKeepsBuffers := by
  intro s w h g p fue hf h4 hw hh hi hsw hsh hsg
  refine ⟨_, exec_init_kept hf (geometryAdmitted_iff.mpr ⟨h4, hw, hh⟩) (sameGeometry_of_eq hi hsw hsh hsg),
    configure_bufs .., configure_conf .., configure_puc .., ?_, configure_trace .., configure_cfg ..⟩
  rw [configure_flags, ← hi]

/-! ### What INIT leaves unchanged (R162, R201) -/

/-- An INIT that is ignored or fails keeps the configuration registers, the counter and the pins; one that succeeds
leaves a block that has not failed (R201). -/
theorem initOutcome_keeps_of_failed {w h : BitVec 16} {g p : Bool} {fue : BitVec 16} {s t : State}
    (ho : InitOutcome w h g p fue s t) (ht : t.flags.failed = true) :
    t.conf = s.conf ∧ t.puc = s.puc ∧ t.io = s.io := by
  cases ho with
  | ignored => exact ⟨rfl, rfl, rfl⟩
  | failed => exact ⟨rfl, rfl, rfl⟩
  | kept hf => exact absurd (hf.symm.trans ht) Bool.false_ne_true
  | fresh hf => exact absurd (hf.symm.trans ht) Bool.false_ne_true

/-- An INIT of the geometry the block has, ignored or not, keeps the buffers (R162). -/
theorem initOutcome_bufs_of_sameGeometry {w h : BitVec 16} {g p : Bool} {fue : BitVec 16} {s t : State}
    (ho : InitOutcome w h g p fue s t) (hsame : sameGeometry w h g s = true) : t.bufs = s.bufs := by
  cases ho with
  | ignored => rfl
  | kept => exact configure_bufs ..
  | failed _ _ hs => exact absurd (hs.symm.trans hsame) Bool.false_ne_true
  | fresh _ _ hs => exact absurd (hs.symm.trans hsame) Bool.false_ne_true

/-- Settles O60: each part is what every outcome of INIT keeps. -/
theorem initFrame : Obligations.InitFrame := by
  intro s t w h g p fue e
  have ho := execInit_outcome e
  obtain ⟨hparams, hcfg, hpower, hpos, hwork, hport⟩ := initOutcome_keeps ho
  exact ⟨hparams, hcfg, hpower, hpos, hwork, hport, initOutcome_keeps_of_failed ho,
    fun hi hw hh hg => byteAt_congr (initOutcome_bufs_of_sameGeometry ho (sameGeometry_of_eq hi hw hh hg))⟩

end Sys2Proof.Machine

/-! The refresh orchestrator (family 45_refresh_orchestrator): SETTLE, the dispatch of REFRESH and its forced-full
check, the full refresh that follows `FUE` partial ones, and what the sequences leave unchanged. -/

namespace Sys2Proof.Machine

/-! ### SETTLE (R181) -/

/-- Settles O39: the delay is SETTLE's one event, and the phase it runs under is the one before it again. -/
theorem settleDelays : Obligations.SettleDelays := fun s =>
  ⟨settle s, rfl, rfl, rfl, settle_trace s⟩

/-! ### The dispatch of REFRESH and the forced-full check (R180, R189) -/

theorem partialAllowed_iff {s : State} :
    partialAllowed s = true ↔ s.conf.partialEn = true ∧ s.flags.blockPartial = false := by
  simp [partialAllowed]

theorem fullIsDue_iff {s : State} :
    fullIsDue s = true ↔ 0 < s.conf.fue.toNat ∧ s.conf.fue.toNat ≤ s.puc.toNat := by
  simp [fullIsDue]

/-- The variant REFRESH runs, as one of the three instructions that can be stepped alone (R180). -/
theorem refreshVariant_eq_exec (s : State) :
    refreshVariant s =
      if s.conf.grey then exec .refreshGrey s
      else if s.conf.partialEn = true ∧ s.flags.blockPartial = false then exec .refreshPartial s
      else exec .refreshFullMono s := by
  simp only [refreshVariant, partialAllowed_iff]
  rfl

theorem forcedFullCheck_eq (s : State) :
    forcedFullCheck s =
      if 0 < s.conf.fue.toNat ∧ s.conf.fue.toNat ≤ s.puc.toNat
      then { s with flags := { s.flags with blockPartial := true } } else s := by
  simp only [forcedFullCheck, fullIsDue_iff]
  rfl

/-- In a ready block REFRESH is the variant, which completes, and the forced-full check after it (R180, R189). -/
theorem refresh_of_ready {s : State} (hr : Ready s) (hb : BuffersSized s) :
    ∃ t, refreshVariant s = .next t ∧ exec .refresh s = .next (forcedFullCheck t) := by
  have hbody : exec .refresh s = refreshBody s := command_of_ready hr
  obtain ⟨v, hv⟩ := refreshBody_total hr.1 hb
  obtain ⟨t, ht, hcheck⟩ := andThen_eq_next.mp hv
  exact ⟨t, ht, by rw [hbody, hv, hcheck]⟩

/-- Settles O53: the dispatch and the check are the model's own, written out. -/
theorem refreshDispatch : Obligations.RefreshDispatch := by
  intro s hr hb
  obtain ⟨t, ht, hrefresh⟩ := refresh_of_ready hr hb
  rw [refreshVariant_eq_exec] at ht
  rw [forcedFullCheck_eq] at hrefresh
  exact ⟨t, ht, hrefresh⟩

/-! ### A full refresh is forced after `FUE` partial ones (R189) -/

/-- One more execution comes last as well as first. -/
theorem execTimes_succ_last (i : Instr) (n : Nat) (s : State) :
    execTimes i (n + 1) s = andThen (execTimes i n s) (exec i) := by
  induction n generalizing s with
  | zero =>
    change andThen (exec i s) .next = exec i s
    cases exec i s <;> rfl
  | succ n ih =>
    calc execTimes i (n + 1 + 1) s = andThen (exec i s) (execTimes i (n + 1)) := rfl
      _ = andThen (exec i s) (fun t => andThen (execTimes i n t) (exec i)) := by rw [funext ih]
      _ = andThen (execTimes i (n + 1) s) (exec i) := (andThen_assoc ..).symm

/-- REFRESH leaves a ready block ready, its buffers sized and the configuration registers as they were. -/
theorem refresh_keeps_ready {s t : State} (hr : Ready s) (hb : BuffersSized s) (e : exec .refresh s = .next t) :
    Ready t ∧ BuffersSized t ∧ t.conf = s.conf := by
  have hreach : Reach s t := command_reach refreshBody_reach e
  obtain ⟨-, hconf, -, hinit, hfailed, -⟩ := reach_kept hreach
  exact ⟨⟨hinit.trans hr.1, hfailed.trans hr.2⟩, reach_sized hreach hb, hconf⟩

/-- A ready monochrome block with partial refresh enabled and `FUE = n`, `j` partial refreshes after a full one: the
counter has counted them, and the flag says whether the next refresh is full (R184, R189). -/
structure PartialsCounted (n j : Nat) (s : State) : Prop where
  ready : Ready s
  sized : BuffersSized s
  grey : s.conf.grey = false
  partialEn : s.conf.partialEn = true
  fue : s.conf.fue.toNat = n
  puc : s.puc.toNat = j
  block : s.flags.blockPartial = true ↔ j = n

/-- Before the `n`-th partial refresh the next one is partial, and it is counted (R184, R189). -/
theorem PartialsCounted.refresh_next {n j : Nat} {s : State} (h : PartialsCounted n j s) (hj : j < n) :
    ∃ t, exec .refresh s = .next t ∧ PartialsCounted n (j + 1) t := by
  have hunblocked : s.flags.blockPartial = false :=
    Bool.eq_false_iff.mpr fun hblocked => absurd (h.block.mp hblocked) hj.ne
  obtain ⟨u, hu, e⟩ := refresh_of_ready h.ready h.sized
  rw [refreshVariant, if_neg (by simp [h.grey]), if_pos (partialAllowed_iff.mpr ⟨h.partialEn, hunblocked⟩)] at hu
  obtain ⟨-, -, hk, hcount, hflags, -⟩ := refreshPartial_keeps hu
  obtain ⟨hready, hsized, hconf⟩ := refresh_keeps_ready h.ready h.sized e
  obtain ⟨-, hpuc, -, -, -, -, hcheck⟩ := forcedFullCheck_keeps u
  have hfue : u.conf.fue.toNat = n := by rw [hk.conf, h.fue]
  have hcounted : u.puc.toNat = j + 1 := by
    have hbound : u.conf.fue.toNat < 2 ^ 16 := u.conf.fue.isLt
    have hone : (1 : BitVec 32).toNat = 1 := rfl
    rw [hcount, BitVec.toNat_add, h.puc, hone]
    omega
  refine ⟨_, e, hready, hsized, by rw [hconf, h.grey], by rw [hconf, h.partialEn], by rw [hconf, h.fue],
    by rw [hpuc, hcounted], ?_⟩
  rw [hcheck, hflags, hunblocked, Bool.false_or, fullIsDue_iff, hfue, hcounted]
  omega

/-- `j` refreshes from the state a full one leaves are partial, as long as `j` does not exceed `n` (R189). -/
theorem PartialsCounted.refresh_times {n : Nat} {s : State} (h : PartialsCounted n 0 s) {j : Nat} (hj : j ≤ n) :
    ∃ t, execTimes .refresh j s = .next t ∧ PartialsCounted n j t := by
  induction j with
  | zero => exact ⟨s, rfl, h⟩
  | succ j ih =>
    obtain ⟨t, ht, hcounted⟩ := ih (Nat.le_of_succ_le hj)
    obtain ⟨u, hu, hnext⟩ := hcounted.refresh_next hj
    exact ⟨u, by rw [execTimes_succ_last, ht, andThen_next, hu], hnext⟩

/-- After `n` partial refreshes the next one is full: it clears the counter and the flag, and the forced-full check
finds nothing to force (R183, R189). -/
theorem PartialsCounted.refresh_full {n : Nat} {s : State} (h : PartialsCounted n n s) :
    ∃ t, exec .refresh s = .next t ∧ t.puc = 0 ∧ t.flags.blockPartial = false := by
  have hblocked : s.flags.blockPartial = true := h.block.mpr rfl
  obtain ⟨u, hu, e⟩ := refresh_of_ready h.ready h.sized
  rw [refreshVariant, if_neg (by simp [h.grey]), if_neg (by simp [partialAllowed, hblocked])] at hu
  obtain ⟨-, -, hcleared, hflags, -⟩ := refreshFullMono_keeps hu
  obtain ⟨-, hpuc, -, -, -, -, hcheck⟩ := forcedFullCheck_keeps u
  have hnone : fullIsDue u = false := by
    rw [Bool.eq_false_iff, ne_eq, fullIsDue_iff, hcleared]
    exact fun ⟨hpos, hle⟩ => absurd hle (Nat.not_le_of_lt hpos)
  exact ⟨_, e, by rw [hpuc, hcleared], by rw [hcheck, hflags, hnone]; rfl⟩

/-- Settles O54, by induction on the refreshes: each partial one counts, the check blocks after the `n`-th, and the full
one that follows clears counter and flag. -/
theorem fullRefreshForcedAfterFuePartials : Obligations.FullRefreshForcedAfterFuePartials := by
  intro s n hr hb hg hp hfue hpos hpuc hblock
  have hstart : PartialsCounted n 0 s :=
    ⟨hr, hb, hg, hp, hfue, by rw [hpuc]; rfl, by rw [hblock]; exact ⟨nofun, fun h => absurd h hpos.ne⟩⟩
  refine ⟨fun j hj => ?_, ?_⟩
  · obtain ⟨t, ht, hcounted⟩ := hstart.refresh_times hj
    exact ⟨t, ht, hcounted.puc, hcounted.block⟩
  · obtain ⟨t, ht, hcounted⟩ := hstart.refresh_times le_rfl
    obtain ⟨u, hu, hfull⟩ := hcounted.refresh_full
    exact ⟨u, by rw [execTimes_succ_last, ht, andThen_next, hu], hfull⟩

/-! ### What the sequences, REFRESH and CLEAN leave unchanged (R183 to R189) -/

/-- `t` has the bytes of `s` but for those of `BUF0` below `LEN` and of `BUF2` below `2 * LEN`, which COMMIT and DIFF
store to (R168, R169). -/
def StoresInImages (s t : State) : Prop :=
  ∀ b q, (b = .buf0 → s.len ≤ q) → (b = .buf2 → 2 * s.len ≤ q) → t.byteAt b q = s.byteAt b q

theorem storesInImages_of_bufs {s t : State} (h : t.bufs = s.bufs) : StoresInImages s t :=
  fun b q _ _ => byteAt_congr h b q

/-- CLEAN, ignored or not, writes no buffer (R160, R188). -/
theorem clean_bufs {s t : State} (e : exec .clean s = .next t) : t.bufs = s.bufs := by
  obtain ⟨-, rfl⟩ | ⟨-, -, e⟩ := command_eq_next.mp e
  · rfl
  · obtain ⟨-, -, -, -, hbufs⟩ := cleanBody_keeps e
    exact hbufs

/-- REFRESH of a greyscale block, ignored or not, keeps the counter and the buffers (R160, R185, R189). -/
theorem refresh_grey_keeps {s t : State} (hg : s.conf.grey = true) (e : exec .refresh s = .next t) :
    t.puc = s.puc ∧ t.bufs = s.bufs := by
  obtain ⟨-, rfl⟩ | ⟨-, -, e⟩ := command_eq_next.mp e
  · exact ⟨rfl, rfl⟩
  obtain ⟨u, rfl, ⟨-, hu⟩ | ⟨hmono, -⟩ | ⟨hmono, -⟩⟩ := refreshBody_cases e
  · obtain ⟨-, -, hpuc, -, -, hbufs⟩ := refreshGrey_keeps hu
    obtain ⟨-, hcheckPuc, hcheckBufs, -⟩ := forcedFullCheck_keeps u
    exact ⟨hcheckPuc.trans hpuc, hcheckBufs.trans hbufs⟩
  all_goals exact absurd (hmono.symm.trans hg) Bool.false_ne_true

theorem refreshGrey_stores {s t : State} (e : refreshGrey s = .next t) : StoresInImages s t := by
  obtain ⟨-, -, -, -, -, hbufs⟩ := refreshGrey_keeps e
  exact storesInImages_of_bufs hbufs

theorem refreshPartial_stores {s t : State} (e : refreshPartial s = .next t) : StoresInImages s t := by
  obtain ⟨-, -, -, -, -, -, hbytes⟩ := refreshPartial_keeps e
  exact hbytes

theorem refreshFullMono_stores {s t : State} (e : refreshFullMono s = .next t) : StoresInImages s t := by
  obtain ⟨-, -, -, -, -, hbytes⟩ := refreshFullMono_keeps e
  exact fun b q h0 _ => hbytes b q h0

/-- REFRESH stores where its variant does: the forced-full check writes no buffer (R180, R189). -/
theorem refresh_stores {s t : State} (e : exec .refresh s = .next t) : StoresInImages s t := by
  obtain ⟨-, rfl⟩ | ⟨-, -, e⟩ := command_eq_next.mp e
  · exact storesInImages_of_bufs rfl
  obtain ⟨u, rfl, hu⟩ := refreshBody_cases e
  have hvariant : StoresInImages s u := by
    obtain ⟨-, hu⟩ | ⟨-, -, hu⟩ | ⟨-, -, hu⟩ := hu
    · exact refreshGrey_stores hu
    · exact refreshPartial_stores hu
    · exact refreshFullMono_stores hu
  obtain ⟨-, -, hbufs, -⟩ := forcedFullCheck_keeps u
  exact fun b q h0 h2 => (byteAt_congr hbufs b q).trans (hvariant b q h0 h2)

/-- Each of the five is a sequence of primitive changes, and stores only to the bytes of the images. -/
theorem sequence_reach_stores {i : Instr} {s t : State}
    (hi : i ∈ [Instr.clean, .refresh, .refreshFullMono, .refreshPartial, .refreshGrey]) (e : exec i s = .next t) :
    Reach s t ∧ StoresInImages s t := by
  simp only [List.mem_cons, List.not_mem_nil, or_false] at hi
  obtain rfl | rfl | rfl | rfl | rfl := hi
  · exact ⟨command_reach (sequence_reach runPasses_reach) e, storesInImages_of_bufs (clean_bufs e)⟩
  · exact ⟨command_reach refreshBody_reach e, refresh_stores e⟩
  · exact ⟨refreshFullMono_reach e, refreshFullMono_stores e⟩
  · exact ⟨refreshPartial_reach e, refreshPartial_stores e⟩
  · exact ⟨refreshGrey_reach e, refreshGrey_stores e⟩

/-- CLEAN and the greyscale refreshes keep the counter and the buffers (R185, R188). -/
theorem clean_or_grey_keeps {i : Instr} {s t : State}
    (hi : i = .clean ∨ i = .refreshGrey ∨ (i = .refresh ∧ s.conf.grey = true)) (e : exec i s = .next t) :
    t.puc = s.puc ∧ t.bufs = s.bufs := by
  obtain rfl | rfl | ⟨rfl, hg⟩ := hi
  · obtain ⟨-, hpuc, -⟩ := clean_sameCounter e
    exact ⟨hpuc, clean_bufs e⟩
  · obtain ⟨-, -, hpuc, -, -, hbufs⟩ := refreshGrey_keeps e
    exact ⟨hpuc, hbufs⟩
  · exact refresh_grey_keeps hg e

/-- CLEAN and the greyscale sequence keep `BLOCK_PARTIAL` (R185, R188). -/
theorem clean_or_grey_blockPartial {i : Instr} {s t : State} (hi : i = .clean ∨ i = .refreshGrey)
    (e : exec i s = .next t) : t.flags.blockPartial = s.flags.blockPartial := by
  obtain rfl | rfl := hi
  · obtain ⟨-, -, hblock⟩ := clean_sameCounter e
    exact hblock
  · obtain ⟨-, -, -, hflags, -⟩ := refreshGrey_keeps e
    rw [hflags]

/-- Settles O59: the registers are those every sequence of primitive changes keeps, and the bytes are those outside what
COMMIT and DIFF store to; no full monochrome refresh runs DIFF. -/
theorem sequenceFrame : Obligations.SequenceFrame := by
  intro i s t hi e
  obtain ⟨hreach, hbytes⟩ := sequence_reach_stores hi e
  obtain ⟨hparams, hconf, hport, hinit, hfailed, -⟩ := reach_kept hreach
  refine ⟨hparams, hconf, hport, hinit, hfailed, fun p => hbytes .buf1 p nofun nofun, fun hkeeps => ?_,
    fun hkeeps => clean_or_grey_blockPartial hkeeps e, ?_, fun q hq => hbytes .buf0 q (fun _ => hq) nofun,
    fun q hq => hbytes .buf2 q nofun fun _ => hq⟩
  · obtain ⟨hpuc, hbufs⟩ := clean_or_grey_keeps hkeeps e
    exact ⟨hpuc, byteAt_congr hbufs⟩
  · rintro rfl p
    obtain ⟨-, -, -, -, -, hkept⟩ := refreshFullMono_keeps e
    exact hkept .buf2 p nofun

end Sys2Proof.Machine

/-! The exceptions (family 60_exceptions): what AllocationFailure leaves behind, that only the reset event ends the
failed state, and that a pixel write off the panel changes nothing (R201, R202, R208). -/

namespace Sys2Proof.Machine

/-! ### The failed state is left by the reset event alone (R208) -/

/-- No outcome of INIT clears `FAILED`: a failed block ignores INIT (R160, R208). -/
theorem initOutcome_keeps_failed {w h : BitVec 16} {g p : Bool} {fue : BitVec 16} {s t : State}
    (ho : InitOutcome w h g p fue s t) (hf : s.flags.failed = true) : t.flags.failed = true := by
  cases ho with
  | ignored => exact hf
  | failed => rfl
  | kept hnot => exact absurd (hnot.symm.trans hf) Bool.false_ne_true
  | fresh hnot => exact absurd (hnot.symm.trans hf) Bool.false_ne_true

/-- No primitive change writes `FAILED` (R15). -/
theorem prim_keeps_failed {s t : State} (h : Prim s t) (hf : s.flags.failed = true) : t.flags.failed = true := by
  obtain ⟨-, -, -, -, hfailed, -⟩ := prim_kept h
  exact hfailed.trans hf

/-- A failed block is failed after every instruction, an operation stepped alone included (R208). -/
theorem exec_keeps_failed {i : Instr} {s t : State} (e : exec i s = .next t) (hf : s.flags.failed = true) :
    t.flags.failed = true :=
  exec_keeps (P := fun s => s.flags.failed = true) prim_keeps_failed initOutcome_keeps_failed e hf

/-- Settles O20: of the three things a step can do, idling and running an instruction keep `FAILED`. -/
theorem failureLeftOnlyByReset : Obligations.FailureLeftOnlyByReset := by
  intro s t hf e
  obtain ⟨-, ⟨-, rfl⟩ | ⟨rest, hport, -, -⟩ | ⟨c, i, rest, -, -, e⟩⟩ := step_cases e
  · exact .inl hf
  · exact .inr ⟨rest, hport⟩
  · exact .inl (exec_keeps_failed e hf)

/-! ### AllocationFailure (R201) -/

/-- INIT of a new admitted geometry that does not fit releases the buffers and raises AllocationFailure (R162, R201). -/
theorem exec_init_allocationFailure {w h : BitVec 16} {g p : Bool} {fue : BitVec 16} {s : State}
    (hf : s.flags.failed = false) (ha : geometryAdmitted w h = true) (hs : sameGeometry w h g s = false)
    (hn : s.params.fbCapacity < need w h g) :
    exec (.init w h g p fue) s = .next (raise .allocationFailure (releaseBuffers s)) := by
  rw [exec_init_of_not_failed hf, initBody, if_pos ha, if_neg (ne_true_of_eq_false hs), if_pos hn]

/-- The host reads `FAILED` in `STATUS[1]` (R19, R201). -/
theorem status_getLsbD_one (s : State) : s.status.getLsbD 1 = s.flags.failed := by
  obtain ⟨-, hfailed, -⟩ := status_fields s
  exact hfailed

/-- A failed block takes each of the five commands as a no-op (R160, R201). -/
theorem exec_hostCommand_of_failed {i : Instr} {s : State} (hi : hostCommands i) (hf : s.flags.failed = true) :
    exec i s = .next s := by
  obtain ⟨hnoop, -⟩ := commonPrecondition i s hi
  exact hnoop hf

/-- Settles O24: the state AllocationFailure leaves is a failed one, and a failed block ignores every command. -/
theorem allocationFailureEntry : Obligations.AllocationFailureEntry := by
  intro s w h g p fue hf h4 hw hh hnew hn
  have e := exec_init_allocationFailure (p := p) (fue := fue) hf (geometryAdmitted_iff.mpr ⟨h4, hw, hh⟩)
    (sameGeometry_eq_false hnew) hn
  exact ⟨_, e, rfl, status_getLsbD_one _, fun i hi => exec_hostCommand_of_failed hi rfl⟩

/-! ### A pixel write off the panel (R202) -/

/-- Off the panel the body of SET_PIXEL raises OutOfRangeWrite, which changes nothing (R164, R202). -/
theorem setPixelBody_offPanel {s : State} {x y : BitVec 16} (c : Colour) (hp : ¬onPanel s x y = true) :
    setPixelBody x y c s = .next s :=
  if_neg hp

/-- Settles O28: each of the four sides fails one of the bounds that R164 asks of the coordinates. -/
theorem setPixelOffThePanelIsNoOp : Obligations.SetPixelOffThePanelIsNoOp := by
  intro s x y c hr hoff
  have hp : ¬onPanel s x y = true := by
    rw [onPanel_iff]
    omega
  rw [exec_setPixel_of_ready x y c hr, setPixelBody_offPanel c hp]

end Sys2Proof.Machine

/-! Reset and hazards (family 70_reset_and_hazards): the `CFG` fields that no instruction sets (R17, R253). -/

namespace Sys2Proof.Machine

/-- Between the two states `MODE` and `OE` are kept, and `DIR` is kept or cleared (R253). -/
def ModeOeKeptDirCleared (s t : State) : Prop :=
  cfgGet .mode t.cfg = cfgGet .mode s.cfg ∧ cfgGet .oe t.cfg = cfgGet .oe s.cfg ∧
    (cfgGet .dir t.cfg = true → cfgGet .dir s.cfg = true)

theorem ModeOeKeptDirCleared.of_cfg_eq {s t : State} (h : t.cfg = s.cfg) : ModeOeKeptDirCleared s t := by
  simp [ModeOeKeptDirCleared, h]

theorem ModeOeKeptDirCleared.trans {a b c : State} (h : ModeOeKeptDirCleared a b) (k : ModeOeKeptDirCleared b c) :
    ModeOeKeptDirCleared a c := by
  obtain ⟨hmode, hoe, hdir⟩ := h
  obtain ⟨kmode, koe, kdir⟩ := k
  exact ⟨kmode.trans hmode, koe.trans hoe, hdir ∘ kdir⟩

/-- A mutate-then-push pair writes its own field alone, which is none of the three; only POWER_ON's clear of `DIR` and
`PD` writes one of them; every other primitive change keeps `CFG` (R101, R111, R253). -/
theorem prim_modeOeKeptDirCleared {s t : State} (h : Prim s t) : ModeOeKeptDirCleared s t := by
  cases h with
  | apply f v _ hf =>
    obtain ⟨hmode, hoe, hdir⟩ := hf
    simp [ModeOeKeptDirCleared, hmode.symm, hoe.symm, hdir.symm]
  | clearDirPd => simp [ModeOeKeptDirCleared]
  | store b p v _ _ h =>
    obtain ⟨-, rfl⟩ := writeByte_eq_next.mp h
    exact .of_cfg_eq rfl
  | _ => exact .of_cfg_eq (by simp)

/-- Settles O17: INIT keeps `CFG`, and every other instruction is a sequence of primitive changes, each of which meets
the statement. -/
theorem modeAndOutputEnableNeverWritten : Obligations.ModeAndOutputEnableNeverWritten := by
  intro i s t e
  obtain ⟨w, h, g, p, fue, -, ho⟩ | hr := exec_cases e
  · obtain ⟨-, hcfg, -⟩ := initOutcome_keeps ho
    exact ModeOeKeptDirCleared.of_cfg_eq hcfg
  · exact reach_rel (R := ModeOeKeptDirCleared) (fun _ => .of_cfg_eq rfl) ModeOeKeptDirCleared.trans
      prim_modeOeKeptDirCleared hr

end Sys2Proof.Machine
